-- ==== Sys2Proof/Word.lean ====
section
/-! DEFINITION. The plain values of UDPE: 32-bit words, 16-bit halves, bytes, frames, MAC addresses
and IPv4 configurations (spec/00_scope.md R14, R15, R16; spec/10_state.md R25, R26). -/

namespace Sys2Proof

/-- A 32-bit register, an IPv4 value, a host memory address (R16, R61). -/
abbrev Word := BitVec 32

/-- A 16-bit value: a UDP port, a header halfword, `IP_ID` (R16, R35). -/
abbrev Half := BitVec 16

/-- An 8-bit byte (R15). -/
abbrev Byte := BitVec 8

/-- A frame `F[0..flen)`: its bytes in wire order; the length Frame I/O gives is the list's (R100). -/
abbrev Frame := List Byte

/-- A MAC address `m[0..6)`, `m0` first on the wire (R16). -/
structure Mac where
  m0 : Byte
  m1 : Byte
  m2 : Byte
  m3 : Byte
  m4 : Byte
  m5 : Byte
  deriving DecidableEq, Repr, Inhabited

/-- The IpConfig "{address, netmask, gateway}" (R26). -/
structure IpConfig where
  ip : Word
  netmask : Word
  gw : Word
  deriving DecidableEq, Repr, Inhabited

end Sys2Proof
end

