-- ==== Sys2Proof/Config.lean ====
section
/-! DEFINITION. The implementation parameters of UDPE (spec/00_scope.md R10), the reference
configuration REFCFG, and the free values: opaque constants for everything the spec leaves to the
collaborators or calls unspecified (R17 `UNSPEC`, spec/93_implementation_defined.md U1, U2, U4, U8,
U13). No free value has a body a proof could use. -/

namespace Sys2Proof

/-- The named parameters of R10. Their constraints are `Config.legal` (WellFormed.lean). -/
structure Config where
  /-- `N_PORTS`, capacity of the bound-port table. -/
  nPorts : Nat
  /-- `Q_CAP`, capacity of every receive queue, a power of two. -/
  qCap : Nat
  /-- `Q_PAYLOAD_MAX`, payload bytes stored per queue entry. -/
  qPayloadMax : Nat
  /-- `TX_PAYLOAD_MAX`, payload bytes the transmit template holds. -/
  txPayloadMax : Nat
  /-- `SYS_PORTS`, the allow-list of ports below 1024. -/
  sysPorts : List Half
  /-- `HOSTNAME_MAX`, bytes of hostname held. -/
  hostnameMax : Nat
  /-- `IP_ID_RESET`. -/
  ipIdReset : Half
  /-- `TX_TOS`. -/
  txTos : Byte
  /-- `TX_FLAGS_FRAG`. -/
  txFlagsFrag : Half
  /-- `TX_TTL`. -/
  txTtl : Byte
  deriving DecidableEq, Repr

/-- REFCFG, the reference configuration of R10's last column. It is used by the spec's vectors and
is no property of the hardware; the model's reset state takes it (DESIGN CHOICE, log 1). -/
def Config.reference : Config where
  nPorts := 4
  qCap := 4
  qPayloadMax := 16
  txPayloadMax := 20
  sysPorts := [68, 69, 123]
  hostnameMax := 16
  ipIdReset := 0x0000
  txTos := 0x00
  txFlagsFrag := 0x4000
  txTtl := 64

/-- One queue entry a collaborator left in the storage of a slot that was free when it ran
(R154; DEDUCED, log 6). -/
structure EntryWrite where
  slot : Nat
  pos : Nat
  payload : List Byte
  srcIp : Word
  srcPort : Half
  len : Half
  deriving DecidableEq, Repr, Inhabited

/-- What a collaborator that used the UDP Transport while it ran left changed (R154, U4):
`IP_ID` (`none`: as before), the per-send template bytes (`none`: as before; else taken offset for
offset), the frames it sent, and the entry storage of free slots. -/
structure Touch where
  ipId : Option Half
  perSend : Option (List Byte)
  sent : List Frame
  entries : List EntryWrite
  deriving DecidableEq, Repr, Inhabited

/-- A stub collaborator that answers without touching UDPE (R154, last sentence). -/
def Touch.untouched : Touch where
  ipId := none
  perSend := none
  sent := []
  entries := []

/-- A word of unspecified value, by number of the draw (`UNSPEC(32)`; U1). -/
opaque Config.freeWord : Nat → Word

/-- A byte of unspecified value, by number of the draw (`UNSPEC(8)`; U2, U8). -/
opaque Config.freeByte : Nat → Byte

/-- The answer of `FIO.recv()` where the environment lists none (U13). -/
opaque Config.freeFrame : Nat → Option Frame

/-- The answer of `AR.lookup` where the environment lists none (U13). -/
opaque Config.freeMac : Nat → Option Mac

/-- Whether `IPL.handle` answers `deliver` on a frame it may deliver, where the environment lists
no answer (U13). -/
opaque Config.freeDeliver : Nat → Bool

/-- The answer of `DHCP.acquire` where the environment lists none (U13). -/
opaque Config.freeLease : Nat → Option IpConfig

/-- The answer of `ZC.negotiate` where the environment lists none (U13). -/
opaque Config.freeLinkLocal : Nat → Option IpConfig

/-- What a collaborator did to UDPE while it ran, where the environment does not say (U4). -/
opaque Config.freeTouch : Nat → Touch

end Sys2Proof
end

