-- ==== Sys2Proof/Syntax.lean ====
section
/-! DEFINITION. The operation set of UDPE (spec/30_encoding.md R92), one constructor per row of
spec/opcode_table.json; the command lines with their operands (R93, R120); the facade's
pseudo-operations (R123); and the actions of the host (spec/60_exceptions.md R284, R296). -/

namespace Sys2Proof

/-- The twenty operations. Operands are not in the command word: they are what `ARG` holds when
`CMD` is written (R91), so no constructor carries any. -/
inductive Instr where
  | init
  | shutdown
  | setIp
  | setGateway
  | setDhcp
  | setZeroconf
  | dispatch
  | queueIp
  | queueNetmask
  | queueGateway
  | queueDhcp
  | queueZeroconf
  | apply
  | setIpConfig
  | bind
  | unbind
  | recv
  | recvZc
  | send
  | udpDeliver
  deriving DecidableEq, Repr

/-- Where an invocation comes from (R284). -/
inductive Origin where
  /-- The host, through `CMD`. -/
  | host
  /-- The IP layer, through its delivery port. -/
  | ipLayer
  deriving DecidableEq, Repr

/-- An operation together with the origin that invokes it (R284). -/
structure Invocation where
  origin : Origin
  instr : Instr
  deriving DecidableEq, Repr

/-- A command line of R120: one of the nineteen host commands with its operands (R93). -/
inductive HostCommand where
  | init (mac : Mac) (cfg : IpConfig) (useDhcp : Bool) (hostnameAddr hostnameLen : Word)
  | shutdown
  | setIp (newIp : Word)
  | setGateway (newGw : Word)
  | setDhcp
  | setZeroconf
  | dispatch
  | queueIp (value : Word)
  | queueNetmask (value : Word)
  | queueGateway (value : Word)
  | queueDhcp
  | queueZeroconf
  | apply
  | setIpConfig (cfg : IpConfig)
  | bind (localPort : Half)
  | unbind (localPort : Half)
  | recv (handle buf maxLen : Word)
  | recvZc (handle : Word)
  | send (handle buf len toIp : Word) (toPort : Half)
  deriving DecidableEq, Repr

/-- The four operations of the Public Network Facade (R123, R297). -/
inductive FacadeCall where
  | begin (port : Half)
  | done (port : Half)
  | recvFrom (handle buf maxLen : Word)
  | sendTo (handle buf len toIp : Word) (toPort : Half)
  deriving DecidableEq, Repr

/-- One action of the host: an access of `width` bytes to `REG` at a byte offset (R65, R66), a read
of the `QRAM` window (R63), a write to a byte of its own memory (R61, R296). -/
inductive HostAction where
  | writeReg (offset width : Nat) (value : Word)
  | readReg (offset width : Nat)
  | readQram (entry offset : Nat)
  | writeMem (addr : Word) (value : Byte)
  deriving DecidableEq, Repr

end Sys2Proof
end

