-- ==== Sys2Proof/Machine/State.lean ====
section
/-! DEFINITION. The state of UDPE as plain data, every element spec/10_state.md names, with what
stands around it: the held frame, host memory, the host's coming actions, the collaborators' coming
answers and the history of calls; the reasons a step can stop; and the reset state (R50). -/

namespace Sys2Proof.Machine

/-- Why the machine stops with a fault. -/
inductive Fault where
  /-- A collaborator call of the command never returned: the command never finishes and `BUSY`
  stays 1 (spec/93_implementation_defined.md U11, "stuck"). Raised by every operation that makes a
  collaborator call, when the environment says that call never returns. Safe: the machine stops. -/
  | collaboratorNeverReturns
  deriving DecidableEq, Repr

/-- Why the model takes no step. -/
inductive Refusal where
  /-- No meaning for the instruction yet, by its mnemonic. Raised by an arm of `exec` only. Safe. -/
  | notModelled (mnemonic : String)
  /-- `UDP_DELIVER` with `PRE_DELIVER` false, invoked on the port or by an IP layer that answers
  `deliver` on such a frame (spec/42_udp_receive.md R201, U3: "a model refuses the step"). Raised
  by `UDP_DELIVER` and `DISPATCH`. Safe. -/
  | deliverPreconditionFalse
  /-- `UDP_DELIVER` outside a `DISPATCH`, or a second time on one frame
  (spec/60_exceptions.md R283, R284, U12: refuse). Raised by `UDP_DELIVER`. Safe. -/
  | deliverOutsideDispatch
  /-- A register access that is not one aligned 32-bit word (spec/20_memory.md R65: "not supported
  and a model refuses them"). Raised by the host port. Safe. -/
  | unsupportedRegisterAccess
  deriving DecidableEq, Repr

/-- The status codes UDPE produces (spec/30_encoding.md R96); codes 0x09 to 0xFF are never produced.
The numbering is `Status.code` (Machine/Flags.lean). -/
inductive Status where
  | ok
  | empty
  | errTableFull
  | errNotBound
  | errUnbound
  | errArp
  | errBadPort
  | errBadHandle
  | errBadOpcode
  deriving DecidableEq, Repr

/-- The outcome labels of `DISPATCH` and `UDP_DELIVER`: modelling names, held in no register
(spec/00_scope.md R18). -/
inductive Label where
  | noFrame
  | toIp
  | toArp
  | dropEthertype
  | dropLowPort
  | dropNoPort
  | queued (overwrite trunc : Bool)
  deriving DecidableEq, Repr

/-- One call of a collaborator port, or one log event (spec/10_state.md R47; spec/60_exceptions.md
R288 to R295). -/
inductive Call where
  | fioRecv
  | fioFree
  | fioTransmit (frame : Frame)
  | arLookup (ip : Word)
  | arReinit (mac : Mac) (cfg : IpConfig)
  | iplReinit (mac : Mac) (cfg : IpConfig)
  | iplShutdown
  | iplHandle (frame : Frame)
  | arplHandle (frame : Frame)
  | dhcpAcquire (mac : Mac) (hostname : List Byte)
  | dhcpRelease
  | zcNegotiate (cfg : IpConfig)
  | tmrRun
  | logDropEthertype (value : Word)
  deriving DecidableEq, Repr

/-- A listed answer of `IPL.handle` (spec/60_exceptions.md R291): deliver, ignore, or what the
reference predicate `IPL_ACCEPT_REF` says (R292). -/
inductive IplAnswer where
  | deliver
  | ignore
  | reference
  deriving DecidableEq, Repr

/-- The coming answers of the collaborators, next one first (spec/00_scope.md R8: "oracles or input
streams"). Where a list has run out the answer is a free value of Config.lean (log 5). -/
structure Env where
  /-- Answers of `FIO.recv()`. -/
  rx : List (Option Frame)
  /-- Answers of `AR.lookup`. -/
  arp : List (Option Mac)
  /-- Answers of `IPL.handle`. -/
  ipl : List IplAnswer
  /-- Answers of `DHCP.acquire`, each with what the client did to UDPE meanwhile (R154). -/
  dhcp : List (Option IpConfig × Touch)
  /-- Answers of `ZC.negotiate`, likewise. -/
  zc : List (Option IpConfig × Touch)
  /-- What each `TMR.run()` does to UDPE (R283 (e)). -/
  tmr : List Touch
  /-- `some k`: the call with number `k` of the whole history never returns (U11). -/
  stuckAt : Option Nat
  deriving DecidableEq, Repr

/-- `QENT[i][s]` (spec/10_state.md R40). -/
structure Entry where
  data : List Byte
  srcIp : Word
  srcPort : Half
  len : Half
  deriving DecidableEq, Repr

/-- Slot `i` of the port table with its queue: `PORT[i]`, `QHEAD[i]`, `QTAIL[i]`, `QENT[i]`
(spec/10_state.md R36, R38, R40). -/
structure Slot where
  port : Half
  head : Nat
  tail : Nat
  ring : List Entry
  deriving DecidableEq, Repr

/-- The Network Core registers (spec/10_state.md R25 to R28). `NC_HOSTNAME_LEN` is the length of
`hostname`. -/
structure NetCore where
  mac : Mac
  cfg : IpConfig
  dhcpActive : Bool
  zcActive : Bool
  hostname : List Byte
  deriving DecidableEq, Repr

/-- The pending-change registers (spec/10_state.md R29). -/
structure Pending where
  mask : BitVec 5
  ip : Word
  netmask : Word
  gw : Word
  deriving DecidableEq, Repr

/-- `UT_BCAST_MASK`, `UT_ONNET_MASK`, `UT_GW` (spec/10_state.md R31 to R33). -/
structure UtMasks where
  bcastMask : Word
  onnetMask : Word
  gw : Word
  deriving DecidableEq, Repr

/-- The frame Frame I/O lends to a `DISPATCH` in progress, whether the IP layer's delivery call on
it is still to be run, and whether it has been run (spec/10_state.md R45; spec/60_exceptions.md
R283). -/
structure Held where
  frame : Frame
  called : Bool
  delivered : Bool
  deriving DecidableEq, Repr

/-- Host memory: the bytes that differ from what an unwritten address reads, addresses rising. -/
abbrev Memory := List Host.Cell

/-- The whole machine. Groups (a) to (e) are those of spec/10_state.md R20. -/
structure State where
  /-- The parameters of R10; no step changes them (log 1). -/
  cfg : Config
  /-- (a) `CMD`. -/
  cmd : Word
  /-- (a) `STATUS.CODE`. -/
  status : Status
  /-- (a) `ARG[0..7]`. -/
  arg : Vector Word 8
  /-- (a) `RES[0..3]`. -/
  res : Vector Word 4
  /-- (b) the Network Core registers. -/
  nc : NetCore
  /-- (b) the pending-change registers. -/
  pend : Pending
  /-- (c) the UDP Transport masks and gateway. -/
  ut : UtMasks
  /-- (c) `IP_ID`. -/
  ipId : Half
  /-- (d) the port table and the queues. -/
  slots : List Slot
  /-- (e) the transmit template `TXT`. -/
  txt : List Byte
  /-- `RXFRAME`; `some` exactly while a `DISPATCH` is in progress, which is `BUSY = 1` (log 3). -/
  held : Option Held
  /-- `HOSTMEM`. -/
  hostMem : Memory
  /-- The host's coming actions (log 4). -/
  host : List HostAction
  /-- The values the host's reads returned, oldest first (log 4). -/
  bus : List Word
  /-- The collaborators' coming answers (log 5). -/
  env : Env
  /-- The history of collaborator calls and log events, oldest first (R47). -/
  calls : List Call
  /-- The history of outcome labels, oldest first (R18). -/
  labels : List Label
  /-- How many free values have been drawn (log 7). -/
  fresh : Nat
  deriving DecidableEq, Repr

/-- An entry with every byte and field 0 (R40). -/
def Entry.zero (c : Config) : Entry where
  data := List.replicate c.qPayloadMax 0
  srcIp := 0
  srcPort := 0
  len := 0

/-- A slot as reset leaves it: free, queue empty, storage zero (R36, R38, R40). -/
def Slot.free (c : Config) : Slot where
  port := 0
  head := 0
  tail := 0
  ring := List.replicate c.qCap (Entry.zero c)

/-- The template as reset leaves it: the constant bytes of R44, every other byte 0. -/
def resetTemplate (c : Config) : List Byte :=
  [ 0x00, 0x00, 0x00, 0x00, 0x00, 0x00, 0x00, 0x00, 0x00, 0x00, 0x00, 0x00, 0x08, 0x00,
    0x45, c.txTos, 0x00, 0x00, 0x00, 0x00,
    c.txFlagsFrag.extractLsb' 8 8, c.txFlagsFrag.extractLsb' 0 8, c.txTtl, 0x11,
    0x00, 0x00, 0x00, 0x00, 0x00, 0x00, 0x00, 0x00, 0x00, 0x00,
    0x00, 0x00, 0x00, 0x00, 0x00, 0x00, 0x00, 0x00 ] ++ List.replicate c.txPayloadMax 0

/-- The reset state of a UDPE with parameters `c` (R50, R310): the table's values; around it no
frame held, no collaborator call made, nothing listed in memory, no host action pending. -/
def State.resetOf (c : Config) : State where
  cfg := c
  cmd := 0x00000000
  status := .ok
  arg := Vector.replicate 8 0x00000000
  res := Vector.replicate 4 0x00000000
  nc :=
    { mac := ⟨0, 0, 0, 0, 0, 0⟩, cfg := ⟨0, 0, 0⟩, dhcpActive := false, zcActive := false,
      hostname := [] }
  pend := { mask := 0, ip := 0, netmask := 0, gw := 0 }
  ut := { bcastMask := 0xFFFFFFFF, onnetMask := 0, gw := 0 }
  ipId := c.ipIdReset
  slots := List.replicate c.nPorts (Slot.free c)
  txt := resetTemplate c
  held := none
  hostMem := []
  host := []
  bus := []
  env := { rx := [], arp := [], ipl := [], dhcp := [], zc := [], tmr := [], stuckAt := none }
  calls := []
  labels := []
  fresh := 0

/-- The machine right after reset, with the reference configuration (DESIGN CHOICE, log 1). -/
def State.reset : State := State.resetOf Config.reference

end Sys2Proof.Machine
end

