-- ==== Sys2Proof/Machine/Ops.lean ====
section
/-! DEFINITION. The named operations over bytes, host memory, slots and registers, and the end of an
operation: `STATUS`, results, `raise Err(code)` (spec/00_scope.md R15, R17; spec/20_memory.md R61;
spec/60_exceptions.md R280; spec/93_implementation_defined.md U11). -/

namespace Sys2Proof.Machine

/-! ### Byte sequences (R15) -/

/-- `B[o]`. Every use of the model lies within the buffer (R62, R201). -/
def byteAt (b : List Byte) (o : Nat) : Byte := b.getD o 0

/-- `BE16(B, o)` (R15). -/
def be16 (b : List Byte) (o : Nat) : Half := byteAt b o ++ byteAt b (o + 1)

/-- `BE32(B, o)` (R15). -/
def be32 (b : List Byte) (o : Nat) : Word :=
  byteAt b o ++ byteAt b (o + 1) ++ byteAt b (o + 2) ++ byteAt b (o + 3)

/-- The two bytes of a halfword, most significant first (R67). -/
def bytes16 (v : Half) : List Byte := [v.extractLsb' 8 8, v.extractLsb' 0 8]

/-- The four bytes of a word, most significant first (R67). -/
def bytes32 (v : Word) : List Byte :=
  [v.extractLsb' 24 8, v.extractLsb' 16 8, v.extractLsb' 8 8, v.extractLsb' 0 8]

/-- The six bytes of a MAC address in wire order (R16). -/
def macBytes (m : Mac) : List Byte := [m.m0, m.m1, m.m2, m.m3, m.m4, m.m5]

/-- `B[o .. o+n) <- v`: overwrite bytes from an offset on; the buffer keeps its length. -/
def putBytes : List Byte → Nat → List Byte → List Byte
  | [], _, _ => []
  | b :: bs, _, [] => b :: bs
  | _ :: bs, 0, v :: vs => v :: putBytes bs 0 vs
  | b :: bs, o + 1, v :: vs => b :: putBytes bs o (v :: vs)

/-- `PUT_BE16(B, o, v)` (R15). -/
def putBE16 (b : List Byte) (o : Nat) (v : Half) : List Byte := putBytes b o (bytes16 v)

/-- `PUT_BE32(B, o, v)` (R15). -/
def putBE32 (b : List Byte) (o : Nat) (v : Word) : List Byte := putBytes b o (bytes32 v)

/-! ### Host memory (R61) -/

/-- What an address nothing has written reads as (DESIGN CHOICE, log 2). -/
def Memory.unwritten : Byte := 0x00

/-- The canonical form: addresses strictly rising and below 2^32, no entry equal to what an unlisted
address reads as. -/
def Memory.wf : Memory → Bool
  | [] => true
  | (a, b) :: m =>
    decide (a < 2 ^ 32) && decide (b ≠ Memory.unwritten) && m.all (fun c => decide (a < c.1))
      && Memory.wf m

/-- Look one byte up. -/
def Memory.get : Memory → Nat → Byte
  | [], _ => Memory.unwritten
  | (k, v) :: m, a => if k = a then v else Memory.get m a

/-- Put one byte, keeping the canonical form. -/
def Memory.put : Memory → Nat → Byte → Memory
  | [], a, b => if b = Memory.unwritten then [] else [(a, b)]
  | (k, v) :: m, a, b =>
    if a < k then (if b = Memory.unwritten then (k, v) :: m else (a, b) :: (k, v) :: m)
    else if a = k then (if b = Memory.unwritten then m else (a, b) :: m)
    else (k, v) :: Memory.put m a b

/-- The byte of host memory at an address: `HOSTMEM` is a total function (R61). -/
def Memory.read (m : Memory) (a : Word) : Byte := Memory.get m a.toNat

/-- Write the byte of host memory at an address. -/
def Memory.write (m : Memory) (a : Word) (b : Byte) : Memory := Memory.put m a.toNat b

/-- `MemRead(addr, n)`, `addr + j` wrapping mod 2^32 (R17, R61). -/
def memRead (m : Memory) (a : Word) : Nat → List Byte
  | 0 => []
  | n + 1 => m.read a :: memRead m (a + 1) n

/-- `MemWrite(addr, n, v)`, bytes in ascending order, `addr + j` wrapping mod 2^32 (R17, R61). -/
def memWrite (m : Memory) (a : Word) : List Byte → Memory
  | [] => m
  | b :: bs => memWrite (m.write a b) (a + 1) bs

/-! ### Writes of state elements -/

/-- `RES[k] <- v` (R22). -/
def State.setRes (s : State) (k : Fin 4) (v : Word) : State :=
  { s with res := s.res.set k.val v k.isLt }

/-- `STATUS.CODE <- code` at the end of an operation (R24, R281). -/
def State.setStatus (s : State) (c : Status) : State := { s with status := c }

/-- Append one call to the history (R47). -/
def State.record (s : State) (c : Call) : State := { s with calls := s.calls ++ [c] }

/-- Append one outcome label (R18). -/
def State.mark (s : State) (l : Label) : State := { s with labels := s.labels ++ [l] }

/-- `(NC_IP, NC_NETMASK, NC_GW) <- c` (R26). -/
def State.setNcConfig (s : State) (c : IpConfig) : State := { s with nc := { s.nc with cfg := c } }

/-- `NC_DHCP_ACTIVE <- d ; NC_ZC_ACTIVE <- z` (R27). -/
def State.setMode (s : State) (d z : Bool) : State :=
  { s with nc := { s.nc with dhcpActive := d, zcActive := z } }

/-- Write the pending-change registers (R29). -/
def State.setPend (s : State) (p : Pending) : State := { s with pend := p }

/-- Write the UT masks and gateway (R31 to R33). -/
def State.setUt (s : State) (u : UtMasks) : State := { s with ut := u }

/-- `IP_ID <- v` (R35). -/
def State.setIpId (s : State) (v : Half) : State := { s with ipId := v }

/-- Write the template (R43). -/
def State.setTxt (s : State) (t : List Byte) : State := { s with txt := t }

/-- Write host memory. -/
def State.setMem (s : State) (m : Memory) : State := { s with hostMem := m }

/-- Hold a frame, or none (R45). -/
def State.setHeld (s : State) (h : Option Held) : State := { s with held := h }

/-- A host write of `CMD` (R23). -/
def State.setCmd (s : State) (w : Word) : State := { s with cmd := w }

/-- The host's coming actions (log 4). -/
def State.setHost (s : State) (acts : List HostAction) : State := { s with host := acts }

/-- Count `n` more free values as drawn (log 7). -/
def State.drew (s : State) (n : Nat) : State := { s with fresh := s.fresh + n }

/-- Slot `i` of the port table. Handles and matches are always below `N_PORTS`; any other index
reads as a free slot. -/
def State.slot (s : State) (i : Nat) : Slot := s.slots.getD i (Slot.free s.cfg)

/-- Write slot `i` of the port table. -/
def State.setSlot (s : State) (i : Nat) (sl : Slot) : State :=
  { s with slots := s.slots.set i sl }

/-! ### Ending an operation -/

/-- `raise Err(code)`: the operation ends at once with the code in `STATUS.CODE`; what was written
before stays written, nothing is written after. There is no vector, no saved state, no mode change,
and the return from it is the host's next command (R280). -/
def State.raise (s : State) (code : Status) : State := s.setStatus code

/-- Whether a collaborator call made up to the history of `t` is the one the environment of `s` says
never returns (U11). -/
def callNeverReturns (s t : State) : Bool := s.env.stuckAt.any (fun k => k < t.calls.length)

/-- End an operation that calls collaborators: it reaches `t`, unless one of its calls never returns
(R288, U11; log 11). -/
def complete (s t : State) : Host.Outcome State Fault Refusal :=
  if callNeverReturns s t then .fault .collaboratorNeverReturns else .next t

end Sys2Proof.Machine
end

