-- ==== Sys2Proof/Machine/Queue.lean ====
section
/-! DEFINITION. The receive queues: bit-masked pointers with a lap bit, `COUNT`, the entry storage,
queueing with overwrite of the oldest entry, and the scan of the port table (spec/10_state.md R38 to
R40; spec/42_udp_receive.md R207 to R209, R221; spec/41_udp_config_bind.md R183). -/

namespace Sys2Proof.Machine

/-- The advance of a pointer: `(p + 1) & (2*Q_CAP - 1)` (R38, R221). -/
def advance (c : Config) (p : Nat) : Nat := (p + 1) &&& (2 * c.qCap - 1)

/-- The storage slot a pointer designates: `p & (Q_CAP - 1)` (R38). -/
def slotOf (c : Config) (p : Nat) : Nat := p &&& (c.qCap - 1)

/-- `COUNT(i) = (QHEAD[i] - QTAIL[i]) mod (2*Q_CAP)` (R39). -/
def Slot.count (c : Config) (sl : Slot) : Nat := (sl.head + 2 * c.qCap - sl.tail) % (2 * c.qCap)

/-- The entry at a storage slot. -/
def Slot.entry (c : Config) (sl : Slot) (pos : Nat) : Entry := sl.ring.getD pos (Entry.zero c)

/-- The unread entries, oldest first (R39). -/
def Slot.unread (c : Config) (sl : Slot) : List Entry :=
  (List.range (sl.count c)).map (fun j => sl.entry c (slotOf c (sl.tail + j)))

/-- Write the fields of an entry and the stored bytes; bytes beyond them keep their old content
(R40, R207). -/
def Entry.store (e : Entry) (payload : List Byte) (srcIp : Word) (srcPort len : Half) : Entry where
  data := putBytes e.data 0 payload
  srcIp := srcIp
  srcPort := srcPort
  len := len

/-- Put an entry into the storage at a position; no pointer moves. -/
def Slot.storeAt (c : Config) (sl : Slot) (pos : Nat) (payload : List Byte) (srcIp : Word)
    (srcPort len : Half) : Slot :=
  { sl with ring := sl.ring.set pos ((sl.entry c pos).store payload srcIp srcPort len) }

/-- Advance the consumer pointer (R214, R218). -/
def Slot.advanceTail (c : Config) (sl : Slot) : Slot := { sl with tail := advance c sl.tail }

/-- Advance the producer pointer (R202). -/
def Slot.advanceHead (c : Config) (sl : Slot) : Slot := { sl with head := advance c sl.head }

/-- Whether the queue holds `Q_CAP` unread entries (R39). -/
def Slot.full (c : Config) (sl : Slot) : Bool := sl.count c == c.qCap

/-- On a full queue, lose the oldest entry (R209). -/
def Slot.makeRoom (c : Config) (sl : Slot) : Slot := if sl.full c then sl.advanceTail c else sl

/-- Queue one entry: make room, write it at the head, advance the head (R202, R209). -/
def Slot.enqueue (c : Config) (sl : Slot) (payload : List Byte) (srcIp : Word)
    (srcPort len : Half) : Slot :=
  ((sl.makeRoom c).storeAt c (slotOf c sl.head) payload srcIp srcPort len).advanceHead c

/-- Whether the queue is empty: `QHEAD = QTAIL` (R39). -/
def Slot.isEmpty (sl : Slot) : Bool := sl.head == sl.tail

/-- The entry at the tail (R214). -/
def Slot.oldest (c : Config) (sl : Slot) : Entry := sl.entry c (slotOf c sl.tail)

/-- The least `i` with `PORT[i] = p` (R183). With `p = 0` this is the lowest free slot. -/
def findPort (slots : List Slot) (p : Half) : Option Nat := slots.findIdx? (fun sl => sl.port == p)

/-- `QRAM(e, j)`: the payload byte `j` of entry `e = i * Q_CAP + s` (R63). -/
def State.qram (s : State) (e j : Nat) : Byte :=
  byteAt ((s.slot (e / s.cfg.qCap)).entry s.cfg (e % s.cfg.qCap)).data j

/-- Whether `(e, j)` lies within the window (R63, U8). -/
def State.qramInRange (s : State) (e j : Nat) : Bool :=
  decide (e < s.cfg.nPorts * s.cfg.qCap) && decide (j < s.cfg.qPayloadMax)

end Sys2Proof.Machine
end

