-- ==== Sys2Proof/Machine/Collaborators.lean ====
section
/-! DEFINITION. The collaborator ports (spec/60_exceptions.md R288 to R295): for each oracle its next
answer and the state after the call, recorded in the history; and what a collaborator that used the
UDP Transport while it ran leaves changed (spec/40_network_core.md R154; spec/60_exceptions.md
R283). -/

namespace Sys2Proof.Machine

/-- The per-send bytes of the template, payload among them (R44). -/
def perSendOffset (o : Nat) : Bool :=
  decide (o < 6) || (decide (16 ≤ o) && decide (o < 20)) || (decide (24 ≤ o) && decide (o < 26))
    || (decide (30 ≤ o) && decide (o < 40)) || decide (42 ≤ o)

/-- Take the per-send bytes of a template from another buffer; `o` is the offset of the first. -/
def mergePerSend : Nat → List Byte → List Byte → List Byte
  | _, [], _ => []
  | _, b :: bs, [] => b :: bs
  | o, b :: bs, v :: vs =>
    (if perSendOffset o then v else b) :: mergePerSend (o + 1) bs vs

/-- Write entry storage of a slot, if it is free: the collaborator used it and unbound it again
(R154; DEDUCED, log 6). -/
def writeFreeEntry (c : Config) (slots : List Slot) (w : EntryWrite) : List Slot :=
  slots.modify w.slot fun sl =>
    if sl.port = 0 then sl.storeAt c w.pos w.payload w.srcIp w.srcPort w.len else sl

/-- What a collaborator that ran leaves changed: `IP_ID`, the per-send template bytes, the transmit
trace, storage of free slots; the port table, the queue pointers and the entries of bound slots are
assumed unchanged (R154). -/
def State.touch (s : State) (t : Touch) : State :=
  { s with
    ipId := t.ipId.getD s.ipId
    txt := t.perSend.elim s.txt (mergePerSend 0 s.txt)
    slots := t.entries.foldl (writeFreeEntry s.cfg) s.slots
    calls := s.calls ++ t.sent.map .fioTransmit }

/-- The answer of the next `FIO.recv()` (R289). -/
def recvAnswer (s : State) : Option Frame :=
  match s.env.rx with
  | f :: _ => f
  | [] => Config.freeFrame s.fresh

/-- The state after `FIO.recv()`: the frame is gone from the MAC (R71). -/
def afterRecv (s : State) : State :=
  { s.record .fioRecv with env := { s.env with rx := s.env.rx.tail }, fresh := s.fresh + 1 }

/-- The answer of the next `AR.lookup` (R290): an oracle, whatever the address. -/
def arpAnswer (s : State) : Option Mac :=
  match s.env.arp with
  | m :: _ => m
  | [] => Config.freeMac s.fresh

/-- The state after `AR.lookup(ip)`. -/
def afterLookup (s : State) (ip : Word) : State :=
  { s.record (.arLookup ip) with
    env := { s.env with arp := s.env.arp.tail }, fresh := s.fresh + 1 }

/-- The answer of the next `DHCP.acquire` and what the client did to UDPE meanwhile (R294, R154). -/
def dhcpAnswer (s : State) : Option IpConfig × Touch :=
  match s.env.dhcp with
  | a :: _ => a
  | [] => (Config.freeLease s.fresh, Config.freeTouch s.fresh)

/-- The state after `DHCP.acquire(NC_MAC, NC_HOSTNAME)`. -/
def afterAcquire (s : State) : State :=
  { (s.record (.dhcpAcquire s.nc.mac s.nc.hostname)).touch (dhcpAnswer s).2 with
    env := { s.env with dhcp := s.env.dhcp.tail }, fresh := s.fresh + 1 }

/-- The answer of the next `ZC.negotiate` and what the collaborator did to UDPE meanwhile. -/
def zcAnswer (s : State) : Option IpConfig × Touch :=
  match s.env.zc with
  | a :: _ => a
  | [] => (Config.freeLinkLocal s.fresh, Config.freeTouch s.fresh)

/-- The state after `ZC.negotiate((NC_IP, NC_NETMASK, NC_GW))`. -/
def afterNegotiate (s : State) : State :=
  { (s.record (.zcNegotiate s.nc.cfg)).touch (zcAnswer s).2 with
    env := { s.env with zc := s.env.zc.tail }, fresh := s.fresh + 1 }

/-- What the next `TMR.run()` does to UDPE (R283 (e), R295). -/
def timerTouch (s : State) : Touch :=
  match s.env.tmr with
  | t :: _ => t
  | [] => Config.freeTouch s.fresh

/-- The state after `TMR.run()`. -/
def runTimers (s : State) : State :=
  { (s.record .tmrRun).touch (timerTouch s) with
    env := { s.env with tmr := s.env.tmr.tail }, fresh := s.fresh + 1 }

end Sys2Proof.Machine
end

