-- ==== Sys2Proof/WellFormed.lean ====
section
/-! DEFINITION. Static checks: the constraints on the parameters (spec/00_scope.md R10, R13), which
origin may invoke which operation (spec/60_exceptions.md R284), and the supported register accesses
(spec/20_memory.md R65). -/

namespace Sys2Proof

/-- The constraints of R10's table. `Q_CAP = 2^K`: the largest power of two not above `Q_CAP` is
`Q_CAP` itself. -/
def Config.legal (c : Config) : Bool :=
  decide (1 ≤ c.nPorts)
    && decide (2 ^ c.qCap.log2 = c.qCap)
    && (decide (1 ≤ c.qPayloadMax) && decide (c.qPayloadMax ≤ 65527))
    && decide (c.txPayloadMax ≤ 65507)
    && c.sysPorts.all (fun p => decide (1 ≤ p.toNat) && decide (p.toNat ≤ 1023))
    && decide (c.txFlagsFrag &&& 0x3FFF = 0)
    && decide (1 ≤ c.txTtl.toNat)

/-- "A model rejects it when the configuration is built; it never rounds" (R13, R332). -/
def Config.build (c : Config) : Option Config :=
  if c.legal then some c else none

/-- Which origin may invoke which operation (R284): the host the nineteen commands, the IP layer
`UDP_DELIVER` alone. -/
def Invocation.wf (v : Invocation) : Bool :=
  match v.origin with
  | .host => decide (v.instr ≠ .udpDeliver)
  | .ipLayer => decide (v.instr = .udpDeliver)

/-- One aligned 32-bit word per register access; the other actions have no such rule (R65). -/
def HostAction.wf : HostAction → Bool
  | .writeReg offset width _ => decide (width = 4) && decide (offset % 4 = 0)
  | .readReg offset width => decide (width = 4) && decide (offset % 4 = 0)
  | .readQram _ _ => true
  | .writeMem _ _ => true

end Sys2Proof
end

