-- ==== Sys2Proof/Decode.lean ====
section
/-! DEFINITION. The decoder of command words and of the table's selectors, total, rejecting by name
(spec/30_encoding.md R91, R92, R95, R98; spec/opcode_table.json); the encoder; and the assembly of
operands from operand registers with its inverse (R93, R94, R120, R123). -/

namespace Sys2Proof

/-- A row of the opcode table: an operation, its mask and its match value. -/
structure OpcodeRow where
  instr : Instr
  mask : Word
  pattern : Word
  deriving DecidableEq, Repr

/-- The nineteen rows of format `CMD` (R92). -/
def commandRows : List OpcodeRow :=
  [ ⟨.init, 0x000000FF, 0x01⟩, ⟨.shutdown, 0x000000FF, 0x02⟩, ⟨.setIp, 0x000000FF, 0x03⟩,
    ⟨.setGateway, 0x000000FF, 0x04⟩, ⟨.setDhcp, 0x000000FF, 0x05⟩,
    ⟨.setZeroconf, 0x000000FF, 0x06⟩, ⟨.dispatch, 0x000000FF, 0x07⟩,
    ⟨.queueIp, 0x000000FF, 0x08⟩, ⟨.queueNetmask, 0x000000FF, 0x09⟩,
    ⟨.queueGateway, 0x000000FF, 0x0A⟩, ⟨.queueDhcp, 0x000000FF, 0x0B⟩,
    ⟨.queueZeroconf, 0x000000FF, 0x0C⟩, ⟨.apply, 0x000000FF, 0x0D⟩,
    ⟨.setIpConfig, 0x000000FF, 0x10⟩, ⟨.bind, 0x000000FF, 0x11⟩, ⟨.unbind, 0x000000FF, 0x12⟩,
    ⟨.recv, 0x000000FF, 0x13⟩, ⟨.recvZc, 0x000000FF, 0x14⟩, ⟨.send, 0x000000FF, 0x15⟩ ]

/-- The one row of format `PORT`, over the selector whose bit 8 stands for "invoked on the IP-layer
delivery port" (R98). -/
def portRow : OpcodeRow := ⟨.udpDeliver, 0x000001FF, 0x00000100⟩

/-- The whole table. -/
def opcodeTable : List OpcodeRow := commandRows ++ [portRow]

/-- What a selector decodes to: an operation, or the reserved opcode by its number (R95). -/
inductive Decoded where
  | instr (i : Instr)
  | reserved (opcode : Byte)
  deriving DecidableEq, Repr

/-- Look a selector up in the table. -/
def decodeSelector (w : Word) : Decoded :=
  match opcodeTable.find? (fun r => w &&& r.mask == r.pattern) with
  | some r => .instr r.instr
  | none => .reserved (w.extractLsb' 0 8)

/-- Decode a word written to `CMD`: only bits 7:0 count, so no such word reaches the `PORT` row
(R91, R98). -/
def decodeCommand (w : Word) : Decoded :=
  decodeSelector (w &&& 0x000000FF)

/-- The selector of an invocation on the delivery port (R98). -/
def portSelector : Word := 0x00000100

/-- The selector of an operation: for a command the word `0x000000oo` to write to `CMD` (R120), for
`UDP_DELIVER` the table's bookkeeping value (R98). -/
def encode : Instr → Word
  | .init => 0x00000001
  | .shutdown => 0x00000002
  | .setIp => 0x00000003
  | .setGateway => 0x00000004
  | .setDhcp => 0x00000005
  | .setZeroconf => 0x00000006
  | .dispatch => 0x00000007
  | .queueIp => 0x00000008
  | .queueNetmask => 0x00000009
  | .queueGateway => 0x0000000A
  | .queueDhcp => 0x0000000B
  | .queueZeroconf => 0x0000000C
  | .apply => 0x0000000D
  | .setIpConfig => 0x00000010
  | .bind => 0x00000011
  | .unbind => 0x00000012
  | .recv => 0x00000013
  | .recvZc => 0x00000014
  | .send => 0x00000015
  | .udpDeliver => 0x00000100

/-- Whether a table word stands for an invocation on the delivery port: bit 8 set, bits 7:0 zero
(R98). A `CMD` word whose ignored bit 8 happens to be set has a nonzero opcode below it. -/
def isPortWord (w : Nat) : Bool :=
  decide (BitVec.ofNat 32 w &&& 0x000001FF = portSelector)

/-- The operation the decoder reads from a word numbered as spec/opcode_table.json numbers it. -/
def decodeTableWord (nbits w : Nat) : Option Instr :=
  match decodeSelector (BitVec.ofNat 32 (w % 2 ^ nbits)) with
  | .instr i => some i
  | .reserved _ => none

/-- A MAC operand from two operand registers (R94). -/
def assembleMac (a0 a1 : Word) : Mac where
  m0 := a0.extractLsb' 8 8
  m1 := a0.extractLsb' 0 8
  m2 := a1.extractLsb' 24 8
  m3 := a1.extractLsb' 16 8
  m4 := a1.extractLsb' 8 8
  m5 := a1.extractLsb' 0 8

/-- A port operand: bits 15:0 of an operand register (R94). -/
def assemblePort (a : Word) : Half := a.extractLsb' 0 16

/-- A Boolean operand: bit 0 of an operand register (R94). -/
def assembleBool (a : Word) : Bool := a.getLsbD 0

/-- The command a command word and the operand registers stand for (R91, R93, R94); the delivery
port has no command. -/
def HostCommand.ofRegs (i : Instr) (arg : Vector Word 8) : Option HostCommand :=
  match i with
  | .init =>
    some (.init (assembleMac arg[0] arg[1]) ⟨arg[2], arg[3], arg[4]⟩ (assembleBool arg[5]) arg[6]
      arg[7])
  | .shutdown => some .shutdown
  | .setIp => some (.setIp arg[0])
  | .setGateway => some (.setGateway arg[0])
  | .setDhcp => some .setDhcp
  | .setZeroconf => some .setZeroconf
  | .dispatch => some .dispatch
  | .queueIp => some (.queueIp arg[0])
  | .queueNetmask => some (.queueNetmask arg[0])
  | .queueGateway => some (.queueGateway arg[0])
  | .queueDhcp => some .queueDhcp
  | .queueZeroconf => some .queueZeroconf
  | .apply => some .apply
  | .setIpConfig => some (.setIpConfig ⟨arg[0], arg[1], arg[2]⟩)
  | .bind => some (.bind (assemblePort arg[0]))
  | .unbind => some (.unbind (assemblePort arg[0]))
  | .recv => some (.recv arg[0] arg[1] arg[2])
  | .recvZc => some (.recvZc arg[0])
  | .send => some (.send arg[0] arg[1] arg[2] arg[3] (assemblePort arg[4]))
  | .udpDeliver => none

/-- The operation of a command line. -/
def HostCommand.instr : HostCommand → Instr
  | .init _ _ _ _ _ => .init
  | .shutdown => .shutdown
  | .setIp _ => .setIp
  | .setGateway _ => .setGateway
  | .setDhcp => .setDhcp
  | .setZeroconf => .setZeroconf
  | .dispatch => .dispatch
  | .queueIp _ => .queueIp
  | .queueNetmask _ => .queueNetmask
  | .queueGateway _ => .queueGateway
  | .queueDhcp => .queueDhcp
  | .queueZeroconf => .queueZeroconf
  | .apply => .apply
  | .setIpConfig _ => .setIpConfig
  | .bind _ => .bind
  | .unbind _ => .unbind
  | .recv _ _ _ => .recv
  | .recvZc _ => .recvZc
  | .send _ _ _ _ _ => .send

/-- The operand registers a command line loads, first register first: only operands the command
reads (R120), unused bits zero. -/
def HostCommand.operands : HostCommand → List Word
  | .init mac cfg useDhcp a l =>
    [ (mac.m0 ++ mac.m1).setWidth 32, mac.m2 ++ mac.m3 ++ mac.m4 ++ mac.m5, cfg.ip, cfg.netmask,
      cfg.gw, (BitVec.ofBool useDhcp).setWidth 32, a, l ]
  | .shutdown => []
  | .setIp v => [v]
  | .setGateway v => [v]
  | .setDhcp => []
  | .setZeroconf => []
  | .dispatch => []
  | .queueIp v => [v]
  | .queueNetmask v => [v]
  | .queueGateway v => [v]
  | .queueDhcp => []
  | .queueZeroconf => []
  | .apply => []
  | .setIpConfig cfg => [cfg.ip, cfg.netmask, cfg.gw]
  | .bind p => [p.setWidth 32]
  | .unbind p => [p.setWidth 32]
  | .recv h buf m => [h, buf, m]
  | .recvZc h => [h]
  | .send h buf len toIp toPort => [h, buf, len, toIp, toPort.setWidth 32]

/-- Register writes `ARG[k] = v` for `k` from `k` on (offset 0x008 + 4*k, R66). -/
def argWrites : Nat → List Word → List HostAction
  | _, [] => []
  | k, v :: vs => .writeReg (8 + 4 * k) 4 v :: argWrites (k + 1) vs

/-- "The encoding of a command line is the list of register writes `ARG[k] = ...` followed by
`CMD = 0x000000oo`" (R120). -/
def HostCommand.writes (c : HostCommand) : List HostAction :=
  argWrites 0 c.operands ++ [.writeReg 0 4 (encode c.instr)]

/-- The one command each facade operation expands to (R123). -/
def FacadeCall.expand : FacadeCall → HostCommand
  | .begin port => .bind port
  | .done port => .unbind port
  | .recvFrom handle buf maxLen => .recv handle buf maxLen
  | .sendTo handle buf len toIp toPort => .send handle buf len toIp toPort

end Sys2Proof
end

