-- ==== Sys2Proof/Machine/Operands.lean ====
section
/-! DEFINITION. Every operand form: `x[i]` and the operands assembled from it
(spec/00_scope.md R17; spec/30_encoding.md R93, R94). -/

namespace Sys2Proof.Machine

/-- `x[i]`, a read of `ARG[i]` (R17, R21): a handle, an address, a length, an IPv4 value are whole
registers (R94). -/
def State.x (s : State) (k : Fin 8) : Word := s.arg[k.val]

/-- A port operand `x[i][15:0]` (R94). -/
def State.xPort (s : State) (k : Fin 8) : Half := assemblePort (s.x k)

/-- A Boolean operand `x[i][0]` (R94). -/
def State.xBool (s : State) (k : Fin 8) : Bool := assembleBool (s.x k)

/-- The MAC operand `mac(x[0], x[1])` (R94). -/
def State.xMac (s : State) : Mac := assembleMac (s.x 0) (s.x 1)

/-- An IpConfig operand in three consecutive registers from `k` on (R93). -/
def State.xConfig (s : State) (ip netmask gw : Fin 8) : IpConfig := ⟨s.x ip, s.x netmask, s.x gw⟩

/-- A host write of `ARG[k]` (R21). -/
def State.setArg (s : State) (k : Fin 8) (v : Word) : State :=
  { s with arg := s.arg.set k.val v k.isLt }

end Sys2Proof.Machine
end

