-- ==== Sys2Proof/Machine/Parse.lean ====
section
/-! DEFINITION. Parsing and checking of received frames: the Ethertype classes
(spec/30_encoding.md R104, R105), the preconditions of delivery (spec/42_udp_receive.md R201), the
fields `UDP_DELIVER` reads (R203, R207), the low-port filter (R204), and the reference acceptance
predicate (spec/60_exceptions.md R292); with the one's-complement sum both it and the transmit
checksum use (spec/43_udp_send.md R247). -/

namespace Sys2Proof.Machine

/-- The classes of R104. -/
inductive EtherClass where
  | ipv4
  | arp
  | other
  deriving DecidableEq, Repr

/-- The class of a frame by its Ethertype `BE16(F, 12)`; a frame shorter than 14 bytes has none
(R104, R105). -/
def etherClass (f : Frame) : EtherClass :=
  if 14 ≤ f.length ∧ be16 f 12 = 0x0800 then .ipv4
  else if 14 ≤ f.length ∧ be16 f 12 = 0x0806 then .arp
  else .other

/-- The value logged for a dropped frame (R105, R114). -/
def loggedEthertype (f : Frame) : Word :=
  if 14 ≤ f.length then (be16 f 12).setWidth 32 else 0xFFFFFFFF

/-- `PRE_DELIVER(F, flen)` (R201). -/
def preDeliver (f : Frame) : Bool :=
  decide (42 ≤ f.length) && decide (byteAt f 14 = 0x45) && decide (byteAt f 23 = 17)
    && decide (be16 f 20 &&& 0x3FFF = 0) && decide (8 ≤ (be16 f 38).toNat)
    && decide (34 + (be16 f 38).toNat ≤ f.length)

/-- Destination port, `BE16(F, 36)` (R203). -/
def dportOf (f : Frame) : Half := be16 f 36

/-- Source port, `BE16(F, 34)` (R203). -/
def sportOf (f : Frame) : Half := be16 f 34

/-- IPv4 source address, `BE32(F, 26)` (R203). -/
def srcIpOf (f : Frame) : Word := be32 f 26

/-- `ulen = BE16(F, 38) - 8`, the "true received length" (R208). -/
def ulenOf (f : Frame) : Half := be16 f 38 - 8

/-- The stored payload bytes `F[42 .. 42+c)`, `c = min(ulen, Q_PAYLOAD_MAX)` (R207). -/
def payloadOf (c : Config) (f : Frame) : List Byte :=
  (f.drop 42).take (min (ulenOf f).toNat c.qPayloadMax)

/-- A disallowed low port: below 1024 and not in `SYS_PORTS` (R112, R204). -/
def disallowedLowPort (c : Config) (p : Half) : Bool :=
  decide (p.toNat < 1024) && !c.sysPorts.contains p

/-- The folding of R247: `while S > 0xFFFF: S <- (S & 0xFFFF) + (S >> 16)`, with a bound on the
number of rounds (two suffice for ten halfwords, R253). -/
def foldCarry : Nat → Nat → Nat
  | 0, t => t
  | n + 1, t => if t > 0xFFFF then foldCarry n ((t &&& 0xFFFF) + (t >>> 16)) else t

/-- The sum of `n` halfwords from an offset on, as an unbounded integer (R247). -/
def halfSum (b : List Byte) (o : Nat) : Nat → Nat
  | 0 => 0
  | n + 1 => (be16 b o).toNat + halfSum b (o + 2) n

/-- The folded sum of the ten halfwords of the IPv4 header at offset 14 (R247). -/
def headerSum (b : List Byte) : Nat := foldCarry 16 (halfSum b 14 10)

/-- `IPCSUM`: the complement of the folded sum, over a header whose checksum field is zero (R247). -/
def ipcsum (b : List Byte) : Half := ~~~(BitVec.ofNat 16 (headerSum b))

/-- `IPL_ACCEPT_REF` (R292): a legal IP layer for closed models; (a) the preconditions, (b) the
header checksum verifies, (c) the lengths are consistent, (d) the destination is own, broadcast,
subnet broadcast or multicast. -/
def iplAcceptRef (cfg : IpConfig) (f : Frame) : Bool :=
  preDeliver f && decide (headerSum f = 0xFFFF)
    && decide (28 ≤ (be16 f 16).toNat) && decide (14 + (be16 f 16).toNat ≤ f.length)
    && decide ((be16 f 38).toNat ≤ (be16 f 16).toNat - 20)
    && (decide (be32 f 30 = cfg.ip) || decide (be32 f 30 = 0xFFFFFFFF)
        || decide (be32 f 30 &&& ~~~cfg.netmask = ~~~cfg.netmask)
        || decide ((be32 f 30).extractLsb' 28 4 = 0b1110#4))

end Sys2Proof.Machine
end

