-- ==== Sys2Proof/Machine/Receive.lean ====
section
/-! DEFINITION. The meanings of `UDP_DELIVER`, `RECV`, `RECV_ZC` (spec/42_udp_receive.md R202, R214,
R218). -/

namespace Sys2Proof.Machine

/-- The outcome label of `UDP_DELIVER` on a frame (R202, R275). -/
def deliverLabel (s : State) (f : Frame) : Label :=
  if disallowedLowPort s.cfg (dportOf f) then .dropLowPort
  else
    match findPort s.slots (dportOf f) with
    | none => .dropNoPort
    | some i =>
      .queued ((s.slot i).full s.cfg) (decide (s.cfg.qPayloadMax < (ulenOf f).toNat))

/-- Slot `i` with the datagram of a frame queued (R202, R207 to R209). -/
def queuedSlot (s : State) (f : Frame) (i : Nat) : Slot :=
  (s.slot i).enqueue s.cfg (payloadOf s.cfg f) (srcIpOf f) (sportOf f) (ulenOf f)

/-- The effect of `UDP_DELIVER` on the port table and queues (R202). -/
def deliverFrame (s : State) (f : Frame) : State :=
  if disallowedLowPort s.cfg (dportOf f) then s
  else
    match findPort s.slots (dportOf f) with
    | none => s
    | some i => s.setSlot i (queuedSlot s f i)

/-- `UDP_DELIVER` with its outcome label recorded (R202, R18). -/
def udpDeliver (s : State) (f : Frame) : State := (deliverFrame s f).mark (deliverLabel s f)

/-- `UDP_DELIVER` on the frame the enclosing `DISPATCH` holds; refused outside its contract (R202,
R201, R283, R284, U3, U12). -/
def execUdpDeliver (s : State) : Host.Outcome State Fault Refusal :=
  match s.held with
  | none => .refused .deliverOutsideDispatch
  | some h =>
    if h.delivered then .refused .deliverOutsideDispatch
    else if preDeliver h.frame then
      .next ((udpDeliver s h.frame).setHeld (some { h with delivered := true }))
    else .refused .deliverPreconditionFalse

/-- `n` bytes of an entry: the stored ones, and beyond `Q_PAYLOAD_MAX` free bytes, each drawn afresh
from draw `k` on (R214, R216, U2). -/
def entryBytes (c : Config) (e : Entry) (k n : Nat) : List Byte :=
  (List.range n).map (fun j => if j < c.qPayloadMax then byteAt e.data j else Config.freeByte (k + j))

/-- `n = min(max_len, e.LEN)` (R216). -/
def recvLength (s : State) (e : Entry) : Nat := min (s.x 2).toNat e.len.toNat

/-- The metadata results of a receive (R214, R218). -/
def recvResults (s : State) (n : Word) (e : Entry) : State :=
  ((s.setRes 0 n).setRes 1 e.srcIp).setRes 2 (e.srcPort.setWidth 32)

/-- An empty queue: `n = 0` and unspecified metadata (R215, U1). -/
def recvEmpty (s : State) : State :=
  (((s.setRes 0 0).setRes 1 (Config.freeWord s.fresh)).setRes 2
    (Config.freeWord (s.fresh + 1))).setStatus .empty

/-- `RECV` of the oldest entry `e` of slot `h` (R214). -/
def recvTake (s : State) (h : Nat) (e : Entry) : State :=
  let n := recvLength s e
  (recvResults
    (((s.setMem (memWrite s.hostMem (s.x 1) (entryBytes s.cfg e s.fresh n))).setSlot h
      ((s.slot h).advanceTail s.cfg)).drew n)
    (BitVec.ofNat 32 n) e).setStatus .ok

/-- `RECV` with handle `h` (R214, R217). -/
def recvNext (s : State) (h : Nat) : State :=
  if s.cfg.nPorts ≤ h then s.raise .errBadHandle
  else if (s.slot h).isEmpty then (recvEmpty s).drew 2
  else recvTake s h ((s.slot h).oldest s.cfg)

/-- `RECV` (R214). -/
def execRecv (s : State) : Host.Outcome State Fault Refusal := .next (recvNext s (s.x 0).toNat)

/-- The entry index `e = h * Q_CAP + s` of the oldest entry of slot `h` (R218, R63). -/
def oldestIndex (s : State) (h : Nat) : Nat := h * s.cfg.qCap + slotOf s.cfg (s.slot h).tail

/-- `RECV_ZC` of the oldest entry `e` of slot `h` (R218). -/
def recvZcTake (s : State) (h : Nat) (e : Entry) : State :=
  ((recvResults (s.setSlot h ((s.slot h).advanceTail s.cfg)) (e.len.setWidth 32) e).setRes 3
    (BitVec.ofNat 32 (oldestIndex s h))).setStatus .ok

/-- `RECV_ZC` with handle `h` (R218). -/
def recvZcNext (s : State) (h : Nat) : State :=
  if s.cfg.nPorts ≤ h then s.raise .errBadHandle
  else if (s.slot h).isEmpty then
    ((recvEmpty s).setRes 3 (Config.freeWord (s.fresh + 2))).drew 3
  else recvZcTake s h ((s.slot h).oldest s.cfg)

/-- `RECV_ZC` (R218). -/
def execRecvZc (s : State) : Host.Outcome State Fault Refusal := .next (recvZcNext s (s.x 0).toNat)

end Sys2Proof.Machine
end

