-- ==== Sys2Proof/Machine/FrameDispatch.lean ====
section
/-! DEFINITION. The meaning of `DISPATCH`: at most one frame received, handed over by Ethertype,
released, then the timer work (spec/40_network_core.md R156 to R159). -/

namespace Sys2Proof.Machine

/-- The answer of `IPL.handle` on a frame: as listed; where none is listed, free, but `deliver` only
on a frame it may deliver, as its contract promises (R159, R291 (d); log 12). -/
def iplDelivers (s : State) (f : Frame) : Bool :=
  match s.env.ipl with
  | .deliver :: _ => true
  | .ignore :: _ => false
  | .reference :: _ => iplAcceptRef s.nc.cfg f
  | [] => preDeliver f && Config.freeDeliver s.fresh

/-- The state after `IPL.handle(F, flen)`, before any delivery. -/
def afterIplHandle (s : State) (f : Frame) : State :=
  { s.record (.iplHandle f) with
    env := { s.env with ipl := s.env.ipl.tail }, fresh := s.fresh + 1 }

/-- The state in which a `DISPATCH` holds the frame `FIO.recv()` answered (R45, R156). -/
def holdFrame (s : State) (f : Frame) : State :=
  (afterRecv s).setHeld (some { frame := f, called := false, delivered := false })

/-- Hand the held frame over by its Ethertype (R156, R158). -/
def handOver (s : State) (f : Frame) : State :=
  match etherClass f with
  | .ipv4 =>
    let t := (afterIplHandle s f).mark .toIp
    if iplDelivers s f then udpDeliver t f else t
  | .arp => (s.record (.arplHandle f)).mark .toArp
  | .other => (s.record (.logDropEthertype (loggedEthertype f))).mark .dropEthertype

/-- The end of a `DISPATCH` that held a frame: release it, run the timer work, report `ST_OK`
(R156, R157). -/
def dispatchEnd (s : State) : State :=
  (runTimers ((s.setHeld none).record .fioFree)).setStatus .ok

/-- `DISPATCH` (R156). -/
def dispatchNext (s : State) : State :=
  match recvAnswer s with
  | none => (runTimers ((afterRecv s).mark .noFrame)).setStatus .ok
  | some f => dispatchEnd (handOver (holdFrame s f) f)

/-- Whether the next `DISPATCH` meets an IP layer that answers `deliver` on a frame with `PRE_DELIVER`
false, against its contract (R201, R291 (d), U3). -/
def deliveryContractBroken (s : State) : Bool :=
  match s.env.ipl with
  | .deliver :: _ =>
    match recvAnswer s with
    | none => false
    | some f => decide (etherClass f = .ipv4) && !preDeliver f
  | .ignore :: _ => false
  | .reference :: _ => false
  | [] => false

/-- `DISPATCH` (R156); refused where its nested `UDP_DELIVER` is (U3). -/
def execDispatch (s : State) : Host.Outcome State Fault Refusal :=
  if deliveryContractBroken s then .refused .deliverPreconditionFalse
  else complete s (dispatchNext s)

end Sys2Proof.Machine
end

