-- ==== Sys2Proof/Machine/Configure.lean ====
section
/-! DEFINITION. The shared configuration steps: the transport's copies (spec/41_udp_config_bind.md
R181), `PROPAGATE`, `REINIT`, `NEGOTIATE` (spec/40_network_core.md R141 to R143). -/

namespace Sys2Proof.Machine

/-- The masks and gateway an IpConfig gives the transport (R181). -/
def utMasksOf (c : IpConfig) : UtMasks where
  bcastMask := ~~~c.netmask
  onnetMask := c.ip &&& c.netmask
  gw := c.gw

/-- The body of `SET_IP_CONFIG`: recompute the copies and the source address of the template
(R181). -/
def loadTransport (s : State) (c : IpConfig) : State :=
  (s.setUt (utMasksOf c)).setTxt (putBE32 s.txt 26 c.ip)

/-- `PROPAGATE()`: the source MAC of the template, then lines 2 to 5, which are `SET_IP_CONFIG` of
the held configuration (R141). -/
def propagate (s : State) : State :=
  loadTransport (s.setTxt (putBytes s.txt 6 (macBytes s.nc.mac))) s.nc.cfg

/-- `REINIT()`: address resolution, then the IP layer, then `PROPAGATE` (R142). -/
def reinit (s : State) : State :=
  propagate ((s.record (.arReinit s.nc.mac s.nc.cfg)).record (.iplReinit s.nc.mac s.nc.cfg))

/-- Whether `NEGOTIATE` returns `dhcp_ok = 1` (R143). -/
def negotiateOk (s : State) : Bool := (dhcpAnswer s).1.isSome

/-- The zeroconf part of `NEGOTIATE`, after a DHCP failure (R143). -/
def fallBack (s : State) : State :=
  match (zcAnswer s).1 with
  | some c => ((afterNegotiate s).setNcConfig c).setMode s.nc.dhcpActive true
  | none => (afterNegotiate s).setMode s.nc.dhcpActive false

/-- `NEGOTIATE()`: DHCP with automatic fallback to zeroconf (R143). -/
def negotiate (s : State) : State :=
  match (dhcpAnswer s).1 with
  | some c => ((afterAcquire s).setNcConfig c).setMode true false
  | none => fallBack ((afterAcquire s).setMode false s.nc.zcActive)

end Sys2Proof.Machine
end

