-- ==== Sys2Proof/Machine/Flags.lean ====
section
/-! DEFINITION. The `STATUS` register and its fields: the status codes (spec/30_encoding.md R96),
`BUSY` and the addressing-mode flags (spec/10_state.md R24, R27), and the bits of `PEND_MASK`
(R29). These are the only flags UDPE has. -/

namespace Sys2Proof.Machine

/-- The numbering of R96. -/
def Status.code : Status → Byte
  | .ok => 0x00
  | .empty => 0x01
  | .errTableFull => 0x02
  | .errNotBound => 0x03
  | .errUnbound => 0x04
  | .errArp => 0x05
  | .errBadPort => 0x06
  | .errBadHandle => 0x07
  | .errBadOpcode => 0x08

/-- `STATUS.BUSY`: a command is in progress. Commands are atomic steps, so between steps this is a
`DISPATCH` suspended at its delivery call (R24; log 3). -/
def State.busy (s : State) : Bool := s.held.isSome

/-- The `STATUS` register: code in 7:0, `BUSY` 8, `DHCP` 9, `ZC` 10, the rest 0 (R24). -/
def State.statusWord (s : State) : Word :=
  (0#21 ++ BitVec.ofBool s.nc.zcActive ++ BitVec.ofBool s.nc.dhcpActive ++ BitVec.ofBool s.busy
    ++ s.status.code : BitVec 32)

/-- The addressing mode (R27, R147). -/
inductive Mode where
  | static
  | dhcp
  | zeroconf
  deriving DecidableEq, Repr

/-- The mode the two flags stand for (R27). -/
def State.mode (s : State) : Mode :=
  if s.nc.dhcpActive then .dhcp else if s.nc.zcActive then .zeroconf else .static

/-- `P_IP`, bit 0 of `PEND_MASK` (R29). -/
def pIp : BitVec 5 := 0b00001

/-- `P_NETMASK`, bit 1. -/
def pNetmask : BitVec 5 := 0b00010

/-- `P_GW`, bit 2. -/
def pGw : BitVec 5 := 0b00100

/-- `P_DHCP`, bit 3. -/
def pDhcp : BitVec 5 := 0b01000

/-- `P_ZC`, bit 4. -/
def pZc : BitVec 5 := 0b10000

/-- `zext_32` of a Boolean result (R93). -/
def boolWord (b : Bool) : Word := (BitVec.ofBool b).setWidth 32

/-- `{30'b0, zc, ok}`, the result of `APPLY` (R93, R162). -/
def applyResult (zc ok : Bool) : Word := (0#30 ++ BitVec.ofBool zc ++ BitVec.ofBool ok : BitVec 32)

end Sys2Proof.Machine
end

