-- ==== Sys2Proof/Machine/NetworkCore.lean ====
section
/-! DEFINITION. The meanings of `INIT`, `SHUTDOWN`, `SET_IP`, `SET_GATEWAY`, `SET_DHCP`,
`SET_ZEROCONF` (spec/40_network_core.md R144 to R153). -/

namespace Sys2Proof.Machine

/-- `hl = min(x[7], HOSTNAME_MAX)`: a longer hostname is cut silently (R144). -/
def hostnameLength (s : State) : Nat := min (s.x 7).toNat s.cfg.hostnameMax

/-- `INIT` up to the first `REINIT`: the inputs are copied into owned state (R144). -/
def initInputs (s : State) : State :=
  { s with
    nc :=
      { mac := s.xMac
        cfg := s.xConfig 2 3 4
        dhcpActive := s.xBool 5
        zcActive := false
        hostname := memRead s.hostMem (s.x 6) (hostnameLength s) } }

/-- `INIT` after its inputs are copied and the layers first initialised: negotiate if asked (R144). -/
def initNegotiated (s : State) : State :=
  if s.xBool 5 then negotiate (reinit (initInputs s)) else reinit (initInputs s)

/-- `RES[0..2] <- NC_IP, NC_NETMASK, NC_GW ; RES[3] <- zext_32(NC_ZC_ACTIVE)` (R144). -/
def initResults (s : State) : State :=
  (((s.setRes 0 s.nc.cfg.ip).setRes 1 s.nc.cfg.netmask).setRes 2 s.nc.cfg.gw).setRes 3
    (boolWord s.nc.zcActive)

/-- `INIT` (R144). -/
def execInit (s : State) : Host.Outcome State Fault Refusal :=
  complete s ((initResults (reinit (initNegotiated s))).setStatus .ok)

/-- The calls of `SHUTDOWN` (R146). -/
def shutdownCalls (s : State) : State :=
  if s.nc.dhcpActive then (s.record .iplShutdown).record .dhcpRelease else s.record .iplShutdown

/-- `SHUTDOWN` (R146). -/
def execShutdown (s : State) : Host.Outcome State Fault Refusal :=
  complete s ((shutdownCalls s).setStatus .ok)

/-- `SET_IP` (R148). -/
def execSetIp (s : State) : Host.Outcome State Fault Refusal :=
  complete s ((reinit (s.setNcConfig { s.nc.cfg with ip := s.x 0 })).setStatus .ok)

/-- `SET_GATEWAY` (R149). -/
def execSetGateway (s : State) : Host.Outcome State Fault Refusal :=
  complete s ((reinit (s.setNcConfig { s.nc.cfg with gw := s.x 0 })).setStatus .ok)

/-- `SET_DHCP` (R150). -/
def execSetDhcp (s : State) : Host.Outcome State Fault Refusal :=
  complete s (((reinit (negotiate s)).setRes 0 (boolWord (negotiateOk s))).setStatus .ok)

/-- A zeroconf success outside `NEGOTIATE`: configuration, flags, `REINIT` (R152, R162). -/
def takeLinkLocal (s : State) (c : IpConfig) : State :=
  reinit (((afterNegotiate s).setNcConfig c).setMode false true)

/-- `SET_ZEROCONF` (R152). -/
def setZeroconfNext (s : State) : State :=
  match (zcAnswer s).1 with
  | some c => ((takeLinkLocal s c).setRes 0 1).setStatus .ok
  | none => ((afterNegotiate s).setRes 0 0).setStatus .ok

/-- `SET_ZEROCONF` (R152). -/
def execSetZeroconf (s : State) : Host.Outcome State Fault Refusal :=
  complete s (setZeroconfNext s)

end Sys2Proof.Machine
end

