-- ==== Sys2Proof/Machine/PendingChange.lean ====
section
/-! DEFINITION. The meanings of `QUEUE_IP`, `QUEUE_NETMASK`, `QUEUE_GATEWAY`, `QUEUE_DHCP`,
`QUEUE_ZEROCONF`, `APPLY` (spec/40_network_core.md R160 to R162). -/

namespace Sys2Proof.Machine

/-- `QUEUE_IP` (R160). -/
def execQueueIp (s : State) : Host.Outcome State Fault Refusal :=
  .next ((s.setPend { s.pend with ip := s.x 0, mask := s.pend.mask ||| pIp }).setStatus .ok)

/-- `QUEUE_NETMASK` (R160). -/
def execQueueNetmask (s : State) : Host.Outcome State Fault Refusal :=
  .next
    ((s.setPend { s.pend with netmask := s.x 0, mask := s.pend.mask ||| pNetmask }).setStatus .ok)

/-- `QUEUE_GATEWAY` (R160). -/
def execQueueGateway (s : State) : Host.Outcome State Fault Refusal :=
  .next ((s.setPend { s.pend with gw := s.x 0, mask := s.pend.mask ||| pGw }).setStatus .ok)

/-- `QUEUE_DHCP`: the later mode request wins (R161). -/
def execQueueDhcp (s : State) : Host.Outcome State Fault Refusal :=
  .next
    ((s.setPend { s.pend with mask := (s.pend.mask ||| pDhcp) &&& ~~~pZc }).setStatus .ok)

/-- `QUEUE_ZEROCONF`: the later mode request wins (R161). -/
def execQueueZeroconf (s : State) : Host.Outcome State Fault Refusal :=
  .next
    ((s.setPend { s.pend with mask := (s.pend.mask ||| pZc) &&& ~~~pDhcp }).setStatus .ok)

/-- The configuration with the staged values whose bit is set (R162). -/
def stagedConfig (s : State) : IpConfig where
  ip := if s.pend.mask.getLsbD 0 then s.pend.ip else s.nc.cfg.ip
  netmask := if s.pend.mask.getLsbD 1 then s.pend.netmask else s.nc.cfg.netmask
  gw := if s.pend.mask.getLsbD 2 then s.pend.gw else s.nc.cfg.gw

/-- Whether any value bit is set: `m[2:0] != 0` (R162). -/
def valueStaged (s : State) : Bool := decide (s.pend.mask.extractLsb' 0 3 ≠ 0)

/-- `APPLY` up to its mode request: clear the mask, write all staged values (R162). -/
def applyStaged (s : State) : State :=
  (s.setNcConfig (stagedConfig s)).setPend { s.pend with mask := 0 }

/-- `REINIT` when a value was staged (R162). -/
def reinitIf (b : Bool) (s : State) : State := if b then reinit s else s

/-- `APPLY` of a queued zeroconf request, from the state `t` with the staged values written (R162). -/
def applyZeroconf (staged : Bool) (t : State) : State :=
  match (zcAnswer t).1 with
  | some c => takeLinkLocal t c
  | none => reinitIf staged (afterNegotiate t)

/-- `APPLY` with its result (R162). -/
def applyNext (s : State) : State :=
  let t := applyStaged s
  if s.pend.mask.getLsbD 3 then
    let u := reinit (negotiate t)
    u.setRes 0 (applyResult u.nc.zcActive (negotiateOk t))
  else if s.pend.mask.getLsbD 4 then
    let u := applyZeroconf (valueStaged s) t
    u.setRes 0 (applyResult u.nc.zcActive false)
  else (reinitIf (valueStaged s) t).setRes 0 0

/-- `APPLY` (R162). -/
def execApply (s : State) : Host.Outcome State Fault Refusal :=
  complete s ((applyNext s).setStatus .ok)

end Sys2Proof.Machine
end

