-- ==== Sys2Proof/Machine/PortTable.lean ====
section
/-! DEFINITION. The meanings of `SET_IP_CONFIG`, `BIND`, `UNBIND` (spec/41_udp_config_bind.md R181,
R184, R187). -/

namespace Sys2Proof.Machine

/-- `SET_IP_CONFIG` (R181). -/
def execSetIpConfig (s : State) : Host.Outcome State Fault Refusal :=
  .next ((loadTransport s (s.xConfig 0 1 2)).setStatus .ok)

/-- The result of a failed `BIND`, never a valid handle (R97). -/
def noHandle : Word := 0xFFFFFFFF

/-- A handle: the index of a slot (R97). -/
def handleOf (i : Nat) : Word := BitVec.ofNat 32 i

/-- `BIND` of port `p`: an existing binding first, else the lowest free slot (R184). -/
def bindNext (s : State) (p : Half) : State :=
  if p = 0 then (s.setRes 0 noHandle).raise .errBadPort
  else
    match findPort s.slots p with
    | some i => (s.setRes 0 (handleOf i)).setStatus .ok
    | none =>
      match findPort s.slots 0 with
      | some i =>
        ((s.setSlot i { s.slot i with port := p }).setRes 0 (handleOf i)).setStatus .ok
      | none => (s.setRes 0 noHandle).raise .errTableFull

/-- `BIND` (R184). -/
def execBind (s : State) : Host.Outcome State Fault Refusal := .next (bindNext s (s.xPort 0))

/-- `UNBIND` of port `p`: the slot becomes free and its queue empty; the storage is not cleared
(R187). -/
def unbindNext (s : State) (p : Half) : State :=
  if p = 0 then s.raise .errBadPort
  else
    match findPort s.slots p with
    | none => s.raise .errNotBound
    | some i => (s.setSlot i { s.slot i with port := 0, head := 0, tail := 0 }).setStatus .ok

/-- `UNBIND` (R187). -/
def execUnbind (s : State) : Host.Outcome State Fault Refusal := .next (unbindNext s (s.xPort 0))

end Sys2Proof.Machine
end

