-- ==== Sys2Proof/Machine/Send.lean ====
section
/-! DEFINITION. The meaning of `SEND` in its stages: handle check, identifier, truncation,
destination class, lookup, stamping with the header checksum, hand-off (spec/43_udp_send.md R231 to
R251; spec/30_encoding.md R110, R111). -/

namespace Sys2Proof.Machine

/-- The destination classes of R110. -/
inductive DstClass where
  | limitedBcast
  | subnetBcast
  | mcast
  | offLink
  | onLink
  deriving DecidableEq, Repr

/-- The tests in order, first match wins (R110, R236 to R240). -/
def classify (u : UtMasks) (ip : Word) : DstClass :=
  if ip = 0xFFFFFFFF then .limitedBcast
  else if ip &&& u.bcastMask = u.bcastMask then .subnetBcast
  else if ip.extractLsb' 28 4 = 0b1110#4 then .mcast
  else if ip &&& u.onnetMask ≠ u.onnetMask then .offLink
  else .onLink

/-- The Ethernet broadcast address (R237). -/
def broadcastMac : Mac := ⟨0xFF, 0xFF, 0xFF, 0xFF, 0xFF, 0xFF⟩

/-- The multicast MAC of a group address: prefix `01:00:5E` and the low 23 bits (R111). -/
def multicastMac (ip : Word) : Mac where
  m0 := 0x01
  m1 := 0x00
  m2 := 0x5E
  m3 := ip.extractLsb' 16 8 &&& 0x7F
  m4 := ip.extractLsb' 8 8
  m5 := ip.extractLsb' 0 8

/-- The resolution target of a class: the gateway off-link, the destination on-link; broadcast and
multicast need none (R239 to R242). -/
def lookupTarget (u : UtMasks) (ip : Word) : Option Word :=
  match classify u ip with
  | .limitedBcast => none
  | .subnetBcast => none
  | .mcast => none
  | .offLink => some u.gw
  | .onLink => some ip

/-- The destination MAC a class gives without a lookup (R237, R238). -/
def fixedMac (u : UtMasks) (ip : Word) : Mac :=
  match classify u ip with
  | .mcast => multicastMac ip
  | .limitedBcast => broadcastMac
  | .subnetBcast => broadcastMac
  | .offLink => broadcastMac
  | .onLink => broadcastMac

/-- The destination MAC, or none where address resolution has none (R236 to R243). -/
def destinationMac (s : State) (ip : Word) : Option Mac :=
  match lookupTarget s.ut ip with
  | none => some (fixedMac s.ut ip)
  | some _ => arpAnswer s

/-- The state after stage 4: at most one `AR.lookup` call (R230, R243). -/
def afterAddressing (s : State) (ip : Word) : State :=
  match lookupTarget s.ut ip with
  | none => s
  | some target => afterLookup s target

/-- What stage 5 stamps. -/
structure Stamp where
  dmac : Mac
  id : Half
  toIp : Word
  sport : Half
  dport : Half
  payload : List Byte
  deriving DecidableEq, Repr

/-- The IPv4 part of stage 5, the checksum last (R246, R247). -/
def stampIp (t : List Byte) (p : Stamp) : List Byte :=
  let u := putBE16 (putBE32 (putBE16 (putBE16 (putBytes t 0 (macBytes p.dmac)) 16
    (BitVec.ofNat 16 (28 + p.payload.length))) 18 p.id) 30 p.toIp) 24 0x0000
  putBE16 u 24 (ipcsum u)

/-- Stage 5: the template with every per-send byte stamped (R244 to R250). -/
def stamp (t : List Byte) (p : Stamp) : List Byte :=
  putBytes
    (putBE16 (putBE16 (putBE16 (stampIp t p) 34 p.sport) 36 p.dport) 38
      (BitVec.ofNat 16 (8 + p.payload.length)))
    42 p.payload

/-- `n = min(len, TX_PAYLOAD_MAX)` (R235). -/
def sendLength (s : State) : Nat := min (s.x 2).toNat s.cfg.txPayloadMax

/-- What a `SEND` from slot `h` stamps once its destination MAC is known (R231, R234, R248, R250). -/
def sendStamp (s : State) (h : Nat) (dmac : Mac) : Stamp where
  dmac := dmac
  id := s.ipId
  toIp := s.x 3
  sport := (s.slot h).port
  dport := s.xPort 4
  payload := memRead s.hostMem (s.x 1) (sendLength s)

/-- The frame handed to Frame I/O: `TXT[0 .. 42+n)` (R251). -/
def sentFrame (s : State) (h : Nat) (dmac : Mac) : Frame :=
  (stamp s.txt (sendStamp s h dmac)).take (42 + sendLength s)

/-- The identifier is consumed after the handle check and before addressing (R234). -/
def takeId (s : State) : State := s.setIpId (s.ipId + 1)

/-- Stages 5 and 6 (R244 to R251). -/
def transmit (s t : State) (h : Nat) (dmac : Mac) : State :=
  ((t.setTxt (stamp s.txt (sendStamp s h dmac))).record
    (.fioTransmit (sentFrame s h dmac))).setStatus .ok

/-- Whether handle `h` is unbound: outside the table, or a free slot (R232). -/
def unboundHandle (s : State) (h : Nat) : Bool :=
  decide (s.cfg.nPorts ≤ h) || decide ((s.slot h).port = 0)

/-- `SEND` with handle `h` (R231). -/
def sendNext (s : State) (h : Nat) : State :=
  if unboundHandle s h then s.raise .errUnbound
  else
    let t := afterAddressing (takeId s) (s.x 3)
    match destinationMac (takeId s) (s.x 3) with
    | none => t.raise .errArp
    | some dmac => transmit s t h dmac

/-- `SEND` (R231). -/
def execSend (s : State) : Host.Outcome State Fault Refusal :=
  complete s (sendNext s (s.x 0).toNat)

end Sys2Proof.Machine
end

