-- ==== Sys2Proof/Machine/Dispatch.lean ====
section
/-! DEFINITION. One arm per operation, each a direct call of its meaning. -/

namespace Sys2Proof.Machine

def exec (i : Instr) (s : State) : Host.Outcome State Fault Refusal :=
  match i with
  | .init => Sys2Proof.Machine.execInit s
  | .shutdown => Sys2Proof.Machine.execShutdown s
  | .setIp => Sys2Proof.Machine.execSetIp s
  | .setGateway => Sys2Proof.Machine.execSetGateway s
  | .setDhcp => Sys2Proof.Machine.execSetDhcp s
  | .setZeroconf => Sys2Proof.Machine.execSetZeroconf s
  | .dispatch => Sys2Proof.Machine.execDispatch s
  | .queueIp => Sys2Proof.Machine.execQueueIp s
  | .queueNetmask => Sys2Proof.Machine.execQueueNetmask s
  | .queueGateway => Sys2Proof.Machine.execQueueGateway s
  | .queueDhcp => Sys2Proof.Machine.execQueueDhcp s
  | .queueZeroconf => Sys2Proof.Machine.execQueueZeroconf s
  | .apply => Sys2Proof.Machine.execApply s
  | .setIpConfig => Sys2Proof.Machine.execSetIpConfig s
  | .bind => Sys2Proof.Machine.execBind s
  | .unbind => Sys2Proof.Machine.execUnbind s
  | .recv => Sys2Proof.Machine.execRecv s
  | .recvZc => Sys2Proof.Machine.execRecvZc s
  | .send => Sys2Proof.Machine.execSend s
  | .udpDeliver => Sys2Proof.Machine.execUdpDeliver s

end Sys2Proof.Machine
end

