-- ==== Sys2Proof/Machine/HostPort.lean ====
section
/-! DEFINITION. What the host does to UDPE, one action at a time: the register map and its accesses,
the start of a command, the `QRAM` window, host memory (spec/20_memory.md R63, R65, R66;
spec/30_encoding.md R91, R95); and the delivery port of the IP layer (spec/60_exceptions.md R283). -/

namespace Sys2Proof.Machine

/-- `NC_BCAST = NC_IP | ~NC_NETMASK`, derived (R30). -/
def State.bcast (s : State) : Word := s.nc.cfg.ip ||| ~~~s.nc.cfg.netmask

/-- `NC_MAC_HI` (R66). -/
def State.macHi (s : State) : Word := (s.nc.mac.m0 ++ s.nc.mac.m1 : BitVec 16).setWidth 32

/-- `NC_MAC_LO` (R66). -/
def State.macLo (s : State) : Word := s.nc.mac.m2 ++ s.nc.mac.m3 ++ s.nc.mac.m4 ++ s.nc.mac.m5

/-- `UT_SRC_IP = BE32(TXT, 26)` (R34). -/
def State.srcIp (s : State) : Word := be32 s.txt 26

/-- `QPTR[i]`: `QHEAD[i]` in 15:0, `QTAIL[i]` in 31:16 (R66; log 17). -/
def Slot.pointers (sl : Slot) : Word := BitVec.ofNat 16 sl.tail ++ BitVec.ofNat 16 sl.head

/-- The port-table part of the map, from offset 0x100 on: 8 bytes per slot (R66). -/
def State.readPortReg (s : State) (o : Nat) : Word :=
  if o / 8 < s.cfg.nPorts then
    if o % 8 = 0 then (s.slot (o / 8)).port.setWidth 32
    else if o % 8 = 4 then (s.slot (o / 8)).pointers
    else 0
  else 0

/-- The single registers from offset 0x040 to 0x0FF (R66). -/
def State.readConfigReg (s : State) (o : Nat) : Word :=
  if o = 0x040 then s.nc.cfg.ip
  else if o = 0x044 then s.nc.cfg.netmask
  else if o = 0x048 then s.nc.cfg.gw
  else if o = 0x04C then s.bcast
  else if o = 0x050 then s.macHi
  else if o = 0x054 then s.macLo
  else if o = 0x058 then s.pend.mask.setWidth 32
  else if o = 0x05C then s.pend.ip
  else if o = 0x060 then s.pend.netmask
  else if o = 0x064 then s.pend.gw
  else if o = 0x070 then s.ut.bcastMask
  else if o = 0x074 then s.ut.onnetMask
  else if o = 0x078 then s.ut.gw
  else if o = 0x07C then s.srcIp
  else if o = 0x080 then s.ipId.setWidth 32
  else 0

/-- The register map (R66); offsets not listed read 0. -/
def State.readReg (s : State) (o : Nat) : Word :=
  if o = 0x000 then s.cmd
  else if o = 0x004 then s.statusWord
  else if o % 4 = 0 ∧ o < 0x028 then (s.arg[(o - 0x008) / 4]?).getD 0
  else if o % 4 = 0 ∧ o < 0x038 then (s.res[(o - 0x028) / 4]?).getD 0
  else if o < 0x100 then s.readConfigReg o
  else s.readPortReg (o - 0x100)

/-- Start the command whose opcode is `w[7:0]`; a reserved opcode executes nothing and reports
`ST_ERR_BAD_OPCODE` (R91, R95). -/
def startCommand (s : State) (w : Word) : Host.Outcome State Fault Refusal :=
  match decodeCommand w with
  | .instr i => exec i (s.setCmd w)
  | .reserved _ => .next ((s.setCmd w).raise .errBadOpcode)

/-- A 32-bit write to `REG`: `CMD` starts a command, `ARG[k]` takes the value, the read-only and the
reserved offsets ignore it (R66; log 13). -/
def writeReg (s : State) (o : Nat) (v : Word) : Host.Outcome State Fault Refusal :=
  if o = 0 then startCommand s v
  else if h : 8 ≤ o ∧ o < 0x28 then .next (s.setArg ⟨(o - 8) / 4, by omega⟩ v)
  else .next s

/-- The host sees a value (log 4). -/
def State.returns (s : State) (v : Word) : State := { s with bus := s.bus ++ [v] }

/-- A read of the `QRAM` window; outside it any value, with no side effect (R63, U8). -/
def readWindow (s : State) (e j : Nat) : State :=
  if s.qramInRange e j then s.returns ((s.qram e j).setWidth 32)
  else (s.returns ((Config.freeByte s.fresh).setWidth 32)).drew 1

/-- One action of the host; an unsupported register access is refused (R65). -/
def hostStep (s : State) (a : HostAction) : Host.Outcome State Fault Refusal :=
  if a.wf then
    match a with
    | .writeReg o _ v => writeReg s o v
    | .readReg o _ => .next (s.returns (s.readReg o))
    | .readQram e j => .next (readWindow s e j)
    | .writeMem addr b => .next (s.setMem (s.hostMem.write addr b))
  else .refused .unsupportedRegisterAccess

/-- A `DISPATCH` in progress: the IP layer's call on the delivery port if it is pending, else the end
of the `DISPATCH` (R283; log 3). -/
def dispatchStep (s : State) (h : Held) : Host.Outcome State Fault Refusal :=
  if h.called then
    match decodeSelector portSelector with
    | .instr i => exec i (s.setHeld (some { h with called := false }))
    | .reserved _ => .next s
  else complete s (dispatchEnd s)

/-- One step: go on with a `DISPATCH` in progress, for host actions wait while `BUSY = 1` (R24);
otherwise the host's next action; with none, nothing happens (R23, R310). -/
def engineStep (s : State) : Host.Outcome State Fault Refusal :=
  match s.held with
  | some h => dispatchStep s h
  | none =>
    match s.host with
    | [] => .next s
    | a :: rest => hostStep (s.setHost rest) a

/-- Frame F3 of spec/95_test_vectors.md: a well-formed empty datagram, the frame a delivery-port
invocation is placed on where none is held (log 18). -/
def sampleFrame : Frame :=
  [ 0x02, 0x00, 0x00, 0x00, 0x00, 0x01, 0x02, 0x00, 0x00, 0x00, 0x00, 0x20, 0x08, 0x00,
    0x45, 0x00, 0x00, 0x1C, 0x12, 0x34, 0x00, 0x00, 0x40, 0x11, 0xE5, 0x2E,
    0xC0, 0xA8, 0x01, 0x14, 0xC0, 0xA8, 0x01, 0x0A,
    0x17, 0x70, 0x13, 0x88, 0x00, 0x08, 0x00, 0x00 ]

/-- The frame held, or the sample. -/
def heldFrame (s : State) : Frame :=
  match s.held with
  | some h => h.frame
  | none => sampleFrame

/-- The state in which the next step is the operation of table word `w`: for a command the host's next
action writes `w` to `CMD` and no `DISPATCH` is in progress; for the delivery port a `DISPATCH` is in
progress with its delivery call pending (log 4, log 18). -/
def placeTableWord (s : State) (w : Nat) : State :=
  if isPortWord w then
    s.setHeld (some { frame := heldFrame s, called := true, delivered := false })
  else (s.setHeld none).setHost (.writeReg 0 4 (BitVec.ofNat 32 w) :: s.host)

end Sys2Proof.Machine
end

