-- ==== Sys2Proof/Machine/Step.lean ====
section
/-! DEFINITION. The step, and the placing of a table word where the next step takes its operation
from. -/

namespace Sys2Proof.Machine

/-- One step of the machine (Machine/HostPort.lean). -/
def step (s : State) : Host.Outcome State Fault Refusal := engineStep s

/-- `s` with the operation of table word `w` as its next step (Machine/HostPort.lean). -/
def State.withFetchWord (s : State) (nbits w : Nat) : State := placeTableWord s (w % 2 ^ nbits)

end Sys2Proof.Machine
end

