-- ==== Sys2Proof/Safety.lean ====
section
/-! DEFINITION. What counts as a good state: the invariants the spec names, over every state and not
only over runs from reset (spec/00_scope.md R10; spec/10_state.md R27, R28, R36 to R41, R43, R44;
spec/40_network_core.md R161; spec/20_memory.md R61); and words of the statements: which fields an
operation may change, the contract that collaborator calls return, agreement of the configuration
copies. -/

namespace Sys2Proof.Machine

/-- The constant bytes of the template hold their value "for ever" (R44). -/
structure ConstantBytes (c : Config) (t : List Byte) : Prop where
  /-- Ethertype IPv4. -/
  ethertype : be16 t 12 = 0x0800
  /-- Version 4, header length 5 words. -/
  version : byteAt t 14 = 0x45
  tos : byteAt t 15 = c.txTos
  flagsFrag : be16 t 20 = c.txFlagsFrag
  ttl : byteAt t 22 = c.txTtl
  /-- Protocol 17, UDP. -/
  protocol : byteAt t 23 = 0x11
  /-- The UDP checksum field, not computed. -/
  udpChecksum : be16 t 40 = 0x0000

/-- A slot of the port table is well formed: pointer widths (R38), `COUNT <= Q_CAP` (R39), storage
of the configured size (R40), and a free slot has an empty queue with both pointers 0 (R41). -/
structure Slot.Ok (c : Config) (sl : Slot) : Prop where
  headWidth : sl.head < 2 * c.qCap
  tailWidth : sl.tail < 2 * c.qCap
  countLe : sl.count c ≤ c.qCap
  ringSize : sl.ring.length = c.qCap
  dataSize : ∀ e ∈ sl.ring, e.data.length = c.qPayloadMax
  freeEmpty : sl.port = 0 → sl.head = 0 ∧ sl.tail = 0

/-- At most one binding per port number at a time (R37). -/
def portsUnique (slots : List Slot) : Prop :=
  slots.Pairwise (fun a b => a.port ≠ 0 → a.port ≠ b.port)

/-- The invariants of the machine, together. -/
structure State.Inv (s : State) : Prop where
  /-- The parameters are a legal configuration (R10, R13). -/
  legal : s.cfg.legal = true
  /-- The mode flags are never both 1 (R27). -/
  modeExclusive : ¬ (s.nc.dhcpActive = true ∧ s.nc.zcActive = true)
  /-- The hostname fits (R28). -/
  hostnameFits : s.nc.hostname.length ≤ s.cfg.hostnameMax
  /-- The two pending mode requests are never both 1 (R161). -/
  pendExclusive : ¬ (s.pend.mask.getLsbD 3 = true ∧ s.pend.mask.getLsbD 4 = true)
  /-- The table has `N_PORTS` slots (R36). -/
  tableSize : s.slots.length = s.cfg.nPorts
  /-- Every slot is well formed (R38 to R41). -/
  slotsOk : ∀ sl ∈ s.slots, sl.Ok s.cfg
  /-- Ports are unique (R37). -/
  unique : portsUnique s.slots
  /-- The template has its size (R43). -/
  templateSize : s.txt.length = 42 + s.cfg.txPayloadMax
  /-- The template's constant bytes (R44). -/
  templateConst : ConstantBytes s.cfg s.txt
  /-- Host memory is in its canonical form (the model's own). -/
  memWf : s.hostMem.wf = true

/-- The copies of the transport and the template agree with the Network Core registers (R74, R141). -/
structure Coherent (s : State) : Prop where
  bcastMask : s.ut.bcastMask = ~~~s.nc.cfg.netmask
  onnetMask : s.ut.onnetMask = s.nc.cfg.ip &&& s.nc.cfg.netmask
  gw : s.ut.gw = s.nc.cfg.gw
  srcIp : be32 s.txt 26 = s.nc.cfg.ip
  srcMac : (s.txt.drop 6).take 6 = macBytes s.nc.mac

/-- The contract of the collaborator ports: every call returns (R288). -/
def State.callsReturn (s : State) : Prop := s.env.stuckAt = none

/-- The same state, in which the call with number `k` of the whole history never returns; `none`: every
call returns (R288; U11). -/
def State.withStuck (s : State) (k : Option Nat) : State :=
  { s with env := { s.env with stuckAt := k } }

/-- The fields no operation but a host write touches: parameters, `CMD`, `ARG`, the host's actions
and what its reads returned. -/
structure SameHostSide (s t : State) : Prop where
  cfg : t.cfg = s.cfg
  cmd : t.cmd = s.cmd
  arg : t.arg = s.arg
  host : t.host = s.host
  bus : t.bus = s.bus

/-- The fields of the UDP Transport's data path: the port table with its queues, `IP_ID` and the
template. -/
structure SameTransport (s t : State) : Prop where
  slots : t.slots = s.slots
  ipId : t.ipId = s.ipId
  txt : t.txt = s.txt

/-- The fields of the Network Core, its pending changes and the transport's copies. -/
structure SameConfig (s t : State) : Prop where
  nc : t.nc = s.nc
  pend : t.pend = s.pend
  ut : t.ut = s.ut

/-- The history and the environment: no collaborator call was made, no label recorded, no answer
used, no frame taken or released. -/
structure SameOutside (s t : State) : Prop where
  env : t.env = s.env
  calls : t.calls = s.calls
  labels : t.labels = s.labels
  held : t.held = s.held

/-- Every byte of host memory reads as before. -/
def SameMemory (s t : State) : Prop := ∀ a : Word, t.hostMem.read a = s.hostMem.read a

/-- `RES[k]` is as before for every `k` but those listed. -/
def SameResBut (ks : List (Fin 4)) (s t : State) : Prop :=
  ∀ k : Fin 4, k ∉ ks → t.res[k.val] = s.res[k.val]

/-- Every byte of the template is as before but those at the offsets named. -/
def TemplateKeptBut (changed : Nat → Prop) (s t : State) : Prop :=
  t.txt.length = s.txt.length ∧ ∀ o, ¬ changed o → byteAt t.txt o = byteAt s.txt o

/-- The configuration bytes of the template: source MAC and source address (R44). -/
def ConfigOffset (o : Nat) : Prop := (6 ≤ o ∧ o < 12) ∨ (26 ≤ o ∧ o < 30)

/-- What R154 assumes of the port table when a collaborator ran: every port and pointer as before, and
every slot that was bound unchanged with its entries. -/
def BoundSlotsKept (s t : State) : Prop :=
  t.slots.length = s.slots.length ∧
    ∀ i, (t.slot i).port = (s.slot i).port ∧ (t.slot i).head = (s.slot i).head ∧
      (t.slot i).tail = (s.slot i).tail ∧ ((s.slot i).port ≠ 0 → t.slot i = s.slot i)

/-- The frames a collaborator sent while it ran, as the transmit trace has them (R154). -/
def touchTrace (u : Touch) : List Call := u.sent.map .fioTransmit

/-! ### `NEGOTIATE` in words of its two answers (R143)

`a` is the answer of `DHCP.acquire`, `z` the answer `ZC.negotiate` gives if it is asked. -/

/-- The configuration that results: the lease, else the link-local one, else the one held. -/
def negotiatedConfig (held : IpConfig) (a z : Option IpConfig) : IpConfig :=
  match a, z with
  | some c, _ => c
  | none, some c => c
  | none, none => held

/-- Whether `NC_ZC_ACTIVE` is 1 afterwards. -/
def negotiatedZc (a z : Option IpConfig) : Bool := a.isNone && z.isSome

/-- `IP_ID` afterwards: as the collaborators asked leave it (R154). -/
def negotiatedIpId (v : Half) (a z : Option IpConfig × Touch) : Half :=
  match a.1 with
  | some _ => a.2.ipId.getD v
  | none => z.2.ipId.getD (a.2.ipId.getD v)

/-- The calls in order, each followed by the frames the collaborator sent meanwhile. -/
def negotiationCalls (mac : Mac) (hostname : List Byte) (held : IpConfig)
    (a z : Option IpConfig × Touch) : List Call :=
  match a.1 with
  | some _ => .dhcpAcquire mac hostname :: touchTrace a.2
  | none => .dhcpAcquire mac hostname :: touchTrace a.2 ++ .zcNegotiate held :: touchTrace z.2

/-- The two calls of `REINIT` (R142). -/
def reinitCalls (mac : Mac) (cfg : IpConfig) : List Call := [.arReinit mac cfg, .iplReinit mac cfg]

/-! ### The queues as sequences of datagrams (R39, R220) -/

/-- A queued datagram as a receive delivers it: the stored payload bytes, the sender, and the "true
received length" (R40). -/
structure Datagram where
  payload : List Byte
  srcIp : Word
  srcPort : Half
  len : Half
  deriving DecidableEq, Repr

/-- The datagram of an entry: "only the first `min(LEN, Q_PAYLOAD_MAX)` bytes of `DATA` belong to the
entry" (R40). -/
def Entry.datagram (c : Config) (e : Entry) : Datagram where
  payload := e.data.take (min e.len.toNat c.qPayloadMax)
  srcIp := e.srcIp
  srcPort := e.srcPort
  len := e.len

/-- The datagram of a frame, as `UDP_DELIVER` records it (R203, R207, R208). -/
def datagramOf (c : Config) (f : Frame) : Datagram where
  payload := payloadOf c f
  srcIp := srcIpOf f
  srcPort := sportOf f
  len := ulenOf f

/-- The unread datagrams of a slot, oldest first (R39). -/
def Slot.datagrams (c : Config) (sl : Slot) : List Datagram := (sl.unread c).map (Entry.datagram c)

/-- Invoke `UDP_DELIVER` on each of a list of frames in turn, each held by a `DISPATCH` of its own. -/
def deliverAll : State → List Frame → Option State
  | s, [] => some s
  | s, f :: fs =>
    match exec .udpDeliver (s.setHeld (some { frame := f, called := false, delivered := false })) with
    | .next t => deliverAll t fs
    | .fault _ => none
    | .refused _ => none

/-- The state `n` steps on, if every one of them answers a next state. -/
def afterSteps : Nat → State → Option State
  | 0, s => some s
  | n + 1, s =>
    match step s with
    | .next t => afterSteps n t
    | .fault _ => none
    | .refused _ => none

/-! ### `SEND` in words of its operands (R231) -/

/-- The broadcast test of stage 4 (R237). -/
def BroadcastDst (s : State) : Prop :=
  s.x 3 = 0xFFFFFFFF ∨ s.x 3 &&& s.ut.bcastMask = s.ut.bcastMask

/-- The multicast test of stage 4, evaluated after the broadcast test (R236, R238). -/
def MulticastDst (s : State) : Prop := ¬ BroadcastDst s ∧ (s.x 3).extractLsb' 28 4 = 0b1110#4

/-- The resolution target of a unicast destination (R240 to R242). -/
def unicastTarget (s : State) : Word :=
  if s.x 3 &&& s.ut.onnetMask ≠ s.ut.onnetMask then s.ut.gw else s.x 3

/-- What stage 4 requires of the destination MAC, and the lookups it makes (R236 to R243). -/
structure Addressed (s : State) (dmac : Mac) (lookups : List Call) : Prop where
  broadcast : BroadcastDst s → dmac = ⟨0xFF, 0xFF, 0xFF, 0xFF, 0xFF, 0xFF⟩ ∧ lookups = []
  multicast : MulticastDst s →
    dmac = ⟨0x01, 0x00, 0x5E, (s.x 3).extractLsb' 16 8 &&& 0x7F, (s.x 3).extractLsb' 8 8,
      (s.x 3).extractLsb' 0 8⟩ ∧ lookups = []
  unicast : ¬ BroadcastDst s → ¬ MulticastDst s →
    arpAnswer s = some dmac ∧ lookups = [.arLookup (unicastTarget s)]

/-- The handle operand of a `SEND` designates a bound slot (R232). -/
def BoundHandle (s : State) : Prop :=
  (s.x 0).toNat < s.cfg.nPorts ∧ (s.slot (s.x 0).toNat).port ≠ 0

/-- The template bytes a `SEND` with `n` payload bytes rewrites (R44, R244). -/
def SendOffset (n o : Nat) : Prop :=
  o < 6 ∨ (16 ≤ o ∧ o < 20) ∨ (24 ≤ o ∧ o < 26) ∨ (30 ≤ o ∧ o < 40) ∨ (42 ≤ o ∧ o < 42 + n)

/-- The headers and payload of a frame a `SEND` transmits, field by field (R231, R245 to R250): `n`
payload bytes, destination MAC `dmac`, handle `h`. -/
structure FrameFields (s : State) (h n : Nat) (dmac : Mac) (f : Frame) : Prop where
  length : f.length = 42 + n
  dmac : f.take 6 = macBytes dmac
  /-- The source MAC as last propagated. -/
  smac : (f.drop 6).take 6 = (s.txt.drop 6).take 6
  ethertype : be16 f 12 = 0x0800
  version : byteAt f 14 = 0x45
  tos : byteAt f 15 = s.cfg.txTos
  totalLength : (be16 f 16).toNat = 28 + n
  identification : be16 f 18 = s.ipId
  flagsFrag : be16 f 20 = s.cfg.txFlagsFrag
  ttl : byteAt f 22 = s.cfg.txTtl
  protocol : byteAt f 23 = 17
  /-- The complement of the folded sum of the other nine header halfwords (R247). -/
  headerChecksum : (be16 f 24).toNat = 0xFFFF - foldCarry 16 (halfSum f 14 5 + halfSum f 26 4)
  srcIp : be32 f 26 = s.srcIp
  dstIp : be32 f 30 = s.x 3
  sport : be16 f 34 = (s.slot h).port
  dport : be16 f 36 = (s.x 4).extractLsb' 0 16
  udpLength : (be16 f 38).toNat = 8 + n
  udpChecksum : be16 f 40 = 0x0000
  payload : ∀ j, j < n → byteAt f (42 + j) = s.hostMem.read (s.x 1 + BitVec.ofNat 32 j)

end Sys2Proof.Machine
end

