-- ==== Sys2Proof/Certificates/Slice0/Obligations.lean ====
section
/-! DEFINITION. The statements for the provers, from the numbered rules of spec/. Each holds for every
configuration of the parameters, not only for REFCFG (spec/93_implementation_defined.md U10). Opcode
and status numbers, register places and reset values are the spec's own decisions (spec/92 D1, D2, D3,
D27, D28), which its rules fix. -/

open Sys2Proof Sys2Proof.Machine

/-! ### Reset, configuration, invariants -/

/-- R50, every row of the table, and what it says the values are chosen for: the invariants of R27,
R37, R39, R41 and agreement of the derived registers. Reset makes no collaborator call and holds no
frame (R310). -/
def Obligations.ResetMatchesTable : Prop :=
  ∀ c : Config,
    let s := State.resetOf c
    s.cfg = c ∧ s.cmd = 0 ∧ (∀ k, s.x k = 0) ∧ (∀ k : Fin 4, s.res[k.val] = 0) ∧ s.statusWord = 0 ∧
      s.nc.mac = ⟨0, 0, 0, 0, 0, 0⟩ ∧ s.nc.cfg = ⟨0, 0, 0⟩ ∧ s.nc.dhcpActive = false ∧
      s.nc.zcActive = false ∧ s.nc.hostname = [] ∧ s.pend = ⟨0, 0, 0, 0⟩ ∧
      s.ut = ⟨0xFFFFFFFF, 0, 0⟩ ∧ s.ipId = c.ipIdReset ∧ s.slots.length = c.nPorts ∧
      (∀ i, (s.slot i).port = 0 ∧ (s.slot i).head = 0 ∧ (s.slot i).tail = 0 ∧
        (s.slot i).count c = 0 ∧ (s.slot i).ring.length = c.qCap ∧
        ∀ pos, ((s.slot i).entry c pos).srcIp = 0 ∧ ((s.slot i).entry c pos).srcPort = 0 ∧
          ((s.slot i).entry c pos).len = 0 ∧
          ((s.slot i).entry c pos).data.length = c.qPayloadMax ∧
          ∀ j, byteAt ((s.slot i).entry c pos).data j = 0) ∧
      s.txt.length = 42 + c.txPayloadMax ∧ ConstantBytes c s.txt ∧
      (∀ o, (o < 12 ∨ (16 ≤ o ∧ o < 20) ∨ (24 ≤ o ∧ o < 40) ∨ 42 ≤ o) → byteAt s.txt o = 0) ∧
      portsUnique s.slots ∧ Coherent s ∧ s.calls = [] ∧ s.held = none

/-- The reset state of every legal configuration meets the invariants; `State.reset`, which takes REFCFG
(the model's choice, log 1), is one of them. -/
def Obligations.ResetMeetsInvariants : Prop :=
  (∀ c : Config, c.legal = true → (State.resetOf c).Inv) ∧ State.reset.Inv

/-- From every state that meets the invariants, whether or not a run reaches it, a step leads to one
that meets them: `R27`, `R28`, `R36` to `R41`, `R43`, `R44`, `R161`, and the canonical form of host
memory (the model's own). -/
def Obligations.EveryStepKeepsInvariants : Prop :=
  ∀ s t : State, s.Inv → step s = .next t → t.Inv

/-- R42: no step creates, destroys or resizes a slot, a queue or the template, or changes a parameter;
`SHUTDOWN` does not touch the transport's registers, the port table with its queues, or the template. -/
def Obligations.NothingIsCreatedOrResized : Prop :=
  (∀ s t : State, step s = .next t →
    t.cfg = s.cfg ∧ t.slots.length = s.slots.length ∧ t.txt.length = s.txt.length ∧
      ∀ i, (t.slot i).ring.length = (s.slot i).ring.length ∧
        ∀ pos, ((t.slot i).entry t.cfg pos).data.length =
          ((s.slot i).entry s.cfg pos).data.length) ∧
  ∀ s t : State, exec .shutdown s = .next t → t.ut = s.ut ∧ SameTransport s t

/-- R13: a capacity that is no power of two is rejected when the configuration is built, and building
never changes a value. -/
def Obligations.BadCapacityIsRejected : Prop :=
  (∀ c : Config, (∀ k, c.qCap ≠ 2 ^ k) → c.build = none) ∧
    ∀ c d : Config, c.build = some d → d = c

/-! ### Decoding, the register interface, a step -/

/-- Bits 7:0 of a word written to `CMD` alone decide the operation; no such word is `UDP_DELIVER`; and
the reserved opcodes are the values R95 lists. -/
def Obligations.CommandWordDecodesByLowByte : Prop :=
  (∀ (w : Word) (i : Instr), decodeCommand w = .instr i ↔
    i ≠ .udpDeliver ∧ w.extractLsb' 0 8 = (encode i).extractLsb' 0 8) ∧
  ∀ (w : Word) (op : Byte), decodeCommand w = .reserved op ↔
    op = w.extractLsb' 0 8 ∧ (op = 0x00 ∨ op = 0x0E ∨ op = 0x0F ∨ 0x16 ≤ op.toNat)

/-- The register writes of a command line (R120), for every operand value of each of the nineteen
commands: after its `ARG` writes the operand registers assemble to exactly that command (R93, R94),
nothing but `ARG` has changed, and the write of `CMD` runs it. And every operation's selector decodes
to it. -/
def Obligations.CommandLineLoadsAndRuns : Prop :=
  (∀ (c : HostCommand) (s : State) (rest : List HostAction),
    s.held = none → s.host = c.writes ++ rest →
      ∃ t, afterSteps c.operands.length s = some t ∧
        HostCommand.ofRegs c.instr t.arg = some c ∧
        (∀ k : Fin 8, c.operands.length ≤ k.val → t.x k = s.x k) ∧
        t = { s with arg := t.arg, host := .writeReg 0 4 (encode c.instr) :: rest } ∧
        step t = exec c.instr ((t.setHost rest).setCmd (encode c.instr))) ∧
  ∀ i : Instr, decodeSelector (encode i) = .instr i

/-- Words written out from R92 and from spec/opcode_table.json. -/
def Obligations.SampleWordsDecode : Prop :=
  decodeTableWord 8 0x01 = some .init ∧ decodeTableWord 8 0x02 = some .shutdown ∧
    decodeTableWord 8 0x07 = some .dispatch ∧ decodeTableWord 8 0x0D = some .apply ∧
    decodeTableWord 8 0x10 = some .setIpConfig ∧ decodeTableWord 8 0x11 = some .bind ∧
    decodeTableWord 8 0x13 = some .recv ∧ decodeTableWord 8 0x15 = some .send ∧
    decodeTableWord 8 0x16 = none ∧ decodeTableWord 16 0x100 = some .udpDeliver ∧
    decodeCommand 0xABCDEF12 = .instr .unbind ∧ decodeCommand 0x00000100 = .reserved 0x00

/-- A step on a host write of `CMD` is `exec` of the decoded operation, with the written word in `CMD`
and the action taken from the host's list (R91). That `CMD` keeps the whole word, with the ignored bits
31:8, is the model's reading of R23 (DEDUCED, log 14); the list of actions is the model's (log 4). -/
def Obligations.CommandWriteRunsDecodedInstruction : Prop :=
  ∀ (s : State) (w : Word) (i : Instr) (rest : List HostAction),
    s.held = none → s.host = .writeReg 0 4 w :: rest → decodeCommand w = .instr i →
      step s = exec i ((s.setHost rest).setCmd w)

/-- A reserved opcode executes nothing: the code is `ST_ERR_BAD_OPCODE`, and everything but `CMD` is as
before (R95). No word written to `CMD` starts `UDP_DELIVER` (R98). That `CMD` keeps the whole written word,
with the ignored bits 31:8, is the model's reading of R23 (DEDUCED, log 14); the list of actions is the
model's (log 4). -/
def Obligations.ReservedOpcodeIsReported : Prop :=
  (∀ (s : State) (w : Word) (rest : List HostAction),
    s.held = none → s.host = .writeReg 0 4 w :: rest →
    (w.extractLsb' 0 8 = 0x00 ∨ w.extractLsb' 0 8 = 0x0E ∨ w.extractLsb' 0 8 = 0x0F ∨
      0x16 ≤ (w.extractLsb' 0 8).toNat) →
      step s = .next { s with cmd := w, status := .errBadOpcode, host := rest }) ∧
  ∀ w : Word, decodeCommand w ≠ .instr .udpDeliver

/-- A pending invocation on the delivery port runs `UDP_DELIVER` on the held frame, whatever the host's
list holds (R98, R283 (a)). That it can stand alone between two steps is the model's form of a
`DISPATCH` in progress (log 3). -/
def Obligations.DeliveryPortStepRunsUdpDeliver : Prop :=
  ∀ (s : State) (h : Held), s.held = some h → h.called = true →
    step s = exec .udpDeliver (s.setHeld (some { h with called := false }))

/-- R24: while `BUSY = 1` no host action is taken: `CMD`, `ARG`, the host's list and what its reads
returned are as before. Which steps a busy machine takes is the model's (log 3). -/
def Obligations.BusyHoldsHostOff : Prop :=
  ∀ s t : State, s.busy = true → step s = .next t → SameHostSide s t

/-- A `DISPATCH` in progress with no delivery call pending ends as R156 says: the frame is released,
the timer work runs, `ST_OK`, not busy. That this is a step of its own is the model's (log 3). -/
def Obligations.SuspendedDispatchEnds : Prop :=
  ∀ (s : State) (h : Held), s.held = some h → h.called = false → s.callsReturn →
    ∃ t, step s = .next t ∧ t.held = none ∧ t.busy = false ∧ t.status = .ok ∧
      t.calls = s.calls ++ .fioFree :: .tmrRun :: touchTrace (timerTouch s) ∧
      t.labels = s.labels ∧ SameHostSide s t ∧ SameConfig s t ∧ SameMemory s t ∧
      SameResBut [] s t ∧ BoundSlotsKept s t ∧ t.ipId = (timerTouch s).ipId.getD s.ipId ∧
      TemplateKeptBut (fun o => perSendOffset o = true) s t

/-- The register map of R66, reads and writes: each listed offset reads its register, all others read
0; a read changes nothing but what the host has seen; a write reaches `ARG[k]` at its offset, and at
every offset but `CMD` and `ARG` it is ignored. (A write of `CMD` starts the command:
`CommandWriteRunsDecodedInstruction`.) -/
def Obligations.RegisterMap : Prop :=
  (∀ s : State,
    s.readReg 0x000 = s.cmd ∧ s.readReg 0x004 = s.statusWord ∧
      (∀ k : Fin 8, s.readReg (0x008 + 4 * k.val) = s.x k) ∧
      (∀ k : Fin 4, s.readReg (0x028 + 4 * k.val) = s.res[k.val]) ∧
      s.readReg 0x040 = s.nc.cfg.ip ∧ s.readReg 0x044 = s.nc.cfg.netmask ∧
      s.readReg 0x048 = s.nc.cfg.gw ∧ s.readReg 0x04C = s.nc.cfg.ip ||| ~~~s.nc.cfg.netmask ∧
      s.readReg 0x050 = 0#16 ++ s.nc.mac.m0 ++ s.nc.mac.m1 ∧
      s.readReg 0x054 = s.nc.mac.m2 ++ s.nc.mac.m3 ++ s.nc.mac.m4 ++ s.nc.mac.m5 ∧
      s.readReg 0x058 = 0#27 ++ s.pend.mask ∧ s.readReg 0x05C = s.pend.ip ∧
      s.readReg 0x060 = s.pend.netmask ∧ s.readReg 0x064 = s.pend.gw ∧
      s.readReg 0x070 = s.ut.bcastMask ∧ s.readReg 0x074 = s.ut.onnetMask ∧
      s.readReg 0x078 = s.ut.gw ∧ s.readReg 0x07C = be32 s.txt 26 ∧
      s.readReg 0x080 = 0#16 ++ s.ipId ∧
      (∀ i, i < s.cfg.nPorts →
        s.readReg (0x100 + 8 * i) = 0#16 ++ (s.slot i).port ∧
          ((s.slot i).head < 2 ^ 16 → (s.slot i).tail < 2 ^ 16 →
            (s.readReg (0x104 + 8 * i)).toNat = (s.slot i).head + 2 ^ 16 * (s.slot i).tail)) ∧
      ∀ o, ((0x038 ≤ o ∧ o < 0x040) ∨ (0x068 ≤ o ∧ o < 0x070) ∨ (0x084 ≤ o ∧ o < 0x100) ∨
        0x100 + 8 * s.cfg.nPorts ≤ o) → s.readReg o = 0) ∧
  (∀ (s : State) (o : Nat) (rest : List HostAction),
    s.held = none → o % 4 = 0 → s.host = .readReg o 4 :: rest →
      step s = .next { s with host := rest, bus := s.bus ++ [s.readReg o] }) ∧
  ∀ (s : State) (o : Nat) (v : Word) (rest : List HostAction),
    s.held = none → o % 4 = 0 → s.host = .writeReg o 4 v :: rest →
      (∀ k : Fin 8, o = 0x008 + 4 * k.val →
        step s = .next { s with host := rest, arg := s.arg.set k.val v k.isLt }) ∧
      (0x028 ≤ o ∨ o = 0x004 → step s = .next { s with host := rest })

/-- The fields of `STATUS` (R24) and the numbers of the codes (R96). -/
def Obligations.StatusFields : Prop :=
  (∀ s : State,
    s.statusWord.extractLsb' 0 8 = s.status.code ∧ s.statusWord.getLsbD 8 = s.busy ∧
      s.statusWord.getLsbD 9 = s.nc.dhcpActive ∧ s.statusWord.getLsbD 10 = s.nc.zcActive ∧
      s.statusWord.extractLsb' 11 21 = 0) ∧
  [Status.ok, .empty, .errTableFull, .errNotBound, .errUnbound, .errArp, .errBadPort, .errBadHandle,
    .errBadOpcode].map Status.code = [0x00, 0x01, 0x02, 0x03, 0x04, 0x05, 0x06, 0x07, 0x08]

/-- R65: "narrower or unaligned host accesses to `REG` are not supported and a model refuses them". -/
def Obligations.UnsupportedAccessIsRefused : Prop :=
  ∀ (s : State) (o width : Nat) (v : Word) (rest : List HostAction),
    s.held = none → (s.host = .writeReg o width v :: rest ∨ s.host = .readReg o width :: rest) →
    (width ≠ 4 ∨ o % 4 ≠ 0) → step s = .refused .unsupportedRegisterAccess

/-- The `QRAM` window (R63): the pair `(i * Q_CAP + pos, j)` reads `QENT[i][pos].DATA[j]`; a read, also
one outside the window, whose value is free (U8), changes nothing but what the host has seen. -/
def Obligations.QramWindowRead : Prop :=
  (∀ (s : State) (i pos j : Nat) (rest : List HostAction),
    s.held = none → s.host = .readQram (i * s.cfg.qCap + pos) j :: rest →
    i < s.cfg.nPorts → pos < s.cfg.qCap → j < s.cfg.qPayloadMax →
      step s = .next { s with
        host := rest
        bus := s.bus ++ [0#24 ++ byteAt ((s.slot i).entry s.cfg pos).data j] }) ∧
  ∀ (s : State) (e j : Nat) (rest : List HostAction),
    s.held = none → s.host = .readQram e j :: rest →
      ∃ (v : Byte) (n : Nat),
        step s = .next { s with host := rest, bus := s.bus ++ [0#24 ++ v], fresh := n }

/-- The host writes its own memory (R61, R296): the byte reads as written, every other byte as
before. -/
def Obligations.HostMemoryWrite : Prop :=
  ∀ (s : State) (addr : Word) (b : Byte) (rest : List HostAction),
    s.Inv → s.held = none → s.host = .writeMem addr b :: rest →
      ∃ m, step s = .next { s with host := rest, hostMem := m } ∧ m.read addr = b ∧
        (∀ a, a ≠ addr → m.read a = s.hostMem.read a) ∧ m.wf = true

/-! ### Network Core: `INIT`, `SHUTDOWN`, the setters -/

/-- `INIT` with `use_dhcp = 0` (R144, R145 (a)). -/
def Obligations.InitStatic : Prop :=
  ∀ s : State, s.Inv → s.callsReturn → (s.x 5).getLsbD 0 = false →
    ∃ t, exec .init s = .next t ∧
      t.nc = { mac := s.xMac, cfg := ⟨s.x 2, s.x 3, s.x 4⟩, dhcpActive := false, zcActive := false,
               hostname := memRead s.hostMem (s.x 6) (min (s.x 7).toNat s.cfg.hostnameMax) } ∧
      t.res[0] = s.x 2 ∧ t.res[1] = s.x 3 ∧ t.res[2] = s.x 4 ∧ t.res[3] = 0 ∧ t.status = .ok ∧
      t.calls = s.calls ++ (reinitCalls t.nc.mac t.nc.cfg ++ reinitCalls t.nc.mac t.nc.cfg) ∧
      Coherent t ∧ TemplateKeptBut ConfigOffset s t ∧
      t.pend = s.pend ∧ t.slots = s.slots ∧ t.ipId = s.ipId ∧ t.env = s.env ∧
      t.labels = s.labels ∧ t.held = s.held ∧ SameHostSide s t ∧ SameMemory s t

/-- `INIT` with `use_dhcp = 1` (R144, R143): `a` is the answer of `DHCP.acquire`, `z` the one of
`ZC.negotiate` if it is asked. What they did to UDPE meanwhile is bounded by R154, in the model's form
(log 6). -/
def Obligations.InitNegotiated : Prop :=
  ∀ s : State, s.Inv → s.callsReturn → (s.x 5).getLsbD 0 = true →
    let requested : IpConfig := ⟨s.x 2, s.x 3, s.x 4⟩
    let hostname := memRead s.hostMem (s.x 6) (min (s.x 7).toNat s.cfg.hostnameMax)
    let a := dhcpAnswer s
    let z := zcAnswer (s.drew 1)
    let final := negotiatedConfig requested a.1 z.1
    ∃ t, exec .init s = .next t ∧
      t.nc = { mac := s.xMac, cfg := final, dhcpActive := a.1.isSome,
               zcActive := negotiatedZc a.1 z.1, hostname := hostname } ∧
      t.res[0] = final.ip ∧ t.res[1] = final.netmask ∧ t.res[2] = final.gw ∧
      t.res[3] = boolWord (negotiatedZc a.1 z.1) ∧ t.status = .ok ∧
      t.calls = s.calls ++ (reinitCalls s.xMac requested ++
        (negotiationCalls s.xMac hostname requested a z ++ reinitCalls s.xMac final)) ∧
      Coherent t ∧ t.ipId = negotiatedIpId s.ipId a z ∧ BoundSlotsKept s t ∧
      TemplateKeptBut (fun o => ConfigOffset o ∨ perSendOffset o = true) s t ∧
      t.pend = s.pend ∧ t.labels = s.labels ∧ t.held = s.held ∧ SameHostSide s t ∧ SameMemory s t

/-- `SHUTDOWN` (R146): its calls and `ST_OK`, and nothing else. -/
def Obligations.ShutdownReleasesLease : Prop :=
  ∀ s : State, s.callsReturn →
    exec .shutdown s = .next { s with
      status := .ok
      calls := s.calls ++ .iplShutdown :: (if s.nc.dhcpActive then [.dhcpRelease] else []) }

/-- `SET_IP` (R148): the new address, the old netmask and gateway, then `REINIT`. -/
def Obligations.SetIpReinitialises : Prop :=
  ∀ s : State, s.Inv → s.callsReturn →
    ∃ t, exec .setIp s = .next t ∧
      t.nc = { s.nc with cfg := ⟨s.x 0, s.nc.cfg.netmask, s.nc.cfg.gw⟩ } ∧ t.status = .ok ∧
      t.ut = ⟨~~~s.nc.cfg.netmask, s.x 0 &&& s.nc.cfg.netmask, s.nc.cfg.gw⟩ ∧
      Coherent t ∧ TemplateKeptBut ConfigOffset s t ∧
      t.calls = s.calls ++ reinitCalls s.nc.mac t.nc.cfg ∧
      t.pend = s.pend ∧ t.slots = s.slots ∧ t.ipId = s.ipId ∧ t.env = s.env ∧
      t.labels = s.labels ∧ t.held = s.held ∧ SameHostSide s t ∧ SameMemory s t ∧
      SameResBut [] s t

/-- `SET_GATEWAY` (R149): the new gateway, the old address and netmask, then `REINIT`. -/
def Obligations.SetGatewayReinitialises : Prop :=
  ∀ s : State, s.Inv → s.callsReturn →
    ∃ t, exec .setGateway s = .next t ∧
      t.nc = { s.nc with cfg := ⟨s.nc.cfg.ip, s.nc.cfg.netmask, s.x 0⟩ } ∧ t.status = .ok ∧
      t.ut = ⟨~~~s.nc.cfg.netmask, s.nc.cfg.ip &&& s.nc.cfg.netmask, s.x 0⟩ ∧
      Coherent t ∧ TemplateKeptBut ConfigOffset s t ∧
      t.calls = s.calls ++ reinitCalls s.nc.mac t.nc.cfg ∧
      t.pend = s.pend ∧ t.slots = s.slots ∧ t.ipId = s.ipId ∧ t.env = s.env ∧
      t.labels = s.labels ∧ t.held = s.held ∧ SameHostSide s t ∧ SameMemory s t ∧
      SameResBut [] s t

/-- `SET_DHCP` (R150, R143, R151): the result says whether DHCP succeeded, not whether zeroconf did;
when both fail the configuration is what it was and `REINIT` still runs. -/
def Obligations.SetDhcpNegotiates : Prop :=
  ∀ s : State, s.Inv → s.callsReturn →
    let a := dhcpAnswer s
    let z := zcAnswer (s.drew 1)
    let final := negotiatedConfig s.nc.cfg a.1 z.1
    ∃ t, exec .setDhcp s = .next t ∧
      t.nc = { s.nc with cfg := final, dhcpActive := a.1.isSome,
                         zcActive := negotiatedZc a.1 z.1 } ∧
      t.res[0] = boolWord a.1.isSome ∧ SameResBut [0] s t ∧ t.status = .ok ∧
      t.calls = s.calls ++ (negotiationCalls s.nc.mac s.nc.hostname s.nc.cfg a z ++
        reinitCalls s.nc.mac final) ∧
      Coherent t ∧ t.ipId = negotiatedIpId s.ipId a z ∧ BoundSlotsKept s t ∧
      TemplateKeptBut (fun o => ConfigOffset o ∨ perSendOffset o = true) s t ∧
      t.pend = s.pend ∧ t.labels = s.labels ∧ t.held = s.held ∧ SameHostSide s t ∧ SameMemory s t

/-- `SET_ZEROCONF` (R152, R153): on success the link-local configuration, DHCP inactive and `REINIT`,
with no release of a lease; on failure nothing changes but `RES[0]`, the status and what the
collaborator did meanwhile (R154, log 6), and no layer is re-initialised. -/
def Obligations.SetZeroconfNegotiates : Prop :=
  ∀ s : State, s.Inv → s.callsReturn →
    let z := zcAnswer s
    ∃ t, exec .setZeroconf s = .next t ∧ t.status = .ok ∧ SameResBut [0] s t ∧
      (∀ c, z.1 = some c →
        t.nc = { s.nc with cfg := c, dhcpActive := false, zcActive := true } ∧ t.res[0] = 1 ∧
          t.calls = s.calls ++ (.zcNegotiate s.nc.cfg :: touchTrace z.2 ++
            reinitCalls s.nc.mac c) ∧ Coherent t ∧
          TemplateKeptBut (fun o => ConfigOffset o ∨ perSendOffset o = true) s t) ∧
      (z.1 = none →
        t.nc = s.nc ∧ t.ut = s.ut ∧ t.res[0] = 0 ∧
          t.calls = s.calls ++ .zcNegotiate s.nc.cfg :: touchTrace z.2 ∧
          TemplateKeptBut (fun o => perSendOffset o = true) s t) ∧
      t.ipId = z.2.ipId.getD s.ipId ∧ BoundSlotsKept s t ∧
      t.pend = s.pend ∧ t.labels = s.labels ∧ t.held = s.held ∧ SameHostSide s t ∧ SameMemory s t

/-! ### Network Core: queued changes -/

/-- `QUEUE_IP`, `QUEUE_NETMASK`, `QUEUE_GATEWAY` (R160): the staged value and its bit, the other bits as
before, and no other state changes. -/
def Obligations.QueueValueStages : Prop :=
  ∀ s : State,
    exec .queueIp s = .next { s with
      status := .ok, pend := { s.pend with ip := s.x 0, mask := s.pend.mask ||| 0b00001#5 } } ∧
    exec .queueNetmask s = .next { s with
      status := .ok
      pend := { s.pend with netmask := s.x 0, mask := s.pend.mask ||| 0b00010#5 } } ∧
    exec .queueGateway s = .next { s with
      status := .ok, pend := { s.pend with gw := s.x 0, mask := s.pend.mask ||| 0b00100#5 } }

/-- `QUEUE_DHCP`, `QUEUE_ZEROCONF` (R161): the later request wins; bits 2:0 and the staged values are as
before, and no other state changes. -/
def Obligations.QueueModeRequestsExclude : Prop :=
  ∀ s : State,
    (∃ m : BitVec 5, exec .queueDhcp s = .next { s with
        status := .ok, pend := { s.pend with mask := m } } ∧
      m.getLsbD 3 = true ∧ m.getLsbD 4 = false ∧
      m.extractLsb' 0 3 = s.pend.mask.extractLsb' 0 3) ∧
    ∃ m : BitVec 5, exec .queueZeroconf s = .next { s with
        status := .ok, pend := { s.pend with mask := m } } ∧
      m.getLsbD 4 = true ∧ m.getLsbD 3 = false ∧
      m.extractLsb' 0 3 = s.pend.mask.extractLsb' 0 3

/-- `APPLY` with no mode request (R162): all staged values before the single `REINIT`; with nothing
staged it writes `RES[0]` and the status and does nothing else. -/
def Obligations.ApplyStagedValues : Prop :=
  ∀ s : State, s.Inv → s.callsReturn →
    s.pend.mask.getLsbD 3 = false → s.pend.mask.getLsbD 4 = false →
    let m := s.pend.mask
    let c : IpConfig := ⟨if m.getLsbD 0 then s.pend.ip else s.nc.cfg.ip,
      if m.getLsbD 1 then s.pend.netmask else s.nc.cfg.netmask,
      if m.getLsbD 2 then s.pend.gw else s.nc.cfg.gw⟩
    ∃ t, exec .apply s = .next t ∧
      t.nc = { s.nc with cfg := c } ∧ t.pend = { s.pend with mask := 0 } ∧ t.res[0] = 0 ∧
      t.status = .ok ∧
      (m ≠ 0 → t.calls = s.calls ++ reinitCalls s.nc.mac c ∧ Coherent t ∧
        TemplateKeptBut ConfigOffset s t) ∧
      (m = 0 → t.calls = s.calls ∧ t.ut = s.ut ∧ t.txt = s.txt) ∧
      t.slots = s.slots ∧ t.ipId = s.ipId ∧ t.env = s.env ∧ t.labels = s.labels ∧
      t.held = s.held ∧ SameHostSide s t ∧ SameMemory s t ∧ SameResBut [0] s t

/-- `APPLY` of a queued DHCP request (R162, R143): the staged values are written first, so a failed
negotiation leaves them in force. -/
def Obligations.ApplyQueuedDhcp : Prop :=
  ∀ s : State, s.Inv → s.callsReturn → s.pend.mask.getLsbD 3 = true →
    let m := s.pend.mask
    let c : IpConfig := ⟨if m.getLsbD 0 then s.pend.ip else s.nc.cfg.ip,
      if m.getLsbD 1 then s.pend.netmask else s.nc.cfg.netmask,
      if m.getLsbD 2 then s.pend.gw else s.nc.cfg.gw⟩
    let a := dhcpAnswer s
    let z := zcAnswer (s.drew 1)
    let final := negotiatedConfig c a.1 z.1
    ∃ t, exec .apply s = .next t ∧
      t.nc = { s.nc with cfg := final, dhcpActive := a.1.isSome,
                         zcActive := negotiatedZc a.1 z.1 } ∧
      t.pend = { s.pend with mask := 0 } ∧ t.status = .ok ∧ SameResBut [0] s t ∧
      t.res[0] = 0#30 ++ BitVec.ofBool (negotiatedZc a.1 z.1) ++ BitVec.ofBool a.1.isSome ∧
      t.calls = s.calls ++ (negotiationCalls s.nc.mac s.nc.hostname c a z ++
        reinitCalls s.nc.mac final) ∧
      Coherent t ∧ t.ipId = negotiatedIpId s.ipId a z ∧ BoundSlotsKept s t ∧
      TemplateKeptBut (fun o => ConfigOffset o ∨ perSendOffset o = true) s t ∧
      t.labels = s.labels ∧ t.held = s.held ∧ SameHostSide s t ∧ SameMemory s t

/-- `APPLY` of a queued zeroconf request (R162): on failure the staged values stay in force and the
layers are re-initialised only if there were any. -/
def Obligations.ApplyQueuedZeroconf : Prop :=
  ∀ s : State, s.Inv → s.callsReturn →
    s.pend.mask.getLsbD 3 = false → s.pend.mask.getLsbD 4 = true →
    let m := s.pend.mask
    let c : IpConfig := ⟨if m.getLsbD 0 then s.pend.ip else s.nc.cfg.ip,
      if m.getLsbD 1 then s.pend.netmask else s.nc.cfg.netmask,
      if m.getLsbD 2 then s.pend.gw else s.nc.cfg.gw⟩
    let z := zcAnswer s
    ∃ t, exec .apply s = .next t ∧
      t.pend = { s.pend with mask := 0 } ∧ t.status = .ok ∧ SameResBut [0] s t ∧
      t.res[0] = 0#30 ++ BitVec.ofBool t.nc.zcActive ++ 0#1 ∧
      (∀ d, z.1 = some d →
        t.nc = { s.nc with cfg := d, dhcpActive := false, zcActive := true } ∧ Coherent t ∧
          t.calls = s.calls ++ (.zcNegotiate c :: touchTrace z.2 ++ reinitCalls s.nc.mac d)) ∧
      (z.1 = none → t.nc = { s.nc with cfg := c } ∧
        (m.extractLsb' 0 3 ≠ 0 → Coherent t ∧
          t.calls = s.calls ++ (.zcNegotiate c :: touchTrace z.2 ++ reinitCalls s.nc.mac c)) ∧
        (m.extractLsb' 0 3 = 0 → t.ut = s.ut ∧
          t.calls = s.calls ++ .zcNegotiate c :: touchTrace z.2 ∧
          TemplateKeptBut (fun o => perSendOffset o = true) s t)) ∧
      TemplateKeptBut (fun o => ConfigOffset o ∨ perSendOffset o = true) s t ∧
      t.ipId = z.2.ipId.getD s.ipId ∧ BoundSlotsKept s t ∧
      t.labels = s.labels ∧ t.held = s.held ∧ SameHostSide s t ∧ SameMemory s t

/-! ### Network Core: rules over all operations -/

/-- Who writes the Network Core registers: the MAC and the hostname only `INIT` (R25, R28), the
configuration and the mode flags only the commands R26 and R27 name, the pending changes only the
`QUEUE_` commands and `APPLY` (R29). -/
def Obligations.NetworkCoreRegisterWriters : Prop :=
  ∀ (i : Instr) (s t : State), exec i s = .next t →
    (i ≠ .init → t.nc.mac = s.nc.mac ∧ t.nc.hostname = s.nc.hostname) ∧
    (i ∉ [.init, .setIp, .setDhcp, .setZeroconf, .apply] → t.nc.cfg.ip = s.nc.cfg.ip) ∧
    (i ∉ [.init, .setDhcp, .setZeroconf, .apply] → t.nc.cfg.netmask = s.nc.cfg.netmask) ∧
    (i ∉ [.init, .setGateway, .setDhcp, .setZeroconf, .apply] → t.nc.cfg.gw = s.nc.cfg.gw) ∧
    (i ∉ [.init, .setDhcp, .setZeroconf, .apply] →
      t.nc.dhcpActive = s.nc.dhcpActive ∧ t.nc.zcActive = s.nc.zcActive) ∧
    (i ∉ [.queueIp, .queueNetmask, .queueGateway, .queueDhcp, .queueZeroconf, .apply] →
      t.pend = s.pend)

/-- The transitions of the addressing mode, all of them (R147). -/
def Obligations.ModeTransitions : Prop :=
  ∀ (i : Instr) (s t : State), exec i s = .next t →
    let dhcp : Option IpConfig := (dhcpAnswer s).1
    let afterDhcp : Option IpConfig := (zcAnswer (s.drew 1)).1
    let negotiated : Mode :=
      if dhcp.isSome then .dhcp else if afterDhcp.isSome then .zeroconf else .static
    let linkLocal : Mode := if (zcAnswer s).1.isSome then .zeroconf else s.mode
    t.mode =
      match i with
      | .init => if (s.x 5).getLsbD 0 then negotiated else .static
      | .setDhcp => negotiated
      | .setZeroconf => linkLocal
      | .apply =>
        if s.pend.mask.getLsbD 3 then negotiated
        else if s.pend.mask.getLsbD 4 then linkLocal
        else s.mode
      | .shutdown | .setIp | .setGateway | .dispatch | .queueIp | .queueNetmask | .queueGateway
      | .queueDhcp | .queueZeroconf | .setIpConfig | .bind | .unbind | .recv | .recvZc | .send
      | .udpDeliver => s.mode

/-- R74: the transport's copies, once they agree with the Network Core, can be made to disagree by
`SET_IP_CONFIG` alone; every other operation leaves them agreeing. -/
def Obligations.OnlySetIpConfigBreaksCoherence : Prop :=
  ∀ (i : Instr) (s t : State), s.Inv → Coherent s → i ≠ .setIpConfig → exec i s = .next t →
    Coherent t

/-- R140: every Network Core command ends `ST_OK`. For `DISPATCH` the IP layer is taken to keep its
promise (R291 (d)); where it breaks it the step is refused (`BrokenDeliveryPromiseIsRefused`). -/
def Obligations.NetworkCoreCommandsNeverFail : Prop :=
  ∀ (i : Instr) (s : State), s.callsReturn → deliveryContractBroken s = false →
    i ∈ [.init, .shutdown, .setIp, .setGateway, .setDhcp, .setZeroconf, .dispatch, .queueIp,
      .queueNetmask, .queueGateway, .queueDhcp, .queueZeroconf, .apply] →
    ∃ t, exec i s = .next t ∧ t.status = .ok

/-- U11 (spec/93): an operation one of whose calls never returns does not finish; the fault is the
model's form of "stuck" (log 11). The first call of each operation that always makes one, of an `APPLY`
with anything staged, and the lookup and the transmit of a `SEND` are such calls; and no operation and no
step answers a state whose history is past the call. -/
def Obligations.CallThatNeverReturnsIsStuck : Prop :=
  (∀ (i : Instr) (s : State), s.env.stuckAt = some s.calls.length →
    deliveryContractBroken s = false →
    i ∈ [.init, .shutdown, .setIp, .setGateway, .setDhcp, .setZeroconf, .dispatch] →
    exec i s = .fault .collaboratorNeverReturns) ∧
  (∀ s : State, s.env.stuckAt = some s.calls.length → s.pend.mask ≠ 0 →
    exec .apply s = .fault .collaboratorNeverReturns) ∧
  (∀ s : State, s.env.stuckAt = some s.calls.length → BoundHandle s → ¬ BroadcastDst s →
    ¬ MulticastDst s → exec .send s = .fault .collaboratorNeverReturns) ∧
  (∀ (s : State) (dmac : Mac) (lookups : List Call),
    s.env.stuckAt = some (s.calls.length + lookups.length) → BoundHandle s →
    Addressed s dmac lookups → exec .send s = .fault .collaboratorNeverReturns) ∧
  (∀ (i : Instr) (s t : State) (k : Nat), s.env.stuckAt = some k → s.calls.length ≤ k →
    exec i s = .next t → t.env.stuckAt = some k ∧ t.calls.length ≤ k) ∧
  ∀ (s t : State) (k : Nat), s.env.stuckAt = some k → s.calls.length ≤ k → step s = .next t →
    t.env.stuckAt = some k ∧ t.calls.length ≤ k

/-- Any call of an operation, the later ones too (U11): let `t` be where the operation, or the step, would
end if every call returned. It is stuck if `t`'s history holds the call that never returns; otherwise it
ends in `t`. So that call alone stops it, whichever of the calls it is (log 11). -/
def Obligations.OnlyTheStuckCallStopsAnOperation : Prop :=
  (∀ (i : Instr) (s t : State) (k : Nat), s.calls.length ≤ k →
    exec i (s.withStuck none) = .next t →
    (k < t.calls.length → exec i (s.withStuck (some k)) = .fault .collaboratorNeverReturns) ∧
    (t.calls.length ≤ k → exec i (s.withStuck (some k)) = .next (t.withStuck (some k)))) ∧
  ∀ (s t : State) (k : Nat), s.calls.length ≤ k → step (s.withStuck none) = .next t →
    (k < t.calls.length → step (s.withStuck (some k)) = .fault .collaboratorNeverReturns) ∧
    (t.calls.length ≤ k → step (s.withStuck (some k)) = .next (t.withStuck (some k)))

/-! ### UDP Transport: configuration and the port table -/

/-- `SET_IP_CONFIG` (R181). -/
def Obligations.SetIpConfigLoadsTransport : Prop :=
  ∀ s : State, s.Inv →
    ∃ t, exec .setIpConfig s = .next t ∧
      t.ut = ⟨~~~s.x 1, s.x 0 &&& s.x 1, s.x 2⟩ ∧ be32 t.txt 26 = s.x 0 ∧ t.status = .ok ∧
      TemplateKeptBut (fun o => 26 ≤ o ∧ o < 30) s t ∧
      t.nc = s.nc ∧ t.pend = s.pend ∧ t.slots = s.slots ∧ t.ipId = s.ipId ∧
      SameOutside s t ∧ SameHostSide s t ∧ SameMemory s t ∧ SameResBut [] s t

/-- `BIND` (R184) in its four cases, an existing binding before a free slot, and what it leaves alone
(R185, R190). A handle is the index (R97); that one which does not fit `RES[0]` is cut to 32 bits is the
model's reading (DEDUCED, log 17). -/
def Obligations.BindFirstFit : Prop :=
  ∀ (s : State) (p : Half), s.Inv → p = (s.x 0).extractLsb' 0 16 →
    ∃ t, exec .bind s = .next t ∧
      (p = 0 → t.status = .errBadPort ∧ t.res[0] = 0xFFFFFFFF ∧ t.slots = s.slots) ∧
      (∀ i, p ≠ 0 → i < s.cfg.nPorts → (s.slot i).port = p →
        (∀ j, j < i → (s.slot j).port ≠ p) →
        t.status = .ok ∧ t.res[0] = BitVec.ofNat 32 i ∧ t.slots = s.slots) ∧
      (∀ i, p ≠ 0 → (∀ j, j < s.cfg.nPorts → (s.slot j).port ≠ p) →
        i < s.cfg.nPorts → (s.slot i).port = 0 → (∀ j, j < i → (s.slot j).port ≠ 0) →
        t.status = .ok ∧ t.res[0] = BitVec.ofNat 32 i ∧
          t.slots = s.slots.set i { s.slot i with port := p }) ∧
      (p ≠ 0 → (∀ j, j < s.cfg.nPorts → (s.slot j).port ≠ p ∧ (s.slot j).port ≠ 0) →
        t.status = .errTableFull ∧ t.res[0] = 0xFFFFFFFF ∧ t.slots = s.slots) ∧
      SameResBut [0] s t ∧ t.ipId = s.ipId ∧ t.txt = s.txt ∧
      SameConfig s t ∧ SameOutside s t ∧ SameHostSide s t ∧ SameMemory s t

/-- `UNBIND` (R187) in its three cases; the entry storage is not cleared. -/
def Obligations.UnbindFreesSlot : Prop :=
  ∀ (s : State) (p : Half), s.Inv → p = (s.x 0).extractLsb' 0 16 →
    ∃ t, exec .unbind s = .next t ∧
      (p = 0 → t.status = .errBadPort ∧ t.slots = s.slots) ∧
      (p ≠ 0 → (∀ j, j < s.cfg.nPorts → (s.slot j).port ≠ p) →
        t.status = .errNotBound ∧ t.slots = s.slots) ∧
      (∀ i, p ≠ 0 → i < s.cfg.nPorts → (s.slot i).port = p →
        t.status = .ok ∧
          t.slots = s.slots.set i { port := 0, head := 0, tail := 0, ring := (s.slot i).ring }) ∧
      SameResBut [] s t ∧ t.ipId = s.ipId ∧ t.txt = s.txt ∧
      SameConfig s t ∧ SameOutside s t ∧ SameHostSide s t ∧ SameMemory s t

/-- A repeated `BIND` of a bound port returns the same handle, also on a full table, and leaves every
queue in place (R184, R185). -/
def Obligations.BindIsIdempotent : Prop :=
  ∀ s t : State, s.Inv → exec .bind s = .next t → t.status = .ok →
    ∃ u, exec .bind t = .next u ∧ u.status = .ok ∧ u.res[0] = t.res[0] ∧ u.slots = t.slots

/-- "`unbind(port)` followed by `bind(port)` returns a handle whose receive queue is empty" (R189). That a
handle which does not fit `RES[0]` is cut to 32 bits is the model's reading (DEDUCED, log 17). -/
def Obligations.UnbindThenBindGivesEmptyQueue : Prop :=
  ∀ s t : State, s.Inv → exec .unbind s = .next t → t.status = .ok →
    ∃ (u : State) (i : Nat), exec .bind t = .next u ∧ u.status = .ok ∧ i < u.cfg.nPorts ∧
      u.res[0] = BitVec.ofNat 32 i ∧ (u.slot i).port = (s.x 0).extractLsb' 0 16 ∧
      (u.slot i).count u.cfg = 0

/-- Who writes the port table (R36), the queue pointers (R38) and the entries of bound slots (R40);
`DISPATCH` only through its nested `UDP_DELIVER`. Entries of free slots may also change while a
collaborator runs (R154; log 6). -/
def Obligations.PortTableWriters : Prop :=
  ∀ (i : Instr) (s t : State), exec i s = .next t → ∀ j,
    (i ∉ [.bind, .unbind] → (t.slot j).port = (s.slot j).port) ∧
    (i ∉ [.udpDeliver, .dispatch, .unbind] → (t.slot j).head = (s.slot j).head) ∧
    (i ∉ [.udpDeliver, .dispatch, .recv, .recvZc, .unbind] → (t.slot j).tail = (s.slot j).tail) ∧
    (i ∉ [.udpDeliver, .dispatch] → (s.slot j).port ≠ 0 → (t.slot j).ring = (s.slot j).ring)

/-! ### UDP Transport: receive -/

/-- R205: a datagram to a disallowed low port, bound or not, or to a port no slot holds is dropped and
no register, queue or entry is written; the low-port test comes first (R204, R275). -/
def Obligations.UndeliverableDatagramIsDropped : Prop :=
  ∀ (s : State) (h : Held), s.Inv → s.held = some h → h.delivered = false →
    preDeliver h.frame = true →
    let low := (be16 h.frame 36).toNat < 1024 ∧ be16 h.frame 36 ∉ s.cfg.sysPorts
    (low ∨ ∀ j, j < s.cfg.nPorts → (s.slot j).port ≠ be16 h.frame 36) →
    ∃ l, exec .udpDeliver s = .next { s with
        labels := s.labels ++ [l], held := some { h with delivered := true } } ∧
      (low → l = .dropLowPort) ∧ (¬ low → l = .dropNoPort)

/-- `UDP_DELIVER` on an eligible datagram to the port of slot `i` (R202, R203, R207 to R209): every
field of the slot, with the entry storage byte by byte, the label, and what it leaves alone (R211). -/
def Obligations.DatagramIsQueued : Prop :=
  ∀ (s : State) (h : Held) (i : Nat), s.Inv → s.held = some h → h.delivered = false →
    preDeliver h.frame = true →
    (1024 ≤ (be16 h.frame 36).toNat ∨ be16 h.frame 36 ∈ s.cfg.sysPorts) →
    i < s.cfg.nPorts → (s.slot i).port = be16 h.frame 36 →
    let f := h.frame
    let q := s.cfg.qCap
    let old := s.slot i
    let ulen := (be16 f 38).toNat - 8
    let pos := old.head &&& (q - 1)
    ∃ t, exec .udpDeliver s = .next t ∧
      (t.slot i).port = old.port ∧ (t.slot i).head = (old.head + 1) &&& (2 * q - 1) ∧
      (t.slot i).tail =
        (if old.count s.cfg = q then (old.tail + 1) &&& (2 * q - 1) else old.tail) ∧
      ((t.slot i).entry s.cfg pos).srcIp = be32 f 26 ∧
      ((t.slot i).entry s.cfg pos).srcPort = be16 f 34 ∧
      ((t.slot i).entry s.cfg pos).len.toNat = ulen ∧
      (∀ j, byteAt ((t.slot i).entry s.cfg pos).data j =
        if j < min ulen s.cfg.qPayloadMax then byteAt f (42 + j)
        else byteAt (old.entry s.cfg pos).data j) ∧
      (∀ p, p ≠ pos → (t.slot i).entry s.cfg p = old.entry s.cfg p) ∧
      (∀ j, j ≠ i → t.slot j = s.slot j) ∧
      t.labels = s.labels ++
        [.queued (decide (old.count s.cfg = q)) (decide (s.cfg.qPayloadMax < ulen))] ∧
      t.held = some { h with delivered := true } ∧ t.status = s.status ∧ t.env = s.env ∧
      t.calls = s.calls ∧ t.ipId = s.ipId ∧ t.txt = s.txt ∧ SameConfig s t ∧
      SameHostSide s t ∧ SameMemory s t ∧ SameResBut [] s t

/-- U3, U12 (spec/93): outside a `DISPATCH`, a second time on one frame, or with a precondition false,
`UDP_DELIVER` is refused (R201, R283). -/
def Obligations.DeliveryOutsideContractIsRefused : Prop :=
  (∀ s : State, s.held = none → exec .udpDeliver s = .refused .deliverOutsideDispatch) ∧
  (∀ (s : State) (h : Held), s.held = some h → h.delivered = true →
    exec .udpDeliver s = .refused .deliverOutsideDispatch) ∧
  ∀ (s : State) (h : Held), s.held = some h → h.delivered = false →
    ¬ (42 ≤ h.frame.length ∧ byteAt h.frame 14 = 0x45 ∧ byteAt h.frame 23 = 17 ∧
      be16 h.frame 20 &&& 0x3FFF = 0 ∧ 8 ≤ (be16 h.frame 38).toNat ∧
      34 + (be16 h.frame 38).toNat ≤ h.frame.length) →
    exec .udpDeliver s = .refused .deliverPreconditionFalse

/-- The capacity law (R210): after `m` datagrams queued to an empty queue with no receive between, the
queue holds the last `min(m, Q_CAP)` of them in arrival order, and no other slot has changed. -/
def Obligations.QueueKeepsLastCapacityDatagrams : Prop :=
  ∀ (s : State) (i : Nat) (fs : List Frame), s.Inv → i < s.cfg.nPorts →
    (s.slot i).port ≠ 0 → (s.slot i).count s.cfg = 0 →
    (∀ f ∈ fs, preDeliver f = true ∧ be16 f 36 = (s.slot i).port) →
    (1024 ≤ (s.slot i).port.toNat ∨ (s.slot i).port ∈ s.cfg.sysPorts) →
    ∃ t, deliverAll s fs = some t ∧
      (t.slot i).datagrams t.cfg =
        (fs.map (datagramOf s.cfg)).drop (fs.length - min fs.length s.cfg.qCap) ∧
      ∀ j, j ≠ i → t.slot j = s.slot j

/-- `RECV` from a queue that is not empty (R214, R216): `n = min(max_len, LEN)` bytes to host memory, of
which those within the stored payload are the entry's and those beyond are free (U2); the entry is
consumed whatever `max_len` is. -/
def Obligations.RecvCopiesOldest : Prop :=
  ∀ (s : State) (h : Nat), s.Inv → h = (s.x 0).toNat → h < s.cfg.nPorts →
    (s.slot h).count s.cfg ≠ 0 →
    let e := (s.slot h).entry s.cfg ((s.slot h).tail &&& (s.cfg.qCap - 1))
    let n := min (s.x 2).toNat e.len.toNat
    ∃ t, exec .recv s = .next t ∧ t.status = .ok ∧ t.res[0].toNat = n ∧ t.res[1] = e.srcIp ∧
      t.res[2] = 0#16 ++ e.srcPort ∧ SameResBut [0, 1, 2] s t ∧
      (∀ j, j < n → j < s.cfg.qPayloadMax →
        t.hostMem.read (s.x 1 + BitVec.ofNat 32 j) = byteAt e.data j) ∧
      (∀ a, (∀ j, j < n → a ≠ s.x 1 + BitVec.ofNat 32 j) →
        t.hostMem.read a = s.hostMem.read a) ∧
      t.slots = s.slots.set h
        { s.slot h with tail := ((s.slot h).tail + 1) &&& (2 * s.cfg.qCap - 1) } ∧
      t.ipId = s.ipId ∧ t.txt = s.txt ∧ SameConfig s t ∧ SameOutside s t ∧ SameHostSide s t

/-- `RECV_ZC` from a queue that is not empty (R218): the same metadata, `n` the entry's `LEN`, the entry
index in `RES[3]` (as a 32-bit value; log 17), no host memory written. -/
def Obligations.RecvZcReturnsSlotReference : Prop :=
  ∀ (s : State) (h : Nat), s.Inv → h = (s.x 0).toNat → h < s.cfg.nPorts →
    (s.slot h).count s.cfg ≠ 0 →
    let pos := (s.slot h).tail &&& (s.cfg.qCap - 1)
    let e := (s.slot h).entry s.cfg pos
    ∃ t, exec .recvZc s = .next t ∧ t.status = .ok ∧ t.res[0] = 0#16 ++ e.len ∧
      t.res[1] = e.srcIp ∧ t.res[2] = 0#16 ++ e.srcPort ∧
      t.res[3] = BitVec.ofNat 32 (h * s.cfg.qCap + pos) ∧
      t.slots = s.slots.set h
        { s.slot h with tail := ((s.slot h).tail + 1) &&& (2 * s.cfg.qCap - 1) } ∧
      t.ipId = s.ipId ∧ t.txt = s.txt ∧ SameConfig s t ∧ SameOutside s t ∧ SameHostSide s t ∧
      SameMemory s t

/-- A handle outside the table (R217 (a)) gives `ST_ERR_BAD_HANDLE` and nothing else, without looking at
a queue (R275). An empty queue, bound or not (R215, R217 (b)), gives `RES[0] = 0` and `ST_EMPTY`;
`RES[1]`, `RES[2]` (and `RES[3]` of `RECV_ZC`) take any value (U1); nothing else changes. -/
def Obligations.BadHandleOrEmptyQueue : Prop :=
  (∀ s : State, s.cfg.nPorts ≤ (s.x 0).toNat →
    exec .recv s = .next { s with status := .errBadHandle } ∧
      exec .recvZc s = .next { s with status := .errBadHandle }) ∧
  ∀ s : State, s.Inv → (s.x 0).toNat < s.cfg.nPorts →
    (s.slot (s.x 0).toNat).count s.cfg = 0 →
    (∃ t, exec .recv s = .next t ∧ t.status = .empty ∧ t.res[0] = 0 ∧ t.res[3] = s.res[3] ∧
      t = { s with status := .empty, res := t.res, fresh := t.fresh }) ∧
    ∃ t, exec .recvZc s = .next t ∧ t.status = .empty ∧ t.res[0] = 0 ∧
      t = { s with status := .empty, res := t.res, fresh := t.fresh }

/-- What the host reads through the `QRAM` window at the entry index a `RECV_ZC` returned is the payload
of the datagram it took (R218, R63), as long as the index fits its register (log 17). -/
def Obligations.WindowShowsZeroCopyPayload : Prop :=
  ∀ (s t : State) (h j : Nat) (rest : List HostAction),
    s.Inv → s.cfg.nPorts * s.cfg.qCap ≤ 2 ^ 32 → h = (s.x 0).toNat → h < s.cfg.nPorts →
    exec .recvZc s = .next t → t.status = .ok → t.held = none →
    j < min t.res[0].toNat s.cfg.qPayloadMax →
    ∃ u d ds, (s.slot h).datagrams s.cfg = d :: ds ∧
      step (t.setHost (.readQram t.res[3].toNat j :: rest)) = .next u ∧
      u.bus = t.bus ++ [0#24 ++ byteAt d.payload j]

/-- FIFO order (R220): `UDP_DELIVER` appends, losing the oldest of a full queue; `RECV` and `RECV_ZC`
take the oldest; the queues of the other slots stay as they are. -/
def Obligations.QueuesAreFifo : Prop :=
  (∀ (s t : State) (h : Held) (i : Nat), s.Inv → s.held = some h → i < s.cfg.nPorts →
    (s.slot i).port = be16 h.frame 36 →
    (1024 ≤ (be16 h.frame 36).toNat ∨ be16 h.frame 36 ∈ s.cfg.sysPorts) →
    exec .udpDeliver s = .next t →
      (t.slot i).datagrams t.cfg =
        (if (s.slot i).count s.cfg = s.cfg.qCap then ((s.slot i).datagrams s.cfg).tail
         else (s.slot i).datagrams s.cfg) ++ [datagramOf s.cfg h.frame] ∧
      ∀ j, j ≠ i → t.slot j = s.slot j) ∧
  ∀ (k : Instr) (s t : State), k ∈ [.recv, .recvZc] → s.Inv → exec k s = .next t →
    t.status = .ok →
      (∃ d, (s.slot (s.x 0).toNat).datagrams s.cfg =
          d :: (t.slot (s.x 0).toNat).datagrams t.cfg ∧
        t.res[1] = d.srcIp ∧ t.res[2] = 0#16 ++ d.srcPort) ∧
      ∀ j, j ≠ (s.x 0).toNat → t.slot j = s.slot j

/-! ### UDP Transport: send -/

/-- R232: a handle outside the table or of a free slot fails at once; the identifier, the template and
the history of calls are untouched. -/
def Obligations.SendUnboundFails : Prop :=
  ∀ s : State, s.callsReturn →
    ((s.x 0).toNat < s.cfg.nPorts → (s.slot (s.x 0).toNat).port = 0) →
    exec .send s = .next { s with status := .errUnbound }

/-- A unicast destination without an address-resolution answer (R243, R241, R242): one lookup, of the
gateway off-link and of the destination on-link; the identifier is consumed; nothing is transmitted and
nothing else changes (R252). -/
def Obligations.SendUnresolvedFails : Prop :=
  ∀ s : State, s.callsReturn → BoundHandle s → ¬ BroadcastDst s → ¬ MulticastDst s →
    arpAnswer s = none →
    ∃ t, exec .send s = .next t ∧ t.status = .errArp ∧ t.ipId = s.ipId + 1 ∧
      t.calls = s.calls ++ [.arLookup (unicastTarget s)] ∧
      t.txt = s.txt ∧ t.slots = s.slots ∧ t.labels = s.labels ∧ t.held = s.held ∧
      SameConfig s t ∧ SameHostSide s t ∧ SameMemory s t ∧ SameResBut [] s t

/-- A `SEND` that is addressed transmits exactly one frame after its lookup, if any; every header field
and payload byte of the frame; the template's bytes it rewrites; and what it leaves alone (R231, R235 to
R251, R252). -/
def Obligations.SendTransmitsFrame : Prop :=
  ∀ (s : State) (dmac : Mac) (lookups : List Call), s.Inv → s.callsReturn → BoundHandle s →
    Addressed s dmac lookups →
    let n := min (s.x 2).toNat s.cfg.txPayloadMax
    ∃ t f, exec .send s = .next t ∧ t.status = .ok ∧ t.ipId = s.ipId + 1 ∧
      t.calls = s.calls ++ lookups ++ [.fioTransmit f] ∧
      FrameFields s (s.x 0).toNat n dmac f ∧ f = t.txt.take (42 + n) ∧
      TemplateKeptBut (SendOffset n) s t ∧
      t.slots = s.slots ∧ t.labels = s.labels ∧ t.held = s.held ∧
      SameConfig s t ∧ SameHostSide s t ∧ SameMemory s t ∧ SameResBut [] s t

/-- The header checksum (R247): the stored value is the complement of the folded sum of the ten header
halfwords with the checksum taken as zero, the folding has ended (the sum is no longer above 0xFFFF),
and the sum with the checksum in place folds to 0xFFFF. -/
def Obligations.SentHeaderChecksumVerifies : Prop :=
  ∀ (s t : State) (f : Frame), s.Inv → exec .send s = .next t → t.status = .ok →
    (∃ front, t.calls = front ++ [.fioTransmit f]) →
    let folded := foldCarry 16 (halfSum f 14 5 + halfSum f 26 4)
    folded ≤ 0xFFFF ∧ (be16 f 24).toNat = 0xFFFF - folded ∧ headerSum f = 0xFFFF

/-- The identifier sequence (R234): every `SEND` past the handle check takes one value, wrapping after
0xFFFF, whether or not address resolution succeeds; no other operation writes `IP_ID` but those that
call a collaborator which may itself send (R35; R154, log 6). -/
def Obligations.IdentifierCountsAttempts : Prop :=
  (∀ s t : State, exec .send s = .next t →
    (t.status = .errUnbound → t.ipId = s.ipId) ∧
      (t.status ≠ .errUnbound → t.ipId.toNat = (s.ipId.toNat + 1) % 2 ^ 16)) ∧
  ∀ (i : Instr) (s t : State), exec i s = .next t →
    i ∉ [.send, .init, .setDhcp, .setZeroconf, .apply, .dispatch] → t.ipId = s.ipId

/-! ### `DISPATCH` -/

/-- `DISPATCH` with no frame (R156): the timers run and `ST_OK`. What the timer work did to UDPE is
bounded by R283 (e), in the model's form (log 6). -/
def Obligations.DispatchWithoutFrame : Prop :=
  ∀ s : State, s.callsReturn → recvAnswer s = none →
    ∃ t, exec .dispatch s = .next t ∧ t.status = .ok ∧ t.labels = s.labels ++ [.noFrame] ∧
      t.calls = s.calls ++ .fioRecv :: .tmrRun :: touchTrace (timerTouch (s.drew 1)) ∧
      t.held = s.held ∧ BoundSlotsKept s t ∧
      t.ipId = (timerTouch (s.drew 1)).ipId.getD s.ipId ∧
      TemplateKeptBut (fun o => perSendOffset o = true) s t ∧
      SameConfig s t ∧ SameHostSide s t ∧ SameMemory s t ∧ SameResBut [] s t

/-- `DISPATCH` of a frame that is not delivered (R156, R104, R105, R114): to the IP layer that ignores
it, to the ARP layer, or dropped and logged, a frame shorter than 14 bytes with the value 0xFFFFFFFF;
then it is released and the timers run, last (R157). -/
def Obligations.DispatchWithoutDelivery : Prop :=
  ∀ (s : State) (f : Frame), s.callsReturn → recvAnswer s = some f →
    let ipv4 := 14 ≤ f.length ∧ be16 f 12 = 0x0800
    let arp := 14 ≤ f.length ∧ be16 f 12 = 0x0806
    let u := timerTouch (s.drew (if ipv4 then 2 else 1))
    (ipv4 → iplDelivers (s.drew 1) f = false) →
    ∃ (t : State) (handed : Call),
      exec .dispatch s = .next t ∧ t.status = .ok ∧
      t.calls = s.calls ++ .fioRecv :: handed :: .fioFree :: .tmrRun :: touchTrace u ∧
      (ipv4 → handed = .iplHandle f ∧ t.labels = s.labels ++ [.toIp]) ∧
      (arp → handed = .arplHandle f ∧ t.labels = s.labels ++ [.toArp]) ∧
      (14 ≤ f.length → ¬ ipv4 → ¬ arp →
        handed = .logDropEthertype (0#16 ++ be16 f 12) ∧
          t.labels = s.labels ++ [.dropEthertype]) ∧
      (f.length < 14 → handed = .logDropEthertype 0xFFFFFFFF ∧
        t.labels = s.labels ++ [.dropEthertype]) ∧
      t.held = none ∧ BoundSlotsKept s t ∧ t.ipId = u.ipId.getD s.ipId ∧
      TemplateKeptBut (fun o => perSendOffset o = true) s t ∧
      SameConfig s t ∧ SameHostSide s t ∧ SameMemory s t ∧ SameResBut [] s t

/-- `DISPATCH` of an IPv4 frame the IP layer delivers (R156, R283 (a)): the port table and queues become
what `UDP_DELIVER` on that frame makes of them, once, before the frame is released. -/
def Obligations.DispatchDelivers : Prop :=
  ∀ (s : State) (f : Frame), s.callsReturn → recvAnswer s = some f → 14 ≤ f.length →
    be16 f 12 = 0x0800 → iplDelivers (s.drew 1) f = true → preDeliver f = true →
    let u := timerTouch (s.drew 2)
    ∃ (t d : State) (l : Label),
      exec .udpDeliver
        (s.setHeld (some { frame := f, called := false, delivered := false })) = .next d ∧
      d.labels = s.labels ++ [l] ∧
      exec .dispatch s = .next t ∧ t.status = .ok ∧ t.labels = s.labels ++ [.toIp, l] ∧
      t.calls = s.calls ++
        .fioRecv :: .iplHandle f :: .fioFree :: .tmrRun :: touchTrace u ∧
      BoundSlotsKept d t ∧ t.held = none ∧ t.ipId = u.ipId.getD s.ipId ∧
      TemplateKeptBut (fun o => perSendOffset o = true) s t ∧
      SameConfig s t ∧ SameHostSide s t ∧ SameMemory s t ∧ SameResBut [] s t

/-- An IP layer that answers `deliver` on a frame with a precondition false breaks its promise
(R291 (d)); the step is refused (R201, U3). -/
def Obligations.BrokenDeliveryPromiseIsRefused : Prop :=
  ∀ (s : State) (f : Frame) (rest : List IplAnswer), s.env.ipl = .deliver :: rest →
    recvAnswer s = some f → 14 ≤ f.length → be16 f 12 = 0x0800 → preDeliver f = false →
    exec .dispatch s = .refused .deliverPreconditionFalse
end

