-- ==== Sys2Proof/Laws/Bytes.lean ====
section
/-! SUPPORT. Laws of the byte operations: lengths, reads after writes, halfwords and words read back
as written (spec/00_scope.md R15), and the fold of the checksum (spec/43_udp_send.md R247). -/

namespace Sys2Proof.Machine

@[simp] theorem bytes16_length (v : Half) : (bytes16 v).length = 2 := rfl

@[simp] theorem bytes32_length (v : Word) : (bytes32 v).length = 4 := rfl

@[simp] theorem macBytes_length (m : Mac) : (macBytes m).length = 6 := rfl

@[simp] theorem putBytes_length (b : List Byte) (o : Nat) (vs : List Byte) :
    (putBytes b o vs).length = b.length := by
  induction b generalizing o vs with
  | nil => rfl
  | cons x xs ih => cases vs <;> cases o <;> simp [putBytes, ih]

@[simp] theorem putBE16_length (b : List Byte) (o : Nat) (v : Half) :
    (putBE16 b o v).length = b.length := by simp [putBE16]

@[simp] theorem putBE32_length (b : List Byte) (o : Nat) (v : Word) :
    (putBE32 b o v).length = b.length := by simp [putBE32]

@[simp] theorem putBytes_nil (b : List Byte) (o : Nat) : putBytes b o [] = b := by
  cases b <;> rfl

/-- Reading one byte after overwriting some. -/
theorem byteAt_putBytes (b : List Byte) (o : Nat) (vs : List Byte) (k : Nat) :
    byteAt (putBytes b o vs) k =
      if o ≤ k ∧ k < o + vs.length ∧ k < b.length then vs.getD (k - o) 0 else byteAt b k := by
  induction b generalizing o vs k with
  | nil => simp [putBytes, byteAt]
  | cons x xs ih =>
    cases vs with
    | nil => simp [putBytes]; omega
    | cons v vs =>
      cases o with
      | zero =>
        cases k with
        | zero => simp [putBytes, byteAt]
        | succ k =>
          have h := ih 0 vs k
          simp only [byteAt] at h
          simp only [putBytes, byteAt, List.getD_cons_succ, h]
          congr 1
          simp
      | succ o =>
        cases k with
        | zero => simp [putBytes, byteAt]
        | succ k =>
          have h := ih o (v :: vs) k
          simp only [byteAt] at h
          simp only [putBytes, byteAt, List.getD_cons_succ, h, List.length_cons,
            Nat.add_sub_add_right]
          congr 1
          simp only [eq_iff_iff]
          omega

/-- A byte outside the overwritten range reads as before. -/
theorem byteAt_putBytes_outside {b : List Byte} {o : Nat} {vs : List Byte} {k : Nat}
    (h : k < o ∨ o + vs.length ≤ k) : byteAt (putBytes b o vs) k = byteAt b k := by
  rw [byteAt_putBytes, if_neg (by omega)]

/-- A byte inside the overwritten range reads as written. -/
theorem byteAt_putBytes_inside {b : List Byte} {o : Nat} {vs : List Byte} {j : Nat}
    (hj : j < vs.length) (hb : o + j < b.length) :
    byteAt (putBytes b o vs) (o + j) = vs.getD j 0 := by
  rw [byteAt_putBytes, if_pos (by omega), Nat.add_sub_cancel_left]

theorem be16_eq_of_bytes {b : List Byte} {o : Nat} {v : Half}
    (h0 : byteAt b o = v.extractLsb' 8 8) (h1 : byteAt b (o + 1) = v.extractLsb' 0 8) :
    be16 b o = v := by
  simp only [be16, h0, h1]
  ext i hi
  simp only [BitVec.getElem_append, BitVec.getElem_extractLsb', Nat.zero_add]
  split
  · exact BitVec.getLsbD_eq_getElem (by omega)
  · rw [show 8 + (i - 8) = i by omega]
    exact BitVec.getLsbD_eq_getElem (by omega)

theorem be32_eq_of_bytes {b : List Byte} {o : Nat} {v : Word}
    (h0 : byteAt b o = v.extractLsb' 24 8) (h1 : byteAt b (o + 1) = v.extractLsb' 16 8)
    (h2 : byteAt b (o + 2) = v.extractLsb' 8 8) (h3 : byteAt b (o + 3) = v.extractLsb' 0 8) :
    be32 b o = v := by
  simp only [be32, h0, h1, h2, h3]
  ext i hi
  simp only [BitVec.getElem_append, BitVec.getElem_extractLsb', Nat.zero_add]
  split
  · exact BitVec.getLsbD_eq_getElem (by omega)
  · split
    · rw [show 8 + (i - 8) = i by omega]
      exact BitVec.getLsbD_eq_getElem (by omega)
    · split
      · rw [show 16 + (i - 8 - 8) = i by omega]
        exact BitVec.getLsbD_eq_getElem (by omega)
      · rw [show 24 + (i - 8 - 8 - 8) = i by omega]
        exact BitVec.getLsbD_eq_getElem (by omega)

/-- A halfword reads back as written. -/
theorem be16_putBE16_same {b : List Byte} {o : Nat} (v : Half) (h : o + 1 < b.length) :
    be16 (putBE16 b o v) o = v := by
  apply be16_eq_of_bytes
  · exact byteAt_putBytes_inside (j := 0) (by simp) (by omega)
  · exact byteAt_putBytes_inside (j := 1) (by simp) (by omega)

/-- A word reads back as written. -/
theorem be32_putBE32_same {b : List Byte} {o : Nat} (v : Word) (h : o + 3 < b.length) :
    be32 (putBE32 b o v) o = v := by
  apply be32_eq_of_bytes
  · exact byteAt_putBytes_inside (j := 0) (by simp) (by omega)
  · exact byteAt_putBytes_inside (j := 1) (by simp) (by omega)
  · exact byteAt_putBytes_inside (j := 2) (by simp) (by omega)
  · exact byteAt_putBytes_inside (j := 3) (by simp) (by omega)

/-- A halfword outside the overwritten range reads as before. -/
theorem be16_putBytes_outside {b : List Byte} {o : Nat} {vs : List Byte} {k : Nat}
    (h : k + 1 < o ∨ o + vs.length ≤ k) : be16 (putBytes b o vs) k = be16 b k := by
  simp only [be16]
  rw [byteAt_putBytes_outside (by omega), byteAt_putBytes_outside (by omega)]

/-- A word outside the overwritten range reads as before. -/
theorem be32_putBytes_outside {b : List Byte} {o : Nat} {vs : List Byte} {k : Nat}
    (h : k + 3 < o ∨ o + vs.length ≤ k) : be32 (putBytes b o vs) k = be32 b k := by
  simp only [be32]
  rw [byteAt_putBytes_outside (by omega), byteAt_putBytes_outside (by omega),
    byteAt_putBytes_outside (by omega), byteAt_putBytes_outside (by omega)]

@[simp] theorem mergePerSend_length (o : Nat) (b vs : List Byte) :
    (mergePerSend o b vs).length = b.length := by
  induction b generalizing o vs with
  | nil => rfl
  | cons x xs ih => cases vs <;> simp [mergePerSend, ih]

/-- A byte that is not a per-send byte is not taken from the other buffer. -/
theorem byteAt_mergePerSend {o : Nat} {b vs : List Byte} {k : Nat}
    (h : perSendOffset (o + k) = false) : byteAt (mergePerSend o b vs) k = byteAt b k := by
  induction b generalizing o vs k with
  | nil => rfl
  | cons x xs ih =>
    cases vs with
    | nil => rfl
    | cons v vs =>
      cases k with
      | zero =>
        simp only [Nat.add_zero] at h
        simp [mergePerSend, byteAt, h]
      | succ k =>
        have := ih (o := o + 1) (vs := vs) (k := k) (by rw [← h]; congr 1; omega)
        simpa [mergePerSend, byteAt] using this

/-- A sum of `n` halfwords is below `n * 0x10000`. -/
theorem halfSum_le (b : List Byte) (o n : Nat) : halfSum b o n ≤ n * 0xFFFF := by
  induction n generalizing o with
  | zero => simp [halfSum]
  | succ n ih =>
    have h1 := ih (o + 2)
    have h2 : (be16 b o).toNat < 2 ^ 16 := (be16 b o).isLt
    simp only [halfSum]
    omega

/-- Folding keeps the value modulo 0xFFFF. -/
theorem foldCarry_mod (n t : Nat) : foldCarry n t % 0xFFFF = t % 0xFFFF := by
  induction n generalizing t with
  | zero => rfl
  | succ n ih =>
    simp only [foldCarry]
    split
    · rw [ih, show (0xFFFF : Nat) = 2 ^ 16 - 1 from rfl, Nat.and_two_pow_sub_one_eq_mod,
        Nat.shiftRight_eq_div_pow]
      omega
    · rfl

/-- The sum of ten halfwords needs at most two rounds (R253). -/
theorem foldCarry_le {t : Nat} (n : Nat) (h : t ≤ 0x9FFF6) : foldCarry (n + 2) t ≤ 0xFFFF := by
  have step (u : Nat) : (u &&& 0xFFFF) + (u >>> 16) = u % 2 ^ 16 + u / 2 ^ 16 := by
    rw [show (0xFFFF : Nat) = 2 ^ 16 - 1 from rfl, Nat.and_two_pow_sub_one_eq_mod,
      Nat.shiftRight_eq_div_pow]
  have small (m u : Nat) (hu : u ≤ 0xFFFF) : foldCarry m u ≤ 0xFFFF := by
    cases m with
    | zero => exact hu
    | succ m => simp only [foldCarry]; rw [if_neg (by omega)]; exact hu
  simp only [foldCarry, step]
  split
  · split
    · exact small n _ (by omega)
    · omega
  · omega

/-- A sum of halfwords depends on those halfwords alone. -/
theorem halfSum_congr {a b : List Byte} {n o : Nat}
    (h : ∀ k, k < n → be16 a (o + 2 * k) = be16 b (o + 2 * k)) : halfSum a o n = halfSum b o n := by
  induction n generalizing o with
  | zero => rfl
  | succ n ih =>
    have h0 : be16 a o = be16 b o := h 0 (by omega)
    have hs : halfSum a (o + 2) n = halfSum b (o + 2) n := ih fun k hk => by
      have := h (k + 1) (by omega)
      rwa [show o + 2 * (k + 1) = o + 2 + 2 * k by omega] at this
    simp only [halfSum, h0, hs]

/-- The ten header halfwords: five before the checksum, the checksum, four after it (R247). -/
theorem halfSum_header (b : List Byte) :
    halfSum b 14 10 = halfSum b 14 5 + (be16 b 24).toNat + halfSum b 26 4 := by
  simp only [halfSum, Nat.reduceAdd]
  omega

/-- The folded header sum is a halfword. -/
theorem headerSum_le (b : List Byte) : headerSum b ≤ 0xFFFF :=
  foldCarry_le 14 (halfSum_le b 14 10)

/-- Folding a positive sum leaves a positive one. -/
theorem foldCarry_pos {t : Nat} (n : Nat) (h : 0 < t) : 0 < foldCarry n t := by
  induction n generalizing t with
  | zero => exact h
  | succ n ih =>
    simp only [foldCarry]
    split
    · exact ih (by rw [Nat.shiftRight_eq_div_pow]; omega)
    · exact h

/-- The first bytes of a buffer, read by byte, halfword and word. -/
theorem byteAt_take {b : List Byte} {n o : Nat} (h : o < n) :
    byteAt (b.take n) o = byteAt b o := by
  simp [byteAt, List.getD_eq_getElem?_getD, h]

theorem be16_take {b : List Byte} {n o : Nat} (h : o + 1 < n) :
    be16 (b.take n) o = be16 b o := by
  rw [be16, byteAt_take h, byteAt_take (by omega)]; rfl

theorem be32_take {b : List Byte} {n o : Nat} (h : o + 3 < n) :
    be32 (b.take n) o = be32 b o := by
  rw [be32, byteAt_take h, byteAt_take (by omega), byteAt_take (by omega), byteAt_take (by omega)]
  rfl

end Sys2Proof.Machine
end

