-- ==== Sys2Proof/Laws/Memory.lean ====
section
/-! SUPPORT. Laws of host memory: every operation keeps the canonical form, and a read after a write
gives the value written or leaves every other place alone (spec/20_memory.md R61). -/

namespace Sys2Proof.Machine

theorem Memory.put_above {m : Memory} {lo a : Nat} {b : Byte} (ha : lo < a)
    (h : m.all (fun c => decide (lo < c.1)) = true) :
    (Memory.put m a b).all (fun c => decide (lo < c.1)) = true := by
  induction m with
  | nil => simp only [Memory.put]; split <;> simp [ha]
  | cons c m ih =>
    obtain ⟨k, v⟩ := c
    simp only [List.all_cons, Bool.and_eq_true, decide_eq_true_eq] at h
    simp only [Memory.put]
    split
    · split
      · simp only [List.all_cons, Bool.and_eq_true, decide_eq_true_eq]
        exact h
      · simp only [List.all_cons, Bool.and_eq_true, decide_eq_true_eq]
        exact ⟨ha, h⟩
    · split
      · split
        · exact h.2
        · simp only [List.all_cons, Bool.and_eq_true, decide_eq_true_eq]
          exact ⟨ha, h.2⟩
      · simp only [List.all_cons, Bool.and_eq_true, decide_eq_true_eq]
        exact ⟨h.1, ih h.2⟩

theorem Memory.all_above_of_wf {m : Memory} {k lo : Nat} (hk : lo < k)
    (h : m.all (fun c => decide (k < c.1)) = true) :
    m.all (fun c => decide (lo < c.1)) = true := by
  rw [List.all_eq_true] at h ⊢
  intro x hx
  have := h x hx
  simp only [decide_eq_true_eq] at this ⊢
  omega

/-- One write keeps the canonical form. -/
theorem Memory.wf_put {m : Memory} {a : Nat} {b : Byte} (h : m.wf = true) (ha : a < 2 ^ 32) :
    (Memory.put m a b).wf = true := by
  induction m with
  | nil =>
    simp only [Memory.put]
    split
    · rfl
    · rename_i hb
      simp only [Memory.wf, List.all_nil, Bool.and_eq_true, decide_eq_true_eq]
      exact ⟨⟨⟨ha, hb⟩, trivial⟩, trivial⟩
  | cons c m ih =>
    obtain ⟨k, v⟩ := c
    have hw := h
    simp only [Memory.wf, Bool.and_eq_true, decide_eq_true_eq] at h
    obtain ⟨⟨⟨hk, hv⟩, hall⟩, hm⟩ := h
    simp only [Memory.put]
    split
    · split
      · exact hw
      · rename_i hlt hb
        simp only [Memory.wf, List.all_cons, Bool.and_eq_true, decide_eq_true_eq]
        exact ⟨⟨⟨ha, hb⟩, hlt, Memory.all_above_of_wf hlt hall⟩, ⟨⟨hk, hv⟩, hall⟩, hm⟩
    · split
      · rename_i _ he
        subst he
        split
        · exact hm
        · rename_i hb
          simp only [Memory.wf, Bool.and_eq_true, decide_eq_true_eq]
          exact ⟨⟨⟨hk, hb⟩, hall⟩, hm⟩
      · rename_i h1 h2
        simp only [Memory.wf, Bool.and_eq_true, decide_eq_true_eq]
        exact ⟨⟨⟨hk, hv⟩, Memory.put_above (by omega) hall⟩, ih hm⟩

/-- An address below every listed one reads as unwritten. -/
theorem Memory.get_of_all_above {m : Memory} {a : Nat}
    (h : m.all (fun c => decide (a < c.1)) = true) : Memory.get m a = Memory.unwritten := by
  induction m with
  | nil => rfl
  | cons c m ih =>
    obtain ⟨k, v⟩ := c
    simp only [List.all_cons, Bool.and_eq_true, decide_eq_true_eq] at h
    simp only [Memory.get]
    rw [if_neg (by omega)]
    exact ih h.2

/-- Reading after one write. -/
theorem Memory.get_put {m : Memory} {a : Nat} {b : Byte} (h : m.wf = true) (x : Nat) :
    Memory.get (Memory.put m a b) x = if x = a then b else Memory.get m x := by
  induction m with
  | nil =>
    simp only [Memory.put]
    split
    · rename_i hb; subst hb; simp [Memory.get]
    · simp only [Memory.get]; by_cases hx : x = a
      · simp [hx]
      · simp [hx, Ne.symm hx]
  | cons c m ih =>
    obtain ⟨k, v⟩ := c
    simp only [Memory.wf, Bool.and_eq_true, decide_eq_true_eq] at h
    obtain ⟨⟨⟨hk, hv⟩, hall⟩, hm⟩ := h
    have hax : Memory.get m k = Memory.unwritten := Memory.get_of_all_above hall
    simp only [Memory.put]
    split
    · rename_i hlt
      have ha : Memory.get m a = Memory.unwritten :=
        Memory.get_of_all_above (Memory.all_above_of_wf hlt hall)
      split
      · rename_i hb
        subst hb
        by_cases hx : x = a
        · subst hx; simp [Memory.get, ha, show k ≠ x by omega]
        · simp [hx]
      · by_cases hx : x = a
        · subst hx; simp [Memory.get]
        · simp [Memory.get, hx, Ne.symm hx]
    · split
      · rename_i _ he
        subst he
        split
        · rename_i hb
          subst hb
          by_cases hx : x = a
          · subst hx; simp [hax]
          · simp [Memory.get, hx, Ne.symm hx]
        · by_cases hx : x = a
          · subst hx; simp [Memory.get]
          · simp [Memory.get, hx, Ne.symm hx]
      · rename_i h1 h2
        simp only [Memory.get, ih hm]
        by_cases hx : x = a
        · subst hx; simp [show k ≠ x from fun e => h2 e.symm]
        · simp [hx]

/-- A write keeps the canonical form. -/
theorem Memory.wf_write {m : Memory} (h : m.wf = true) (a : Word) (b : Byte) :
    (m.write a b).wf = true := Memory.wf_put h a.isLt

/-- A byte reads back as written, and every other byte reads as before. -/
theorem Memory.read_write {m : Memory} (h : m.wf = true) (a x : Word) (b : Byte) :
    (m.write a b).read x = if x = a then b else m.read x := by
  simp only [Memory.read, Memory.write, Memory.get_put h, BitVec.toNat_inj]

/-- A copy to host memory keeps the canonical form. -/
theorem wf_memWrite {m : Memory} (h : m.wf = true) (a : Word) (bs : List Byte) :
    (memWrite m a bs).wf = true := by
  induction bs generalizing m a with
  | nil => exact h
  | cons b bs ih => exact ih (Memory.wf_write h a b) (a + 1)

@[simp] theorem memRead_length (m : Memory) (a : Word) (n : Nat) : (memRead m a n).length = n := by
  induction n generalizing a with
  | zero => rfl
  | succ n ih => simp [memRead, ih]

/-- Byte `j` of a copy from host memory is the byte at `addr + j`. -/
theorem memRead_getElem (m : Memory) (a : Word) (n j : Nat) (h : j < (memRead m a n).length) :
    (memRead m a n)[j] = m.read (a + BitVec.ofNat 32 j) := by
  induction n generalizing a j with
  | zero => simp [memRead] at h
  | succ n ih =>
    cases j with
    | zero => simp [memRead]
    | succ j =>
      simp only [memRead, List.getElem_cons_succ]
      rw [ih (a + 1) j (by simpa [memRead] using h), BitVec.add_assoc]
      congr 2
      apply BitVec.eq_of_toNat_eq
      simp [Nat.add_comm]

/-- An address outside a copy to host memory reads as before. -/
theorem read_memWrite_outside {m : Memory} (h : m.wf = true) (a x : Word) (bs : List Byte)
    (hx : ∀ j < bs.length, x ≠ a + BitVec.ofNat 32 j) :
    (memWrite m a bs).read x = m.read x := by
  induction bs generalizing m a with
  | nil => rfl
  | cons b bs ih =>
    rw [memWrite, ih (Memory.wf_write h a b), Memory.read_write h, if_neg]
    · have := hx 0 (by simp)
      simpa using this
    · intro j hj
      have := hx (j + 1) (by simpa using hj)
      rw [BitVec.add_assoc]
      convert this using 3
      apply BitVec.eq_of_toNat_eq
      simp [Nat.add_comm]

/-- Byte `j` of a copy to host memory is read back at `addr + j`. -/
theorem read_memWrite_inside {m : Memory} (h : m.wf = true) (a : Word) (bs : List Byte)
    (hlen : bs.length ≤ 2 ^ 32) (j : Nat) (hj : j < bs.length) :
    (memWrite m a bs).read (a + BitVec.ofNat 32 j) = bs[j] := by
  induction bs generalizing m a j with
  | nil => simp at hj
  | cons b bs ih =>
    rw [memWrite]
    cases j with
    | zero =>
      rw [read_memWrite_outside (Memory.wf_write h a b), Memory.read_write h, if_pos (by simp)]
      · rfl
      · intro i hi he
        have h1 : (a + BitVec.ofNat 32 0) = a := by simp
        rw [h1, BitVec.add_assoc] at he
        have h2 : (1 : Word) + BitVec.ofNat 32 i = 0 := by
          have := congrArg (fun z => z - a) he
          simp only [BitVec.sub_self] at this
          rw [BitVec.add_comm a, BitVec.add_sub_cancel] at this
          exact this.symm
        have h3 := congrArg BitVec.toNat h2
        simp at h3 hlen
        omega
    | succ j =>
      have h1 : a + BitVec.ofNat 32 (j + 1) = (a + 1) + BitVec.ofNat 32 j := by
        rw [BitVec.add_assoc]
        congr 1
        apply BitVec.eq_of_toNat_eq
        simp [Nat.add_comm]
      rw [h1, ih (Memory.wf_write h a b) (a + 1) (by simp at hlen; omega) j (by simpa using hj)]
      rfl

end Sys2Proof.Machine
end

