-- ==== Sys2Proof/Laws/Queue.lean ====
section
/-! SUPPORT. Laws of the receive queues: the masks as remainders for a legal capacity, what each queue
operation does to a well-formed slot and to its unread entries (spec/10_state.md R38, R39;
spec/42_udp_receive.md R209, R220, R221), and the scan of the port table. -/

namespace Sys2Proof.Machine

/-- A legal capacity is a power of two (R10, R13). -/
theorem legal_qCap {c : Config} (h : c.legal = true) : ∃ k, c.qCap = 2 ^ k := by
  simp only [Config.legal, Bool.and_eq_true, decide_eq_true_eq] at h
  exact ⟨c.qCap.log2, by tauto⟩

theorem legal_qCap_pos {c : Config} (h : c.legal = true) : 0 < c.qCap := by
  obtain ⟨k, hk⟩ := legal_qCap h
  rw [hk]
  positivity

/-- The pointer mask is a remainder (R221). -/
theorem advance_eq {c : Config} (h : c.legal = true) (p : Nat) :
    advance c p = (p + 1) % (2 * c.qCap) := by
  obtain ⟨k, hk⟩ := legal_qCap h
  rw [advance, hk, show 2 * 2 ^ k = 2 ^ (k + 1) by ring, Nat.and_two_pow_sub_one_eq_mod]

/-- The storage mask is a remainder (R221). -/
theorem slotOf_eq {c : Config} (h : c.legal = true) (p : Nat) : slotOf c p = p % c.qCap := by
  obtain ⟨k, hk⟩ := legal_qCap h
  rw [slotOf, hk, Nat.and_two_pow_sub_one_eq_mod]

theorem advance_lt {c : Config} (h : c.legal = true) (p : Nat) : advance c p < 2 * c.qCap := by
  rw [advance_eq h]
  exact Nat.mod_lt _ (by have := legal_qCap_pos h; omega)

theorem slotOf_lt {c : Config} (h : c.legal = true) (p : Nat) : slotOf c p < c.qCap := by
  rw [slotOf_eq h]
  exact Nat.mod_lt _ (legal_qCap_pos h)

/-- `COUNT` without the wrap. -/
theorem count_eq {c : Config} {sl : Slot} (hh : sl.head < 2 * c.qCap)
    (ht : sl.tail < 2 * c.qCap) :
    sl.count c =
      if sl.tail ≤ sl.head then sl.head - sl.tail else sl.head + 2 * c.qCap - sl.tail := by
  rw [Slot.count]
  split
  · rw [show sl.head + 2 * c.qCap - sl.tail = sl.head - sl.tail + 2 * c.qCap by omega,
      Nat.add_mod_right, Nat.mod_eq_of_lt (by omega)]
  · rw [Nat.mod_eq_of_lt (by omega)]

/-- "Empty is exactly `QHEAD = QTAIL`" (R39). -/
theorem isEmpty_iff {c : Config} {sl : Slot} (ok : sl.Ok c) :
    sl.isEmpty = true ↔ sl.count c = 0 := by
  have h1 := ok.headWidth
  have h2 := ok.tailWidth
  rw [count_eq h1 h2, Slot.isEmpty, beq_iff_eq]
  split <;> omega

/-- `COUNT` after one entry is taken. -/
theorem count_advanceTail {c : Config} {sl : Slot} (h : c.legal = true) (ok : sl.Ok c)
    (hne : sl.isEmpty = false) : (sl.advanceTail c).count c = sl.count c - 1 := by
  have h1 := ok.headWidth
  have h2 := ok.tailWidth
  have h3 := legal_qCap_pos h
  have h4 : sl.head ≠ sl.tail := by simpa [Slot.isEmpty] using hne
  have h5 := advance_lt h sl.tail
  rw [count_eq h1 h2, count_eq (sl := sl.advanceTail c) h1 h5]
  simp only [Slot.advanceTail, advance_eq h] at *
  rcases Nat.lt_or_ge (sl.tail + 1) (2 * c.qCap) with h6 | h6
  · rw [Nat.mod_eq_of_lt h6]
    split <;> split <;> omega
  · rw [show sl.tail + 1 = 2 * c.qCap by omega, Nat.mod_self]
    split <;> split <;> omega

/-- `COUNT` after one entry is added. -/
theorem count_advanceHead {c : Config} {sl : Slot} (h : c.legal = true)
    (hh : sl.head < 2 * c.qCap) (ht : sl.tail < 2 * c.qCap) (hc : sl.count c < c.qCap) :
    (sl.advanceHead c).count c = sl.count c + 1 := by
  have h3 := legal_qCap_pos h
  have h5 := advance_lt h sl.head
  rw [count_eq hh ht] at hc
  rw [count_eq hh ht, count_eq (sl := sl.advanceHead c) h5 ht]
  simp only [Slot.advanceHead, advance_eq h] at *
  rcases Nat.lt_or_ge (sl.head + 1) (2 * c.qCap) with h6 | h6
  · rw [Nat.mod_eq_of_lt h6]
    split at hc <;> split <;> omega
  · rw [show sl.head + 1 = 2 * c.qCap by omega, Nat.mod_self]
    split at hc <;> split <;> omega

/-- Taking an entry keeps a bound slot well formed. -/
theorem advanceTail_ok {c : Config} {sl : Slot} (h : c.legal = true) (ok : sl.Ok c)
    (hne : sl.isEmpty = false) : (sl.advanceTail c).Ok c where
  headWidth := ok.headWidth
  tailWidth := advance_lt h _
  countLe := by rw [count_advanceTail h ok hne]; have := ok.countLe; omega
  ringSize := ok.ringSize
  dataSize := ok.dataSize
  freeEmpty := fun hp => by
    have := ok.freeEmpty hp
    simp [Slot.isEmpty, this] at hne

/-- A stored entry keeps its size. -/
theorem store_data_length (e : Entry) (payload : List Byte) (ip : Word) (p l : Half) :
    (e.store payload ip p l).data.length = e.data.length := by simp [Entry.store]

theorem entry_data_length {c : Config} {sl : Slot} (ok : sl.Ok c) (pos : Nat) :
    (sl.entry c pos).data.length = c.qPayloadMax := by
  rw [Slot.entry, List.getD_eq_getElem?_getD]
  rcases h : sl.ring[pos]? with _ | e
  · simp [Entry.zero]
  · exact ok.dataSize e (List.mem_of_getElem? h)

/-- Storing an entry keeps a slot well formed. -/
theorem storeAt_ok {c : Config} {sl : Slot} (ok : sl.Ok c) (pos : Nat) (payload : List Byte)
    (ip : Word) (p l : Half) : (sl.storeAt c pos payload ip p l).Ok c where
  headWidth := ok.headWidth
  tailWidth := ok.tailWidth
  countLe := ok.countLe
  ringSize := by simp [Slot.storeAt, ok.ringSize]
  dataSize := fun e he => by
    rcases List.mem_or_eq_of_mem_set he with h | h
    · exact ok.dataSize e h
    · rw [h, store_data_length, entry_data_length ok]
  freeEmpty := ok.freeEmpty

/-- Making room leaves space for one entry. -/
theorem makeRoom_ok {c : Config} {sl : Slot} (h : c.legal = true) (ok : sl.Ok c) :
    (sl.makeRoom c).Ok c ∧ (sl.makeRoom c).count c < c.qCap ∧ (sl.makeRoom c).head = sl.head ∧
      (sl.makeRoom c).port = sl.port ∧ (sl.makeRoom c).ring = sl.ring := by
  have h0 := legal_qCap_pos h
  unfold Slot.makeRoom
  split
  · rename_i hf
    rw [Slot.full, beq_iff_eq] at hf
    have hne : sl.isEmpty = false := by
      rw [Bool.eq_false_iff, ne_eq, isEmpty_iff ok]
      omega
    refine ⟨advanceTail_ok h ok hne, ?_, rfl, rfl, rfl⟩
    rw [count_advanceTail h ok hne]
    omega
  · rename_i hf
    rw [Slot.full, beq_iff_eq] at hf
    have := ok.countLe
    exact ⟨ok, by omega, rfl, rfl, rfl⟩

/-- Queueing an entry keeps a bound slot well formed. -/
theorem enqueue_ok {c : Config} {sl : Slot} (h : c.legal = true) (ok : sl.Ok c)
    (hp : sl.port ≠ 0) (payload : List Byte) (ip : Word) (p l : Half) :
    (sl.enqueue c payload ip p l).Ok c := by
  obtain ⟨rok, rcount, rhead, rport, -⟩ := makeRoom_ok h ok
  have sok := storeAt_ok rok (slotOf c sl.head) payload ip p l
  exact
    { headWidth := advance_lt h _
      tailWidth := sok.tailWidth
      countLe := by
        have := count_advanceHead (sl := (sl.makeRoom c).storeAt c (slotOf c sl.head) payload ip p l)
          h sok.headWidth sok.tailWidth rcount
        rw [Slot.enqueue, this]
        exact rcount
      ringSize := sok.ringSize
      dataSize := sok.dataSize
      freeEmpty := fun h0 => absurd (rport ▸ h0) hp }

/-- What a lookup in the port table finds: the least index with that port (R183). -/
theorem findPort_some {slots : List Slot} {p : Half} {i : Nat} (h : findPort slots p = some i) :
    ∃ sl, slots[i]? = some sl ∧ sl.port = p ∧ ∀ j < i, ∀ sl', slots[j]? = some sl' → sl'.port ≠ p := by
  rw [findPort, List.findIdx?_eq_some_iff_getElem] at h
  obtain ⟨hlt, hp, hmin⟩ := h
  refine ⟨slots[i], by simp [hlt], by simpa using hp, fun j hj sl' hsl' => ?_⟩
  have hjl : j < slots.length := by omega
  have := hmin j hj
  rw [List.getElem?_eq_getElem hjl, Option.some_inj] at hsl'
  subst hsl'
  simpa using this

/-- A failed lookup in the port table. -/
theorem findPort_none {slots : List Slot} {p : Half} (h : findPort slots p = none) :
    ∀ sl ∈ slots, sl.port ≠ p := by
  rw [findPort, List.findIdx?_eq_none_iff] at h
  intro sl hsl
  simpa using h sl hsl

theorem findPort_lt {slots : List Slot} {p : Half} {i : Nat} (h : findPort slots p = some i) :
    i < slots.length := by
  obtain ⟨sl, hsl, -⟩ := findPort_some h
  exact (List.getElem?_eq_some_iff.mp hsl).1

/-- Slot `i` of the state, where the table has one. -/
theorem slot_eq {s : State} {i : Nat} {sl : Slot} (h : s.slots[i]? = some sl) : s.slot i = sl := by
  simp [State.slot, List.getD_eq_getElem?_getD, h]

theorem slot_mem {s : State} {i : Nat} (h : i < s.slots.length) : s.slot i ∈ s.slots := by
  rw [State.slot, List.getD_eq_getElem?_getD, List.getElem?_eq_getElem h, Option.getD_some]
  exact List.getElem_mem h

/-- Reading slot `j` after writing slot `i`. -/
theorem slot_setSlot (s : State) (i j : Nat) (sl : Slot) :
    (s.setSlot i sl).slot j = if i = j ∧ i < s.slots.length then sl else s.slot j := by
  simp only [State.slot, State.setSlot, List.getD_eq_getElem?_getD, List.getElem?_set]
  by_cases h : i = j
  · subst h
    by_cases hl : i < s.slots.length <;> simp [hl]
  · simp [h]

/-- The scan finds the least slot with the port (R183). -/
theorem findPort_eq_some {s : State} {p : Half} {i : Nat} (hi : i < s.slots.length)
    (hp : (s.slot i).port = p) (hm : ∀ j, j < i → (s.slot j).port ≠ p) :
    findPort s.slots p = some i := by
  rcases h : findPort s.slots p with _ | k
  · exact absurd hp (findPort_none h _ (slot_mem hi))
  · obtain ⟨sl, h1, h2, h3⟩ := findPort_some h
    congr 1
    rcases Nat.lt_trichotomy k i with hk | hk | hk
    · exact absurd (slot_eq h1 ▸ h2) (hm k hk)
    · exact hk
    · have hg : s.slots[i]? = some s.slots[i] := List.getElem?_eq_getElem hi
      exact absurd (slot_eq hg ▸ hp) (h3 i hk _ hg)

/-- The scan finds nothing where no slot has the port. -/
theorem findPort_eq_none {s : State} {p : Half}
    (h : ∀ j, j < s.slots.length → (s.slot j).port ≠ p) : findPort s.slots p = none := by
  rcases h' : findPort s.slots p with _ | k
  · rfl
  · obtain ⟨sl, h1, h2, h3⟩ := findPort_some h'
    exact absurd (slot_eq h1 ▸ h2) (h k (findPort_lt h'))

/-- What the scan finds has the port. -/
theorem findPort_slot {s : State} {p : Half} {i : Nat} (h : findPort s.slots p = some i) :
    i < s.slots.length ∧ (s.slot i).port = p := by
  obtain ⟨sl, h1, h2, h3⟩ := findPort_some h
  exact ⟨findPort_lt h, slot_eq h1 ▸ h2⟩

end Sys2Proof.Machine
end

