-- ==== Sys2Proof/Laws/State.lean ====
section
/-! SUPPORT. What each update of the state changes and what it leaves: one law per update, a conjunct
per field, true by `rfl`, so that no later proof unfolds a record update (`simp` splits the conjuncts
into one rewrite rule per field). -/

namespace Sys2Proof.Machine

@[simp] theorem setRes_fields (s : State) (k : Fin 4) (v : Word) :
    (s.setRes k v).cfg = s.cfg ∧
    (s.setRes k v).cmd = s.cmd ∧
    (s.setRes k v).status = s.status ∧
    (s.setRes k v).arg = s.arg ∧
    (s.setRes k v).res = s.res.set k.val v k.isLt ∧
    (s.setRes k v).nc = s.nc ∧
    (s.setRes k v).pend = s.pend ∧
    (s.setRes k v).ut = s.ut ∧
    (s.setRes k v).ipId = s.ipId ∧
    (s.setRes k v).slots = s.slots ∧
    (s.setRes k v).txt = s.txt ∧
    (s.setRes k v).held = s.held ∧
    (s.setRes k v).hostMem = s.hostMem ∧
    (s.setRes k v).host = s.host ∧
    (s.setRes k v).bus = s.bus ∧
    (s.setRes k v).env = s.env ∧
    (s.setRes k v).calls = s.calls ∧
    (s.setRes k v).labels = s.labels ∧
    (s.setRes k v).fresh = s.fresh :=
  ⟨rfl, rfl, rfl, rfl, rfl, rfl, rfl, rfl, rfl, rfl, rfl, rfl, rfl, rfl, rfl, rfl, rfl, rfl, rfl⟩

@[simp] theorem setStatus_fields (s : State) (c : Status) :
    (s.setStatus c).cfg = s.cfg ∧
    (s.setStatus c).cmd = s.cmd ∧
    (s.setStatus c).status = c ∧
    (s.setStatus c).arg = s.arg ∧
    (s.setStatus c).res = s.res ∧
    (s.setStatus c).nc = s.nc ∧
    (s.setStatus c).pend = s.pend ∧
    (s.setStatus c).ut = s.ut ∧
    (s.setStatus c).ipId = s.ipId ∧
    (s.setStatus c).slots = s.slots ∧
    (s.setStatus c).txt = s.txt ∧
    (s.setStatus c).held = s.held ∧
    (s.setStatus c).hostMem = s.hostMem ∧
    (s.setStatus c).host = s.host ∧
    (s.setStatus c).bus = s.bus ∧
    (s.setStatus c).env = s.env ∧
    (s.setStatus c).calls = s.calls ∧
    (s.setStatus c).labels = s.labels ∧
    (s.setStatus c).fresh = s.fresh :=
  ⟨rfl, rfl, rfl, rfl, rfl, rfl, rfl, rfl, rfl, rfl, rfl, rfl, rfl, rfl, rfl, rfl, rfl, rfl, rfl⟩

@[simp] theorem record_fields (s : State) (c : Call) :
    (s.record c).cfg = s.cfg ∧
    (s.record c).cmd = s.cmd ∧
    (s.record c).status = s.status ∧
    (s.record c).arg = s.arg ∧
    (s.record c).res = s.res ∧
    (s.record c).nc = s.nc ∧
    (s.record c).pend = s.pend ∧
    (s.record c).ut = s.ut ∧
    (s.record c).ipId = s.ipId ∧
    (s.record c).slots = s.slots ∧
    (s.record c).txt = s.txt ∧
    (s.record c).held = s.held ∧
    (s.record c).hostMem = s.hostMem ∧
    (s.record c).host = s.host ∧
    (s.record c).bus = s.bus ∧
    (s.record c).env = s.env ∧
    (s.record c).calls = s.calls ++ [c] ∧
    (s.record c).labels = s.labels ∧
    (s.record c).fresh = s.fresh :=
  ⟨rfl, rfl, rfl, rfl, rfl, rfl, rfl, rfl, rfl, rfl, rfl, rfl, rfl, rfl, rfl, rfl, rfl, rfl, rfl⟩

@[simp] theorem mark_fields (s : State) (l : Label) :
    (s.mark l).cfg = s.cfg ∧
    (s.mark l).cmd = s.cmd ∧
    (s.mark l).status = s.status ∧
    (s.mark l).arg = s.arg ∧
    (s.mark l).res = s.res ∧
    (s.mark l).nc = s.nc ∧
    (s.mark l).pend = s.pend ∧
    (s.mark l).ut = s.ut ∧
    (s.mark l).ipId = s.ipId ∧
    (s.mark l).slots = s.slots ∧
    (s.mark l).txt = s.txt ∧
    (s.mark l).held = s.held ∧
    (s.mark l).hostMem = s.hostMem ∧
    (s.mark l).host = s.host ∧
    (s.mark l).bus = s.bus ∧
    (s.mark l).env = s.env ∧
    (s.mark l).calls = s.calls ∧
    (s.mark l).labels = s.labels ++ [l] ∧
    (s.mark l).fresh = s.fresh :=
  ⟨rfl, rfl, rfl, rfl, rfl, rfl, rfl, rfl, rfl, rfl, rfl, rfl, rfl, rfl, rfl, rfl, rfl, rfl, rfl⟩

@[simp] theorem setNcConfig_fields (s : State) (c : IpConfig) :
    (s.setNcConfig c).cfg = s.cfg ∧
    (s.setNcConfig c).cmd = s.cmd ∧
    (s.setNcConfig c).status = s.status ∧
    (s.setNcConfig c).arg = s.arg ∧
    (s.setNcConfig c).res = s.res ∧
    (s.setNcConfig c).nc = { s.nc with cfg := c } ∧
    (s.setNcConfig c).pend = s.pend ∧
    (s.setNcConfig c).ut = s.ut ∧
    (s.setNcConfig c).ipId = s.ipId ∧
    (s.setNcConfig c).slots = s.slots ∧
    (s.setNcConfig c).txt = s.txt ∧
    (s.setNcConfig c).held = s.held ∧
    (s.setNcConfig c).hostMem = s.hostMem ∧
    (s.setNcConfig c).host = s.host ∧
    (s.setNcConfig c).bus = s.bus ∧
    (s.setNcConfig c).env = s.env ∧
    (s.setNcConfig c).calls = s.calls ∧
    (s.setNcConfig c).labels = s.labels ∧
    (s.setNcConfig c).fresh = s.fresh :=
  ⟨rfl, rfl, rfl, rfl, rfl, rfl, rfl, rfl, rfl, rfl, rfl, rfl, rfl, rfl, rfl, rfl, rfl, rfl, rfl⟩

@[simp] theorem setMode_fields (s : State) (d z : Bool) :
    (s.setMode d z).cfg = s.cfg ∧
    (s.setMode d z).cmd = s.cmd ∧
    (s.setMode d z).status = s.status ∧
    (s.setMode d z).arg = s.arg ∧
    (s.setMode d z).res = s.res ∧
    (s.setMode d z).nc = { s.nc with dhcpActive := d, zcActive := z } ∧
    (s.setMode d z).pend = s.pend ∧
    (s.setMode d z).ut = s.ut ∧
    (s.setMode d z).ipId = s.ipId ∧
    (s.setMode d z).slots = s.slots ∧
    (s.setMode d z).txt = s.txt ∧
    (s.setMode d z).held = s.held ∧
    (s.setMode d z).hostMem = s.hostMem ∧
    (s.setMode d z).host = s.host ∧
    (s.setMode d z).bus = s.bus ∧
    (s.setMode d z).env = s.env ∧
    (s.setMode d z).calls = s.calls ∧
    (s.setMode d z).labels = s.labels ∧
    (s.setMode d z).fresh = s.fresh :=
  ⟨rfl, rfl, rfl, rfl, rfl, rfl, rfl, rfl, rfl, rfl, rfl, rfl, rfl, rfl, rfl, rfl, rfl, rfl, rfl⟩

@[simp] theorem setPend_fields (s : State) (p : Pending) :
    (s.setPend p).cfg = s.cfg ∧
    (s.setPend p).cmd = s.cmd ∧
    (s.setPend p).status = s.status ∧
    (s.setPend p).arg = s.arg ∧
    (s.setPend p).res = s.res ∧
    (s.setPend p).nc = s.nc ∧
    (s.setPend p).pend = p ∧
    (s.setPend p).ut = s.ut ∧
    (s.setPend p).ipId = s.ipId ∧
    (s.setPend p).slots = s.slots ∧
    (s.setPend p).txt = s.txt ∧
    (s.setPend p).held = s.held ∧
    (s.setPend p).hostMem = s.hostMem ∧
    (s.setPend p).host = s.host ∧
    (s.setPend p).bus = s.bus ∧
    (s.setPend p).env = s.env ∧
    (s.setPend p).calls = s.calls ∧
    (s.setPend p).labels = s.labels ∧
    (s.setPend p).fresh = s.fresh :=
  ⟨rfl, rfl, rfl, rfl, rfl, rfl, rfl, rfl, rfl, rfl, rfl, rfl, rfl, rfl, rfl, rfl, rfl, rfl, rfl⟩

@[simp] theorem setUt_fields (s : State) (u : UtMasks) :
    (s.setUt u).cfg = s.cfg ∧
    (s.setUt u).cmd = s.cmd ∧
    (s.setUt u).status = s.status ∧
    (s.setUt u).arg = s.arg ∧
    (s.setUt u).res = s.res ∧
    (s.setUt u).nc = s.nc ∧
    (s.setUt u).pend = s.pend ∧
    (s.setUt u).ut = u ∧
    (s.setUt u).ipId = s.ipId ∧
    (s.setUt u).slots = s.slots ∧
    (s.setUt u).txt = s.txt ∧
    (s.setUt u).held = s.held ∧
    (s.setUt u).hostMem = s.hostMem ∧
    (s.setUt u).host = s.host ∧
    (s.setUt u).bus = s.bus ∧
    (s.setUt u).env = s.env ∧
    (s.setUt u).calls = s.calls ∧
    (s.setUt u).labels = s.labels ∧
    (s.setUt u).fresh = s.fresh :=
  ⟨rfl, rfl, rfl, rfl, rfl, rfl, rfl, rfl, rfl, rfl, rfl, rfl, rfl, rfl, rfl, rfl, rfl, rfl, rfl⟩

@[simp] theorem setIpId_fields (s : State) (v : Half) :
    (s.setIpId v).cfg = s.cfg ∧
    (s.setIpId v).cmd = s.cmd ∧
    (s.setIpId v).status = s.status ∧
    (s.setIpId v).arg = s.arg ∧
    (s.setIpId v).res = s.res ∧
    (s.setIpId v).nc = s.nc ∧
    (s.setIpId v).pend = s.pend ∧
    (s.setIpId v).ut = s.ut ∧
    (s.setIpId v).ipId = v ∧
    (s.setIpId v).slots = s.slots ∧
    (s.setIpId v).txt = s.txt ∧
    (s.setIpId v).held = s.held ∧
    (s.setIpId v).hostMem = s.hostMem ∧
    (s.setIpId v).host = s.host ∧
    (s.setIpId v).bus = s.bus ∧
    (s.setIpId v).env = s.env ∧
    (s.setIpId v).calls = s.calls ∧
    (s.setIpId v).labels = s.labels ∧
    (s.setIpId v).fresh = s.fresh :=
  ⟨rfl, rfl, rfl, rfl, rfl, rfl, rfl, rfl, rfl, rfl, rfl, rfl, rfl, rfl, rfl, rfl, rfl, rfl, rfl⟩

@[simp] theorem setTxt_fields (s : State) (t : List Byte) :
    (s.setTxt t).cfg = s.cfg ∧
    (s.setTxt t).cmd = s.cmd ∧
    (s.setTxt t).status = s.status ∧
    (s.setTxt t).arg = s.arg ∧
    (s.setTxt t).res = s.res ∧
    (s.setTxt t).nc = s.nc ∧
    (s.setTxt t).pend = s.pend ∧
    (s.setTxt t).ut = s.ut ∧
    (s.setTxt t).ipId = s.ipId ∧
    (s.setTxt t).slots = s.slots ∧
    (s.setTxt t).txt = t ∧
    (s.setTxt t).held = s.held ∧
    (s.setTxt t).hostMem = s.hostMem ∧
    (s.setTxt t).host = s.host ∧
    (s.setTxt t).bus = s.bus ∧
    (s.setTxt t).env = s.env ∧
    (s.setTxt t).calls = s.calls ∧
    (s.setTxt t).labels = s.labels ∧
    (s.setTxt t).fresh = s.fresh :=
  ⟨rfl, rfl, rfl, rfl, rfl, rfl, rfl, rfl, rfl, rfl, rfl, rfl, rfl, rfl, rfl, rfl, rfl, rfl, rfl⟩

@[simp] theorem setMem_fields (s : State) (m : Memory) :
    (s.setMem m).cfg = s.cfg ∧
    (s.setMem m).cmd = s.cmd ∧
    (s.setMem m).status = s.status ∧
    (s.setMem m).arg = s.arg ∧
    (s.setMem m).res = s.res ∧
    (s.setMem m).nc = s.nc ∧
    (s.setMem m).pend = s.pend ∧
    (s.setMem m).ut = s.ut ∧
    (s.setMem m).ipId = s.ipId ∧
    (s.setMem m).slots = s.slots ∧
    (s.setMem m).txt = s.txt ∧
    (s.setMem m).held = s.held ∧
    (s.setMem m).hostMem = m ∧
    (s.setMem m).host = s.host ∧
    (s.setMem m).bus = s.bus ∧
    (s.setMem m).env = s.env ∧
    (s.setMem m).calls = s.calls ∧
    (s.setMem m).labels = s.labels ∧
    (s.setMem m).fresh = s.fresh :=
  ⟨rfl, rfl, rfl, rfl, rfl, rfl, rfl, rfl, rfl, rfl, rfl, rfl, rfl, rfl, rfl, rfl, rfl, rfl, rfl⟩

@[simp] theorem setHeld_fields (s : State) (h : Option Held) :
    (s.setHeld h).cfg = s.cfg ∧
    (s.setHeld h).cmd = s.cmd ∧
    (s.setHeld h).status = s.status ∧
    (s.setHeld h).arg = s.arg ∧
    (s.setHeld h).res = s.res ∧
    (s.setHeld h).nc = s.nc ∧
    (s.setHeld h).pend = s.pend ∧
    (s.setHeld h).ut = s.ut ∧
    (s.setHeld h).ipId = s.ipId ∧
    (s.setHeld h).slots = s.slots ∧
    (s.setHeld h).txt = s.txt ∧
    (s.setHeld h).held = h ∧
    (s.setHeld h).hostMem = s.hostMem ∧
    (s.setHeld h).host = s.host ∧
    (s.setHeld h).bus = s.bus ∧
    (s.setHeld h).env = s.env ∧
    (s.setHeld h).calls = s.calls ∧
    (s.setHeld h).labels = s.labels ∧
    (s.setHeld h).fresh = s.fresh :=
  ⟨rfl, rfl, rfl, rfl, rfl, rfl, rfl, rfl, rfl, rfl, rfl, rfl, rfl, rfl, rfl, rfl, rfl, rfl, rfl⟩

@[simp] theorem drew_fields (s : State) (n : Nat) :
    (s.drew n).cfg = s.cfg ∧
    (s.drew n).cmd = s.cmd ∧
    (s.drew n).status = s.status ∧
    (s.drew n).arg = s.arg ∧
    (s.drew n).res = s.res ∧
    (s.drew n).nc = s.nc ∧
    (s.drew n).pend = s.pend ∧
    (s.drew n).ut = s.ut ∧
    (s.drew n).ipId = s.ipId ∧
    (s.drew n).slots = s.slots ∧
    (s.drew n).txt = s.txt ∧
    (s.drew n).held = s.held ∧
    (s.drew n).hostMem = s.hostMem ∧
    (s.drew n).host = s.host ∧
    (s.drew n).bus = s.bus ∧
    (s.drew n).env = s.env ∧
    (s.drew n).calls = s.calls ∧
    (s.drew n).labels = s.labels ∧
    (s.drew n).fresh = s.fresh + n :=
  ⟨rfl, rfl, rfl, rfl, rfl, rfl, rfl, rfl, rfl, rfl, rfl, rfl, rfl, rfl, rfl, rfl, rfl, rfl, rfl⟩

@[simp] theorem setSlot_fields (s : State) (i : Nat) (sl : Slot) :
    (s.setSlot i sl).cfg = s.cfg ∧
    (s.setSlot i sl).cmd = s.cmd ∧
    (s.setSlot i sl).status = s.status ∧
    (s.setSlot i sl).arg = s.arg ∧
    (s.setSlot i sl).res = s.res ∧
    (s.setSlot i sl).nc = s.nc ∧
    (s.setSlot i sl).pend = s.pend ∧
    (s.setSlot i sl).ut = s.ut ∧
    (s.setSlot i sl).ipId = s.ipId ∧
    (s.setSlot i sl).slots = s.slots.set i sl ∧
    (s.setSlot i sl).txt = s.txt ∧
    (s.setSlot i sl).held = s.held ∧
    (s.setSlot i sl).hostMem = s.hostMem ∧
    (s.setSlot i sl).host = s.host ∧
    (s.setSlot i sl).bus = s.bus ∧
    (s.setSlot i sl).env = s.env ∧
    (s.setSlot i sl).calls = s.calls ∧
    (s.setSlot i sl).labels = s.labels ∧
    (s.setSlot i sl).fresh = s.fresh :=
  ⟨rfl, rfl, rfl, rfl, rfl, rfl, rfl, rfl, rfl, rfl, rfl, rfl, rfl, rfl, rfl, rfl, rfl, rfl, rfl⟩

@[simp] theorem raise_fields (s : State) (c : Status) :
    (s.raise c).cfg = s.cfg ∧
    (s.raise c).cmd = s.cmd ∧
    (s.raise c).status = c ∧
    (s.raise c).arg = s.arg ∧
    (s.raise c).res = s.res ∧
    (s.raise c).nc = s.nc ∧
    (s.raise c).pend = s.pend ∧
    (s.raise c).ut = s.ut ∧
    (s.raise c).ipId = s.ipId ∧
    (s.raise c).slots = s.slots ∧
    (s.raise c).txt = s.txt ∧
    (s.raise c).held = s.held ∧
    (s.raise c).hostMem = s.hostMem ∧
    (s.raise c).host = s.host ∧
    (s.raise c).bus = s.bus ∧
    (s.raise c).env = s.env ∧
    (s.raise c).calls = s.calls ∧
    (s.raise c).labels = s.labels ∧
    (s.raise c).fresh = s.fresh :=
  ⟨rfl, rfl, rfl, rfl, rfl, rfl, rfl, rfl, rfl, rfl, rfl, rfl, rfl, rfl, rfl, rfl, rfl, rfl, rfl⟩

@[simp] theorem setCmd_fields (s : State) (w : Word) :
    (s.setCmd w).cfg = s.cfg ∧
    (s.setCmd w).cmd = w ∧
    (s.setCmd w).status = s.status ∧
    (s.setCmd w).arg = s.arg ∧
    (s.setCmd w).res = s.res ∧
    (s.setCmd w).nc = s.nc ∧
    (s.setCmd w).pend = s.pend ∧
    (s.setCmd w).ut = s.ut ∧
    (s.setCmd w).ipId = s.ipId ∧
    (s.setCmd w).slots = s.slots ∧
    (s.setCmd w).txt = s.txt ∧
    (s.setCmd w).held = s.held ∧
    (s.setCmd w).hostMem = s.hostMem ∧
    (s.setCmd w).host = s.host ∧
    (s.setCmd w).bus = s.bus ∧
    (s.setCmd w).env = s.env ∧
    (s.setCmd w).calls = s.calls ∧
    (s.setCmd w).labels = s.labels ∧
    (s.setCmd w).fresh = s.fresh :=
  ⟨rfl, rfl, rfl, rfl, rfl, rfl, rfl, rfl, rfl, rfl, rfl, rfl, rfl, rfl, rfl, rfl, rfl, rfl, rfl⟩

@[simp] theorem setHost_fields (s : State) (acts : List HostAction) :
    (s.setHost acts).cfg = s.cfg ∧
    (s.setHost acts).cmd = s.cmd ∧
    (s.setHost acts).status = s.status ∧
    (s.setHost acts).arg = s.arg ∧
    (s.setHost acts).res = s.res ∧
    (s.setHost acts).nc = s.nc ∧
    (s.setHost acts).pend = s.pend ∧
    (s.setHost acts).ut = s.ut ∧
    (s.setHost acts).ipId = s.ipId ∧
    (s.setHost acts).slots = s.slots ∧
    (s.setHost acts).txt = s.txt ∧
    (s.setHost acts).held = s.held ∧
    (s.setHost acts).hostMem = s.hostMem ∧
    (s.setHost acts).host = acts ∧
    (s.setHost acts).bus = s.bus ∧
    (s.setHost acts).env = s.env ∧
    (s.setHost acts).calls = s.calls ∧
    (s.setHost acts).labels = s.labels ∧
    (s.setHost acts).fresh = s.fresh :=
  ⟨rfl, rfl, rfl, rfl, rfl, rfl, rfl, rfl, rfl, rfl, rfl, rfl, rfl, rfl, rfl, rfl, rfl, rfl, rfl⟩

@[simp] theorem setArg_fields (s : State) (k : Fin 8) (v : Word) :
    (s.setArg k v).cfg = s.cfg ∧
    (s.setArg k v).cmd = s.cmd ∧
    (s.setArg k v).status = s.status ∧
    (s.setArg k v).arg = s.arg.set k.val v k.isLt ∧
    (s.setArg k v).res = s.res ∧
    (s.setArg k v).nc = s.nc ∧
    (s.setArg k v).pend = s.pend ∧
    (s.setArg k v).ut = s.ut ∧
    (s.setArg k v).ipId = s.ipId ∧
    (s.setArg k v).slots = s.slots ∧
    (s.setArg k v).txt = s.txt ∧
    (s.setArg k v).held = s.held ∧
    (s.setArg k v).hostMem = s.hostMem ∧
    (s.setArg k v).host = s.host ∧
    (s.setArg k v).bus = s.bus ∧
    (s.setArg k v).env = s.env ∧
    (s.setArg k v).calls = s.calls ∧
    (s.setArg k v).labels = s.labels ∧
    (s.setArg k v).fresh = s.fresh :=
  ⟨rfl, rfl, rfl, rfl, rfl, rfl, rfl, rfl, rfl, rfl, rfl, rfl, rfl, rfl, rfl, rfl, rfl, rfl, rfl⟩

@[simp] theorem returns_fields (s : State) (v : Word) :
    (s.returns v).cfg = s.cfg ∧
    (s.returns v).cmd = s.cmd ∧
    (s.returns v).status = s.status ∧
    (s.returns v).arg = s.arg ∧
    (s.returns v).res = s.res ∧
    (s.returns v).nc = s.nc ∧
    (s.returns v).pend = s.pend ∧
    (s.returns v).ut = s.ut ∧
    (s.returns v).ipId = s.ipId ∧
    (s.returns v).slots = s.slots ∧
    (s.returns v).txt = s.txt ∧
    (s.returns v).held = s.held ∧
    (s.returns v).hostMem = s.hostMem ∧
    (s.returns v).host = s.host ∧
    (s.returns v).bus = s.bus ++ [v] ∧
    (s.returns v).env = s.env ∧
    (s.returns v).calls = s.calls ∧
    (s.returns v).labels = s.labels ∧
    (s.returns v).fresh = s.fresh :=
  ⟨rfl, rfl, rfl, rfl, rfl, rfl, rfl, rfl, rfl, rfl, rfl, rfl, rfl, rfl, rfl, rfl, rfl, rfl, rfl⟩

@[simp] theorem touch_fields (s : State) (t : Touch) :
    (s.touch t).cfg = s.cfg ∧
    (s.touch t).cmd = s.cmd ∧
    (s.touch t).status = s.status ∧
    (s.touch t).arg = s.arg ∧
    (s.touch t).res = s.res ∧
    (s.touch t).nc = s.nc ∧
    (s.touch t).pend = s.pend ∧
    (s.touch t).ut = s.ut ∧
    (s.touch t).ipId = t.ipId.getD s.ipId ∧
    (s.touch t).slots = t.entries.foldl (writeFreeEntry s.cfg) s.slots ∧
    (s.touch t).txt = t.perSend.elim s.txt (mergePerSend 0 s.txt) ∧
    (s.touch t).held = s.held ∧
    (s.touch t).hostMem = s.hostMem ∧
    (s.touch t).host = s.host ∧
    (s.touch t).bus = s.bus ∧
    (s.touch t).env = s.env ∧
    (s.touch t).calls = s.calls ++ t.sent.map .fioTransmit ∧
    (s.touch t).labels = s.labels ∧
    (s.touch t).fresh = s.fresh :=
  ⟨rfl, rfl, rfl, rfl, rfl, rfl, rfl, rfl, rfl, rfl, rfl, rfl, rfl, rfl, rfl, rfl, rfl, rfl, rfl⟩

@[simp] theorem afterRecv_fields (s : State) :
    (afterRecv s).cfg = s.cfg ∧
    (afterRecv s).cmd = s.cmd ∧
    (afterRecv s).status = s.status ∧
    (afterRecv s).arg = s.arg ∧
    (afterRecv s).res = s.res ∧
    (afterRecv s).nc = s.nc ∧
    (afterRecv s).pend = s.pend ∧
    (afterRecv s).ut = s.ut ∧
    (afterRecv s).ipId = s.ipId ∧
    (afterRecv s).slots = s.slots ∧
    (afterRecv s).txt = s.txt ∧
    (afterRecv s).held = s.held ∧
    (afterRecv s).hostMem = s.hostMem ∧
    (afterRecv s).host = s.host ∧
    (afterRecv s).bus = s.bus ∧
    (afterRecv s).env = { s.env with rx := s.env.rx.tail } ∧
    (afterRecv s).calls = s.calls ++ [.fioRecv] ∧
    (afterRecv s).labels = s.labels ∧
    (afterRecv s).fresh = s.fresh + 1 :=
  ⟨rfl, rfl, rfl, rfl, rfl, rfl, rfl, rfl, rfl, rfl, rfl, rfl, rfl, rfl, rfl, rfl, rfl, rfl, rfl⟩

@[simp] theorem afterLookup_fields (s : State) (ip : Word) :
    (afterLookup s ip).cfg = s.cfg ∧
    (afterLookup s ip).cmd = s.cmd ∧
    (afterLookup s ip).status = s.status ∧
    (afterLookup s ip).arg = s.arg ∧
    (afterLookup s ip).res = s.res ∧
    (afterLookup s ip).nc = s.nc ∧
    (afterLookup s ip).pend = s.pend ∧
    (afterLookup s ip).ut = s.ut ∧
    (afterLookup s ip).ipId = s.ipId ∧
    (afterLookup s ip).slots = s.slots ∧
    (afterLookup s ip).txt = s.txt ∧
    (afterLookup s ip).held = s.held ∧
    (afterLookup s ip).hostMem = s.hostMem ∧
    (afterLookup s ip).host = s.host ∧
    (afterLookup s ip).bus = s.bus ∧
    (afterLookup s ip).env = { s.env with arp := s.env.arp.tail } ∧
    (afterLookup s ip).calls = s.calls ++ [.arLookup ip] ∧
    (afterLookup s ip).labels = s.labels ∧
    (afterLookup s ip).fresh = s.fresh + 1 :=
  ⟨rfl, rfl, rfl, rfl, rfl, rfl, rfl, rfl, rfl, rfl, rfl, rfl, rfl, rfl, rfl, rfl, rfl, rfl, rfl⟩

@[simp] theorem afterIplHandle_fields (s : State) (f : Frame) :
    (afterIplHandle s f).cfg = s.cfg ∧
    (afterIplHandle s f).cmd = s.cmd ∧
    (afterIplHandle s f).status = s.status ∧
    (afterIplHandle s f).arg = s.arg ∧
    (afterIplHandle s f).res = s.res ∧
    (afterIplHandle s f).nc = s.nc ∧
    (afterIplHandle s f).pend = s.pend ∧
    (afterIplHandle s f).ut = s.ut ∧
    (afterIplHandle s f).ipId = s.ipId ∧
    (afterIplHandle s f).slots = s.slots ∧
    (afterIplHandle s f).txt = s.txt ∧
    (afterIplHandle s f).held = s.held ∧
    (afterIplHandle s f).hostMem = s.hostMem ∧
    (afterIplHandle s f).host = s.host ∧
    (afterIplHandle s f).bus = s.bus ∧
    (afterIplHandle s f).env = { s.env with ipl := s.env.ipl.tail } ∧
    (afterIplHandle s f).calls = s.calls ++ [.iplHandle f] ∧
    (afterIplHandle s f).labels = s.labels ∧
    (afterIplHandle s f).fresh = s.fresh + 1 :=
  ⟨rfl, rfl, rfl, rfl, rfl, rfl, rfl, rfl, rfl, rfl, rfl, rfl, rfl, rfl, rfl, rfl, rfl, rfl, rfl⟩

@[simp] theorem afterAcquire_fields (s : State) :
    (afterAcquire s).cfg = s.cfg ∧
    (afterAcquire s).cmd = s.cmd ∧
    (afterAcquire s).status = s.status ∧
    (afterAcquire s).arg = s.arg ∧
    (afterAcquire s).res = s.res ∧
    (afterAcquire s).nc = s.nc ∧
    (afterAcquire s).pend = s.pend ∧
    (afterAcquire s).ut = s.ut ∧
    (afterAcquire s).ipId = ((dhcpAnswer s).2).ipId.getD s.ipId ∧
    (afterAcquire s).slots = ((dhcpAnswer s).2).entries.foldl (writeFreeEntry s.cfg) s.slots ∧
    (afterAcquire s).txt = ((dhcpAnswer s).2).perSend.elim s.txt (mergePerSend 0 s.txt) ∧
    (afterAcquire s).held = s.held ∧
    (afterAcquire s).hostMem = s.hostMem ∧
    (afterAcquire s).host = s.host ∧
    (afterAcquire s).bus = s.bus ∧
    (afterAcquire s).env = { s.env with dhcp := s.env.dhcp.tail } ∧
    (afterAcquire s).calls = (s.calls ++ [.dhcpAcquire s.nc.mac s.nc.hostname]) ++ ((dhcpAnswer s).2).sent.map .fioTransmit ∧
    (afterAcquire s).labels = s.labels ∧
    (afterAcquire s).fresh = s.fresh + 1 :=
  ⟨rfl, rfl, rfl, rfl, rfl, rfl, rfl, rfl, rfl, rfl, rfl, rfl, rfl, rfl, rfl, rfl, rfl, rfl, rfl⟩

@[simp] theorem afterNegotiate_fields (s : State) :
    (afterNegotiate s).cfg = s.cfg ∧
    (afterNegotiate s).cmd = s.cmd ∧
    (afterNegotiate s).status = s.status ∧
    (afterNegotiate s).arg = s.arg ∧
    (afterNegotiate s).res = s.res ∧
    (afterNegotiate s).nc = s.nc ∧
    (afterNegotiate s).pend = s.pend ∧
    (afterNegotiate s).ut = s.ut ∧
    (afterNegotiate s).ipId = ((zcAnswer s).2).ipId.getD s.ipId ∧
    (afterNegotiate s).slots = ((zcAnswer s).2).entries.foldl (writeFreeEntry s.cfg) s.slots ∧
    (afterNegotiate s).txt = ((zcAnswer s).2).perSend.elim s.txt (mergePerSend 0 s.txt) ∧
    (afterNegotiate s).held = s.held ∧
    (afterNegotiate s).hostMem = s.hostMem ∧
    (afterNegotiate s).host = s.host ∧
    (afterNegotiate s).bus = s.bus ∧
    (afterNegotiate s).env = { s.env with zc := s.env.zc.tail } ∧
    (afterNegotiate s).calls = (s.calls ++ [.zcNegotiate s.nc.cfg]) ++ ((zcAnswer s).2).sent.map .fioTransmit ∧
    (afterNegotiate s).labels = s.labels ∧
    (afterNegotiate s).fresh = s.fresh + 1 :=
  ⟨rfl, rfl, rfl, rfl, rfl, rfl, rfl, rfl, rfl, rfl, rfl, rfl, rfl, rfl, rfl, rfl, rfl, rfl, rfl⟩

@[simp] theorem runTimers_fields (s : State) :
    (runTimers s).cfg = s.cfg ∧
    (runTimers s).cmd = s.cmd ∧
    (runTimers s).status = s.status ∧
    (runTimers s).arg = s.arg ∧
    (runTimers s).res = s.res ∧
    (runTimers s).nc = s.nc ∧
    (runTimers s).pend = s.pend ∧
    (runTimers s).ut = s.ut ∧
    (runTimers s).ipId = (timerTouch s).ipId.getD s.ipId ∧
    (runTimers s).slots = (timerTouch s).entries.foldl (writeFreeEntry s.cfg) s.slots ∧
    (runTimers s).txt = (timerTouch s).perSend.elim s.txt (mergePerSend 0 s.txt) ∧
    (runTimers s).held = s.held ∧
    (runTimers s).hostMem = s.hostMem ∧
    (runTimers s).host = s.host ∧
    (runTimers s).bus = s.bus ∧
    (runTimers s).env = { s.env with tmr := s.env.tmr.tail } ∧
    (runTimers s).calls = (s.calls ++ [.tmrRun]) ++ (timerTouch s).sent.map .fioTransmit ∧
    (runTimers s).labels = s.labels ∧
    (runTimers s).fresh = s.fresh + 1 :=
  ⟨rfl, rfl, rfl, rfl, rfl, rfl, rfl, rfl, rfl, rfl, rfl, rfl, rfl, rfl, rfl, rfl, rfl, rfl, rfl⟩

@[simp] theorem loadTransport_fields (s : State) (c : IpConfig) :
    (loadTransport s c).cfg = s.cfg ∧
    (loadTransport s c).cmd = s.cmd ∧
    (loadTransport s c).status = s.status ∧
    (loadTransport s c).arg = s.arg ∧
    (loadTransport s c).res = s.res ∧
    (loadTransport s c).nc = s.nc ∧
    (loadTransport s c).pend = s.pend ∧
    (loadTransport s c).ut = utMasksOf c ∧
    (loadTransport s c).ipId = s.ipId ∧
    (loadTransport s c).slots = s.slots ∧
    (loadTransport s c).txt = putBE32 s.txt 26 c.ip ∧
    (loadTransport s c).held = s.held ∧
    (loadTransport s c).hostMem = s.hostMem ∧
    (loadTransport s c).host = s.host ∧
    (loadTransport s c).bus = s.bus ∧
    (loadTransport s c).env = s.env ∧
    (loadTransport s c).calls = s.calls ∧
    (loadTransport s c).labels = s.labels ∧
    (loadTransport s c).fresh = s.fresh :=
  ⟨rfl, rfl, rfl, rfl, rfl, rfl, rfl, rfl, rfl, rfl, rfl, rfl, rfl, rfl, rfl, rfl, rfl, rfl, rfl⟩

@[simp] theorem propagate_fields (s : State) :
    (propagate s).cfg = s.cfg ∧
    (propagate s).cmd = s.cmd ∧
    (propagate s).status = s.status ∧
    (propagate s).arg = s.arg ∧
    (propagate s).res = s.res ∧
    (propagate s).nc = s.nc ∧
    (propagate s).pend = s.pend ∧
    (propagate s).ut = utMasksOf s.nc.cfg ∧
    (propagate s).ipId = s.ipId ∧
    (propagate s).slots = s.slots ∧
    (propagate s).txt = putBE32 (putBytes s.txt 6 (macBytes s.nc.mac)) 26 s.nc.cfg.ip ∧
    (propagate s).held = s.held ∧
    (propagate s).hostMem = s.hostMem ∧
    (propagate s).host = s.host ∧
    (propagate s).bus = s.bus ∧
    (propagate s).env = s.env ∧
    (propagate s).calls = s.calls ∧
    (propagate s).labels = s.labels ∧
    (propagate s).fresh = s.fresh :=
  ⟨rfl, rfl, rfl, rfl, rfl, rfl, rfl, rfl, rfl, rfl, rfl, rfl, rfl, rfl, rfl, rfl, rfl, rfl, rfl⟩

@[simp] theorem reinit_fields (s : State) :
    (reinit s).cfg = s.cfg ∧
    (reinit s).cmd = s.cmd ∧
    (reinit s).status = s.status ∧
    (reinit s).arg = s.arg ∧
    (reinit s).res = s.res ∧
    (reinit s).nc = s.nc ∧
    (reinit s).pend = s.pend ∧
    (reinit s).ut = utMasksOf s.nc.cfg ∧
    (reinit s).ipId = s.ipId ∧
    (reinit s).slots = s.slots ∧
    (reinit s).txt = putBE32 (putBytes s.txt 6 (macBytes s.nc.mac)) 26 s.nc.cfg.ip ∧
    (reinit s).held = s.held ∧
    (reinit s).hostMem = s.hostMem ∧
    (reinit s).host = s.host ∧
    (reinit s).bus = s.bus ∧
    (reinit s).env = s.env ∧
    (reinit s).calls = s.calls ++ [.arReinit s.nc.mac s.nc.cfg] ++ [.iplReinit s.nc.mac s.nc.cfg] ∧
    (reinit s).labels = s.labels ∧
    (reinit s).fresh = s.fresh :=
  by simp [reinit]

end Sys2Proof.Machine
end

