-- ==== Sys2Proof/Laws/Invariant.lean ====
section
/-! SUPPORT. Each shared operation keeps the invariants of Safety.lean: one law per operation, cited by
the proofs about instructions instead of unfolding it. -/

namespace Sys2Proof.Machine

/-- The invariants read these fields only. -/
theorem State.Inv.of_same {s t : State} (h : s.Inv) (cfg : t.cfg = s.cfg) (nc : t.nc = s.nc)
    (pend : t.pend = s.pend) (slots : t.slots = s.slots) (txt : t.txt = s.txt)
    (mem : t.hostMem = s.hostMem) : t.Inv := by
  obtain ⟨h1, h2, h3, h4, h5, h6, h7, h8, h9, h10⟩ := h
  constructor <;> simp only [cfg, nc, pend, slots, txt, mem] <;> assumption

theorem setRes_inv {s : State} (h : s.Inv) (k : Fin 4) (v : Word) : (s.setRes k v).Inv :=
  h.of_same rfl rfl rfl rfl rfl rfl

theorem setStatus_inv {s : State} (h : s.Inv) (c : Status) : (s.setStatus c).Inv :=
  h.of_same rfl rfl rfl rfl rfl rfl

theorem record_inv {s : State} (h : s.Inv) (c : Call) : (s.record c).Inv :=
  h.of_same rfl rfl rfl rfl rfl rfl

theorem mark_inv {s : State} (h : s.Inv) (l : Label) : (s.mark l).Inv :=
  h.of_same rfl rfl rfl rfl rfl rfl

theorem setHeld_inv {s : State} (h : s.Inv) (x : Option Held) : (s.setHeld x).Inv :=
  h.of_same rfl rfl rfl rfl rfl rfl

theorem drew_inv {s : State} (h : s.Inv) (n : Nat) : (s.drew n).Inv :=
  h.of_same rfl rfl rfl rfl rfl rfl

theorem setUt_inv {s : State} (h : s.Inv) (u : UtMasks) : (s.setUt u).Inv :=
  h.of_same rfl rfl rfl rfl rfl rfl

theorem setIpId_inv {s : State} (h : s.Inv) (v : Half) : (s.setIpId v).Inv :=
  h.of_same rfl rfl rfl rfl rfl rfl

theorem setNcConfig_inv {s : State} (h : s.Inv) (c : IpConfig) : (s.setNcConfig c).Inv := by
  obtain ⟨h1, h2, h3, h4, h5, h6, h7, h8, h9, h10⟩ := h
  constructor <;> assumption

theorem setMode_inv {s : State} (h : s.Inv) {d z : Bool} (hd : ¬ (d = true ∧ z = true)) :
    (s.setMode d z).Inv := by
  obtain ⟨h1, h2, h3, h4, h5, h6, h7, h8, h9, h10⟩ := h
  constructor <;> assumption

theorem setPend_inv {s : State} (h : s.Inv) {p : Pending}
    (hp : ¬ (p.mask.getLsbD 3 = true ∧ p.mask.getLsbD 4 = true)) : (s.setPend p).Inv := by
  obtain ⟨h1, h2, h3, h4, h5, h6, h7, h8, h9, h10⟩ := h
  constructor <;> assumption

theorem setMem_inv {s : State} (h : s.Inv) {m : Memory} (hm : m.wf = true) : (s.setMem m).Inv := by
  obtain ⟨h1, h2, h3, h4, h5, h6, h7, h8, h9, h10⟩ := h
  constructor <;> assumption

theorem setTxt_inv {s : State} (h : s.Inv) {t : List Byte} (hl : t.length = s.txt.length)
    (hc : ConstantBytes s.cfg t) : (s.setTxt t).Inv := by
  obtain ⟨h1, h2, h3, h4, h5, h6, h7, h8, h9, h10⟩ := h
  constructor <;> first | assumption | exact hl.trans h8

/-- An overwrite of the template that meets none of its constant bytes. -/
theorem ConstantBytes.putBytes {c : Config} {t : List Byte} (h : ConstantBytes c t) {o : Nat}
    {vs : List Byte}
    (hr : o + vs.length ≤ 12 ∨ (16 ≤ o ∧ o + vs.length ≤ 20) ∨ (24 ≤ o ∧ o + vs.length ≤ 40) ∨
      42 ≤ o) : ConstantBytes c (putBytes t o vs) where
  ethertype := by rw [be16_putBytes_outside (by omega)]; exact h.ethertype
  version := by rw [byteAt_putBytes_outside (by omega)]; exact h.version
  tos := by rw [byteAt_putBytes_outside (by omega)]; exact h.tos
  flagsFrag := by rw [be16_putBytes_outside (by omega)]; exact h.flagsFrag
  ttl := by rw [byteAt_putBytes_outside (by omega)]; exact h.ttl
  protocol := by rw [byteAt_putBytes_outside (by omega)]; exact h.protocol
  udpChecksum := by rw [be16_putBytes_outside (by omega)]; exact h.udpChecksum

/-- The per-send bytes are none of the constant ones. -/
theorem ConstantBytes.mergePerSend {c : Config} {t : List Byte} (h : ConstantBytes c t)
    (vs : List Byte) : ConstantBytes c (mergePerSend 0 t vs) where
  ethertype := by
    rw [be16, byteAt_mergePerSend (by decide), byteAt_mergePerSend (by decide)]; exact h.ethertype
  version := by rw [byteAt_mergePerSend (by decide)]; exact h.version
  tos := by rw [byteAt_mergePerSend (by decide)]; exact h.tos
  flagsFrag := by
    rw [be16, byteAt_mergePerSend (by decide), byteAt_mergePerSend (by decide)]; exact h.flagsFrag
  ttl := by rw [byteAt_mergePerSend (by decide)]; exact h.ttl
  protocol := by rw [byteAt_mergePerSend (by decide)]; exact h.protocol
  udpChecksum := by
    rw [be16, byteAt_mergePerSend (by decide), byteAt_mergePerSend (by decide)]
    exact h.udpChecksum

/-- The port table after one slot is written: what the invariants need of the new slot. -/
theorem setSlot_inv {s : State} (h : s.Inv) {i : Nat} {sl : Slot} (ok : sl.Ok s.cfg)
    (hp : sl.port ≠ 0 → ∀ j x, s.slots[j]? = some x → j ≠ i → x.port ≠ sl.port) :
    (s.setSlot i sl).Inv := by
  obtain ⟨h1, h2, h3, h4, h5, h6, h7, h8, h9, h10⟩ := h
  refine ⟨h1, h2, h3, h4, by simp [h5], ?_, ?_, h8, h9, h10⟩
  · intro x hx
    rcases List.mem_or_eq_of_mem_set hx with hx | rfl
    · exact h6 x hx
    · exact ok
  · simp only [portsUnique, setSlot_fields, List.pairwise_iff_getElem, List.length_set] at h7 ⊢
    intro a b ha hb hab
    have h7' := h7 a b ha hb hab
    simp only [List.getElem_set]
    by_cases hia : i = a
    · subst hia
      rw [if_pos rfl, if_neg (by omega)]
      exact fun h0 => (hp h0 b _ (List.getElem?_eq_getElem hb) (by omega)).symm
    · rw [if_neg hia]
      by_cases hib : i = b
      · subst hib
        rw [if_pos rfl]
        intro h0 heq
        exact hp (heq ▸ h0) a _ (List.getElem?_eq_getElem ha) (by omega) heq
      · rw [if_neg hib]
        exact h7'

/-- In a table with unique ports, no other slot has the port of a bound slot. -/
theorem unique_of_inv {s : State} (h : s.Inv) {i j : Nat} {x y : Slot}
    (hi : s.slots[i]? = some x) (hj : s.slots[j]? = some y) (hx : x.port ≠ 0) (hij : j ≠ i) :
    y.port ≠ x.port := by
  have hu := h.unique
  simp only [portsUnique, List.pairwise_iff_getElem] at hu
  obtain ⟨hil, rfl⟩ := List.getElem?_eq_some_iff.mp hi
  obtain ⟨hjl, rfl⟩ := List.getElem?_eq_some_iff.mp hj
  rcases Nat.lt_or_gt_of_ne hij with hlt | hgt
  · intro heq
    exact hu j i hjl hil hlt (heq ▸ hx) heq
  · exact (hu i j hil hjl hgt hx).symm

/-- A slot is replaced by a well-formed one with the same port, or by a free one. -/
theorem setSlot_samePort_inv {s : State} (h : s.Inv) {i : Nat} {sl : Slot}
    (ok : sl.Ok s.cfg) (hi : i < s.slots.length) (hp : sl.port = (s.slot i).port ∨ sl.port = 0) :
    (s.setSlot i sl).Inv := by
  apply setSlot_inv h ok
  intro h0 j x hx hj
  rcases hp with hp | hp
  · have hs : s.slots[i]? = some (s.slot i) := by
      rw [State.slot, List.getD_eq_getElem?_getD, List.getElem?_eq_getElem hi, Option.getD_some]
    rw [hp]
    exact unique_of_inv h hs hx (by rwa [← hp]) hj
  · exact absurd hp h0

theorem slotsOk_get {s : State} (h : s.Inv) {i : Nat} (hi : i < s.slots.length) :
    (s.slot i).Ok s.cfg := h.slotsOk _ (slot_mem hi)

/-- A slot found by its port is the only one with it (R37). -/
theorem port_unique {s : State} (h : s.Inv) {i j : Nat} (hi : i < s.slots.length)
    (hj : j < s.slots.length) (hp : (s.slot i).port ≠ 0) (he : (s.slot j).port = (s.slot i).port) :
    j = i := by
  by_contra hij
  have gi : s.slots[i]? = some s.slots[i] := List.getElem?_eq_getElem hi
  have gj : s.slots[j]? = some s.slots[j] := List.getElem?_eq_getElem hj
  rw [slot_eq gi] at hp he
  rw [slot_eq gj] at he
  exact unique_of_inv h gi gj hp hij he

/-- The scan of the table finds a bound slot by its port (R183, R37). -/
theorem findPort_bound {s : State} (h : s.Inv) {i : Nat} (hi : i < s.slots.length)
    (hp : (s.slot i).port ≠ 0) : findPort s.slots (s.slot i).port = some i :=
  findPort_eq_some hi rfl fun j hj he =>
    absurd (port_unique h hi (by omega) hp he) (by omega)

/-- A write to the storage of free slots keeps every slot's port and pointers. -/
theorem writeFreeEntry_get (c : Config) (slots : List Slot) (w : EntryWrite) (i : Nat) :
    (writeFreeEntry c slots w)[i]? =
      slots[i]?.map fun sl =>
        if i = w.slot ∧ sl.port = 0 then
          sl.storeAt c w.pos w.payload w.srcIp w.srcPort w.len
        else sl := by
  rw [writeFreeEntry, List.getElem?_modify]
  by_cases h : w.slot = i
  · subst h
    simp
  · simp [h, Ne.symm h]

@[simp] theorem writeFreeEntry_length (c : Config) (slots : List Slot) (w : EntryWrite) :
    (writeFreeEntry c slots w).length = slots.length := by simp [writeFreeEntry]

/-- The slots after a collaborator ran: as many as before, each with its port and pointers, and the
bound ones unchanged (R154). -/
theorem foldl_writeFreeEntry (c : Config) (ws : List EntryWrite) (slots : List Slot) :
    (ws.foldl (writeFreeEntry c) slots).length = slots.length ∧
      ∀ (i : Nat) (x : Slot), (ws.foldl (writeFreeEntry c) slots)[i]? = some x →
        ∃ y : Slot, slots[i]? = some y ∧ x.port = y.port ∧ x.head = y.head ∧ x.tail = y.tail ∧
          (y.port ≠ 0 → x = y) ∧ (y.Ok c → x.Ok c) := by
  induction ws generalizing slots with
  | nil => exact ⟨rfl, fun i x h => ⟨x, h, rfl, rfl, rfl, fun _ => rfl, id⟩⟩
  | cons w ws ih =>
    obtain ⟨hl, hx⟩ := ih (writeFreeEntry c slots w)
    refine ⟨by simpa using hl, fun i x h => ?_⟩
    obtain ⟨y, hy, e1, e2, e3, e4, e5⟩ := hx i x h
    rw [writeFreeEntry_get, Option.map_eq_some_iff] at hy
    obtain ⟨z, hz, rfl⟩ := hy
    refine ⟨z, hz, ?_⟩
    by_cases hf : i = w.slot ∧ z.port = 0
    · rw [if_pos hf] at e1 e2 e3 e5
      exact ⟨e1, e2, e3, fun h0 => absurd hf.2 h0, fun ok => e5 (storeAt_ok ok _ _ _ _ _)⟩
    · rw [if_neg hf] at e1 e2 e3 e4 e5
      exact ⟨e1, e2, e3, e4, e5⟩

/-- A collaborator that ran keeps the invariants. -/
theorem touch_inv {s : State} (h : s.Inv) (t : Touch) : (s.touch t).Inv := by
  obtain ⟨hl, hx⟩ := foldl_writeFreeEntry s.cfg t.entries s.slots
  obtain ⟨h1, h2, h3, h4, h5, h6, h7, h8, h9, h10⟩ := h
  refine ⟨h1, h2, h3, h4, hl.trans h5, ?_, ?_, ?_, ?_, h10⟩
  · intro x hxm
    obtain ⟨i, hi⟩ := List.getElem?_of_mem hxm
    obtain ⟨y, hy, -, -, -, -, hok⟩ := hx i x hi
    exact hok (h6 y (List.mem_of_getElem? hy))
  · simp only [portsUnique, touch_fields, List.pairwise_iff_getElem] at h7 ⊢
    intro a b ha hb hab
    obtain ⟨y, hy, e1, -⟩ := hx a _ (List.getElem?_eq_getElem ha)
    obtain ⟨z, hz, e2, -⟩ := hx b _ (List.getElem?_eq_getElem hb)
    obtain ⟨hal, rfl⟩ := List.getElem?_eq_some_iff.mp hy
    obtain ⟨hbl, rfl⟩ := List.getElem?_eq_some_iff.mp hz
    rw [e1, e2]
    exact h7 a b hal hbl hab
  · simp only [touch_fields]
    cases t.perSend <;> simp [h8]
  · simp only [touch_fields]
    cases t.perSend with
    | none => exact h9
    | some vs => exact h9.mergePerSend vs

theorem afterRecv_inv {s : State} (h : s.Inv) : (afterRecv s).Inv :=
  h.of_same rfl rfl rfl rfl rfl rfl

theorem afterLookup_inv {s : State} (h : s.Inv) (ip : Word) : (afterLookup s ip).Inv :=
  h.of_same rfl rfl rfl rfl rfl rfl

theorem afterIplHandle_inv {s : State} (h : s.Inv) (f : Frame) : (afterIplHandle s f).Inv :=
  h.of_same rfl rfl rfl rfl rfl rfl

theorem afterAcquire_inv {s : State} (h : s.Inv) : (afterAcquire s).Inv :=
  (touch_inv (record_inv h (.dhcpAcquire s.nc.mac s.nc.hostname)) (dhcpAnswer s).2).of_same
    rfl rfl rfl rfl rfl rfl

theorem afterNegotiate_inv {s : State} (h : s.Inv) : (afterNegotiate s).Inv :=
  (touch_inv (record_inv h (.zcNegotiate s.nc.cfg)) (zcAnswer s).2).of_same
    rfl rfl rfl rfl rfl rfl

theorem runTimers_inv {s : State} (h : s.Inv) : (runTimers s).Inv :=
  (touch_inv (record_inv h .tmrRun) (timerTouch s)).of_same rfl rfl rfl rfl rfl rfl

theorem loadTransport_inv {s : State} (h : s.Inv) (c : IpConfig) : (loadTransport s c).Inv :=
  setTxt_inv (setUt_inv h _) (by simp) (h.templateConst.putBytes (by simp))

theorem propagate_inv {s : State} (h : s.Inv) : (propagate s).Inv :=
  loadTransport_inv (setTxt_inv h (by simp) (h.templateConst.putBytes (by simp))) _

theorem reinit_inv {s : State} (h : s.Inv) : (reinit s).Inv :=
  propagate_inv (record_inv (record_inv h _) _)

end Sys2Proof.Machine
end

