-- ==== Sys2Proof/Laws/Ops.lean ====
section
/-! SUPPORT. The end of an operation: what `complete` can answer, and that the rest of `exec` is its
meanings (spec/60_exceptions.md R280, R288; U11). -/

namespace Sys2Proof.Machine

/-- If `complete` answers a next state, it is the one it was given. -/
theorem complete_next {s t u : State} (h : complete s t = .next u) : u = t := by
  unfold complete at h
  split at h
  · cases h
  · exact (Host.Outcome.next.inj h).symm

/-- Under the contract that every call returns, `complete` answers the state it was given (R288). -/
theorem complete_of_callsReturn {s : State} (h : s.callsReturn) (t : State) :
    complete s t = .next t := by
  simp [complete, callNeverReturns, show s.env.stuckAt = none from h]

/-- `complete` never refuses. -/
theorem complete_ne_refused (s t : State) (r : Refusal) : complete s t ≠ .refused r := by
  unfold complete
  split <;> simp

/-- The answers of the oracles depend on the listed answers and the count of draws only. -/
theorem dhcpAnswer_congr {s t : State} (he : t.env.dhcp = s.env.dhcp) (hf : t.fresh = s.fresh) :
    dhcpAnswer t = dhcpAnswer s := by
  simp only [dhcpAnswer, he, hf]

theorem zcAnswer_congr {s t : State} (he : t.env.zc = s.env.zc) (hf : t.fresh = s.fresh) :
    zcAnswer t = zcAnswer s := by
  simp only [zcAnswer, he, hf]

theorem arpAnswer_congr {s t : State} (he : t.env.arp = s.env.arp) (hf : t.fresh = s.fresh) :
    arpAnswer t = arpAnswer s := by
  simp only [arpAnswer, he, hf]

theorem timerTouch_congr {s t : State} (he : t.env.tmr = s.env.tmr) (hf : t.fresh = s.fresh) :
    timerTouch t = timerTouch s := by
  simp only [timerTouch, he, hf]

end Sys2Proof.Machine
end

