-- ==== Sys2Proof/Laws/Configure.lean ====
section
/-! SUPPORT. Laws of the shared configuration steps: what a collaborator that ran may have changed
(spec/40_network_core.md R154), that `PROPAGATE` and `REINIT` make the copies agree (R141, R142), and
everything `NEGOTIATE` does (R143). -/

namespace Sys2Proof.Machine

/-- The fields after `INIT` has copied its inputs (R144). -/
@[simp] theorem initInputs_fields (s : State) :
    (initInputs s).cfg = s.cfg ∧ (initInputs s).cmd = s.cmd ∧ (initInputs s).status = s.status ∧
    (initInputs s).arg = s.arg ∧ (initInputs s).res = s.res ∧
    (initInputs s).nc.mac = s.xMac ∧ (initInputs s).nc.cfg = ⟨s.x 2, s.x 3, s.x 4⟩ ∧
    (initInputs s).nc.dhcpActive = s.xBool 5 ∧ (initInputs s).nc.zcActive = false ∧
    (initInputs s).nc.hostname =
      memRead s.hostMem (s.x 6) (min (s.x 7).toNat s.cfg.hostnameMax) ∧
    (initInputs s).pend = s.pend ∧ (initInputs s).ut = s.ut ∧ (initInputs s).ipId = s.ipId ∧
    (initInputs s).slots = s.slots ∧ (initInputs s).txt = s.txt ∧ (initInputs s).held = s.held ∧
    (initInputs s).hostMem = s.hostMem ∧ (initInputs s).host = s.host ∧
    (initInputs s).bus = s.bus ∧ (initInputs s).env = s.env ∧ (initInputs s).calls = s.calls ∧
    (initInputs s).labels = s.labels ∧ (initInputs s).fresh = s.fresh :=
  ⟨rfl, rfl, rfl, rfl, rfl, rfl, rfl, rfl, rfl, rfl, rfl, rfl, rfl, rfl, rfl, rfl, rfl, rfl, rfl, rfl,
    rfl, rfl, rfl⟩

/-- A state whose slots are those a touch leaves keeps the bound slots (R154). -/
theorem boundSlotsKept_of_touch {s t : State} (u : Touch) (hc : t.cfg = s.cfg)
    (h : t.slots = u.entries.foldl (writeFreeEntry s.cfg) s.slots) : BoundSlotsKept s t := by
  obtain ⟨hl, hx⟩ := foldl_writeFreeEntry s.cfg u.entries s.slots
  refine ⟨by rw [h, hl], fun i => ?_⟩
  rcases hi : t.slots[i]? with _ | x
  · have h2 : s.slots[i]? = none := by
      rw [List.getElem?_eq_none_iff] at hi ⊢
      rw [h, hl] at hi
      exact hi
    simp [State.slot, List.getD_eq_getElem?_getD, hi, h2, hc]
  · obtain ⟨y, hy, h1, h2, h3, h4, -⟩ := hx i x (h ▸ hi)
    rw [slot_eq hi, slot_eq hy]
    exact ⟨h1, h2, h3, h4⟩

theorem BoundSlotsKept.trans {s t u : State} (h1 : BoundSlotsKept s t) (h2 : BoundSlotsKept t u) :
    BoundSlotsKept s u := by
  refine ⟨h2.1.trans h1.1, fun i => ?_⟩
  obtain ⟨a1, a2, a3, a4⟩ := h1.2 i
  obtain ⟨b1, b2, b3, b4⟩ := h2.2 i
  exact ⟨b1.trans a1, b2.trans a2, b3.trans a3, fun h => (b4 (a1 ▸ h)).trans (a4 h)⟩

theorem slot_congr {s t : State} (hc : t.cfg = s.cfg) (h : t.slots = s.slots) (i : Nat) :
    t.slot i = s.slot i := by simp [State.slot, h, hc]

theorem boundSlotsKept_of_eq {s t : State} (hc : t.cfg = s.cfg) (h : t.slots = s.slots) :
    BoundSlotsKept s t := ⟨by rw [h], fun i => by simp [slot_congr hc h]⟩

/-- The template after a touch: its size, and every byte that is not a per-send byte (R154). -/
theorem touched_template (b : List Byte) (u : Touch) :
    (u.perSend.elim b (mergePerSend 0 b)).length = b.length ∧
      ∀ o, perSendOffset o = false →
        byteAt (u.perSend.elim b (mergePerSend 0 b)) o = byteAt b o := by
  cases u.perSend with
  | none => simp
  | some v => exact ⟨by simp, fun o ho => byteAt_mergePerSend (by simpa using ho)⟩

/-- The template after `PROPAGATE`: its size, and every byte that is not a configuration byte (R141). -/
theorem propagated_template (b : List Byte) (m : Mac) (ip : Word) :
    (putBE32 (putBytes b 6 (macBytes m)) 26 ip).length = b.length ∧
      ∀ o, ¬ ConfigOffset o →
        byteAt (putBE32 (putBytes b 6 (macBytes m)) 26 ip) o = byteAt b o := by
  refine ⟨by simp, fun o ho => ?_⟩
  simp only [ConfigOffset] at ho
  rw [putBE32, byteAt_putBytes_outside (by simp; omega), byteAt_putBytes_outside (by simp; omega)]

/-- A MAC address within a buffer, from its bytes. -/
theorem mac_slice {b : List Byte} {o : Nat} {m : Mac} (h : o + 6 ≤ b.length)
    (hb : ∀ j, j < 6 → byteAt b (o + j) = (macBytes m).getD j 0) :
    (b.drop o).take 6 = macBytes m := by
  apply List.ext_getElem
  · simp; omega
  · intro i h1 h2
    have hi : i < 6 := by simpa using h2
    have := hb i hi
    simp only [byteAt, List.getD_eq_getElem?_getD, List.getElem?_eq_getElem (show o + i < b.length by omega),
      List.getElem?_eq_getElem h2, Option.getD_some] at this
    simpa using this

/-- After `PROPAGATE` the copies agree with the Network Core registers (R74, R141). -/
theorem coherent_propagate {s : State} (h : 30 ≤ s.txt.length) : Coherent (propagate s) where
  bcastMask := by simp [utMasksOf]
  onnetMask := by simp [utMasksOf]
  gw := by simp [utMasksOf]
  srcIp := by simp only [propagate_fields]; rw [be32_putBE32_same _ (by simp; omega)]
  srcMac := by
    simp only [propagate_fields]
    refine mac_slice (by simp; omega) fun j hj => ?_
    rw [putBE32, byteAt_putBytes_outside (by simp; omega),
      byteAt_putBytes_inside (by simp; omega) (by omega)]

theorem coherent_reinit {s : State} (h : 30 ≤ s.txt.length) : Coherent (reinit s) :=
  coherent_propagate (by simpa using h)

/-- Agreement of the copies depends on the configuration, the MAC, the copies and the template only. -/
theorem Coherent.congr {s t : State} (h : Coherent s) (cfg : t.nc.cfg = s.nc.cfg)
    (mac : t.nc.mac = s.nc.mac) (ut : t.ut = s.ut) (txt : t.txt = s.txt) : Coherent t := by
  obtain ⟨a, b, c, d, e⟩ := h
  constructor <;> simp only [cfg, mac, ut, txt] <;> assumption

theorem State.Inv.template_le {s : State} (h : s.Inv) : 42 ≤ s.txt.length := by
  rw [h.templateSize]
  omega

/-- Everything `NEGOTIATE` does, in words of its two answers (R143, R154). -/
theorem negotiate_spec (s : State) :
    (negotiate s).nc =
      { mac := s.nc.mac
        cfg := negotiatedConfig s.nc.cfg (dhcpAnswer s).1 (zcAnswer (s.drew 1)).1
        dhcpActive := (dhcpAnswer s).1.isSome
        zcActive := negotiatedZc (dhcpAnswer s).1 (zcAnswer (s.drew 1)).1
        hostname := s.nc.hostname } ∧
    (negotiate s).calls = s.calls ++
      negotiationCalls s.nc.mac s.nc.hostname s.nc.cfg (dhcpAnswer s) (zcAnswer (s.drew 1)) ∧
    (negotiate s).ipId = negotiatedIpId s.ipId (dhcpAnswer s) (zcAnswer (s.drew 1)) ∧
    BoundSlotsKept s (negotiate s) ∧
    TemplateKeptBut (fun o => perSendOffset o = true) s (negotiate s) ∧
    (negotiate s).pend = s.pend ∧ (negotiate s).ut = s.ut ∧ (negotiate s).labels = s.labels ∧
    (negotiate s).held = s.held ∧ (negotiate s).hostMem = s.hostMem ∧
    (negotiate s).res = s.res ∧ (negotiate s).status = s.status ∧
    (negotiate s).env.stuckAt = s.env.stuckAt ∧ SameHostSide s (negotiate s) := by
  have hz : zcAnswer ((afterAcquire s).setMode false s.nc.zcActive) = zcAnswer (s.drew 1) :=
    zcAnswer_congr (by simp) (by simp)
  have kept : ∀ o, ¬ perSendOffset o = true → perSendOffset o = false := fun o h => by simpa using h
  rcases h : (dhcpAnswer s).1 with _ | c
  · rcases h2 : (zcAnswer (s.drew 1)).1 with _ | c
    all_goals
      simp only [negotiate, h, fallBack, hz, h2]
      refine ⟨by simp [negotiatedConfig, negotiatedZc], by simp [negotiationCalls, h, hz, touchTrace],
        by simp [negotiatedIpId, h, hz], ?_, ⟨by simp [(touched_template _ _).1], fun o ho => ?_⟩,
        by simp, by simp, by simp, by simp, by simp, by simp, by simp, by simp, ?_⟩
      · exact (boundSlotsKept_of_touch (t := (afterAcquire s).setMode false s.nc.zcActive)
          (dhcpAnswer s).2 (by simp) (by simp)).trans
          (boundSlotsKept_of_touch (zcAnswer (s.drew 1)).2 (by simp) (by simp [hz]))
      · simp [(touched_template _ _).2 o (kept o ho)]
      · constructor <;> simp
  · simp only [negotiate, h]
    refine ⟨by simp [negotiatedConfig, negotiatedZc], by simp [negotiationCalls, h, touchTrace],
      by simp [negotiatedIpId, h],
      boundSlotsKept_of_touch (dhcpAnswer s).2 (by simp) (by simp),
      ⟨by simp [(touched_template _ _).1], fun o ho => ?_⟩,
      by simp, by simp, by simp, by simp, by simp, by simp, by simp, by simp, ?_⟩
    · simp [(touched_template _ _).2 o (kept o ho)]
    · constructor <;> simp

end Sys2Proof.Machine
end

