-- ==== Sys2Proof/Laws/Datagram.lean ====
section
/-! SUPPORT. The queues as sequences of datagrams: queueing appends and loses the oldest of a full
queue, a receive takes the oldest (spec/10_state.md R39; spec/42_udp_receive.md R209, R220); and what a
frame that meets the preconditions gives to a queue (R201, R203, R207). -/

namespace Sys2Proof.Machine

/-- The preconditions of R201, spelled out. -/
theorem preDeliver_iff (f : Frame) : preDeliver f = true ↔
    42 ≤ f.length ∧ byteAt f 14 = 0x45 ∧ byteAt f 23 = 17 ∧ be16 f 20 &&& 0x3FFF = 0 ∧
      8 ≤ (be16 f 38).toNat ∧ 34 + (be16 f 38).toNat ≤ f.length := by
  simp only [preDeliver, Bool.and_eq_true, decide_eq_true_eq]
  tauto

/-- `ulen` as a number (R203). -/
theorem ulenOf_toNat {f : Frame} (h : preDeliver f = true) :
    (ulenOf f).toNat = (be16 f 38).toNat - 8 := by
  have h8 := ((preDeliver_iff f).mp h).2.2.2.2.1
  have hlt := (be16 f 38).isLt
  rw [ulenOf, BitVec.toNat_sub, show (8 : Half).toNat = 8 from rfl]
  omega

/-- The low-port filter, spelled out (R112, R204). -/
theorem disallowedLowPort_iff (c : Config) (p : Half) :
    disallowedLowPort c p = true ↔ p.toNat < 1024 ∧ p ∉ c.sysPorts := by
  simp [disallowedLowPort]

/-- Port 0 is always a disallowed low port (R112). -/
theorem eligible_ne_zero {c : Config} (h : c.legal = true) {p : Half}
    (hp : disallowedLowPort c p = false) : p ≠ 0 := by
  rintro rfl
  have hs : (0 : Half) ∈ c.sysPorts := by simpa [disallowedLowPort] using hp
  simp only [Config.legal, Bool.and_eq_true, decide_eq_true_eq, List.all_eq_true] at h
  have := (h.1.1.2 0 hs).1
  simp at this

theorem payloadOf_length {c : Config} {f : Frame} (h : preDeliver f = true) :
    (payloadOf c f).length = min (ulenOf f).toNat c.qPayloadMax := by
  have hp := (preDeliver_iff f).mp h
  have hu := ulenOf_toNat h
  simp only [payloadOf, List.length_take, List.length_drop]
  omega

theorem payloadOf_getD {c : Config} {f : Frame} {j : Nat}
    (hj : j < min (ulenOf f).toNat c.qPayloadMax) :
    (payloadOf c f).getD j 0 = byteAt f (42 + j) := by
  simp [payloadOf, byteAt, List.getD_eq_getElem?_getD, hj]

/-- The entry a frame leaves reads back as its datagram, whatever was there before (R207). -/
theorem datagram_store {c : Config} {f : Frame} (h : preDeliver f = true) {e : Entry}
    (he : e.data.length = c.qPayloadMax) :
    (e.store (payloadOf c f) (srcIpOf f) (sportOf f) (ulenOf f)).datagram c = datagramOf c f := by
  have hl := payloadOf_length (c := c) h
  simp only [Entry.datagram, Entry.store, datagramOf, Datagram.mk.injEq, and_true]
  apply List.ext_getElem
  · simp [he, hl]
  · intro j h1 h2
    have hj : j < min (ulenOf f).toNat c.qPayloadMax := hl ▸ h2
    have hb := byteAt_putBytes_inside (b := e.data) (o := 0) (vs := payloadOf c f) (j := j) h2
      (by omega)
    have hlen : j < (putBytes e.data 0 (payloadOf c f)).length := by
      rw [putBytes_length]
      omega
    simp only [Nat.zero_add, byteAt, List.getD_eq_getElem?_getD, List.getElem?_eq_getElem hlen,
      List.getElem?_eq_getElem h2, Option.getD_some] at hb
    simpa using hb

/-- The unread entries as a function of the tail and their number. -/
theorem unread_eq {c : Config} (sl : Slot) :
    sl.unread c = (List.range (sl.count c)).map (fun j => sl.entry c (slotOf c (sl.tail + j))) := rfl

/-- Every pointer designates the same slot one lap on. -/
theorem slotOf_mod {c : Config} (h : c.legal = true) (p : Nat) :
    slotOf c (p % (2 * c.qCap)) = slotOf c p := by
  rw [slotOf_eq h, slotOf_eq h, mul_comm, Nat.mod_mul_right_mod]

/-- A receive takes the oldest entry (R214, R220). -/
theorem unread_advanceTail {c : Config} {sl : Slot} (h : c.legal = true) (ok : sl.Ok c)
    (hne : sl.isEmpty = false) : sl.unread c = sl.oldest c :: (sl.advanceTail c).unread c := by
  have hc := count_advanceTail h ok hne
  have hpos : 0 < sl.count c := by
    rcases Nat.eq_zero_or_pos (sl.count c) with h0 | h0
    · rw [(isEmpty_iff ok).mpr h0] at hne
      cases hne
    · exact h0
  rw [unread_eq, unread_eq, hc]
  obtain ⟨n, hn⟩ : ∃ n, sl.count c = n + 1 := ⟨sl.count c - 1, by omega⟩
  rw [hn, List.range_succ_eq_map, List.map_cons, List.map_map, Nat.add_sub_cancel]
  congr 1
  apply List.map_congr_left
  intro j _
  simp only [Function.comp, Slot.advanceTail, Slot.entry, advance_eq h]
  congr 1
  rw [slotOf_eq h, slotOf_eq h, ← Nat.mod_mul_left_mod ((sl.tail + 1) % (2 * c.qCap) + j) 2 c.qCap,
    Nat.mod_add_mod, Nat.mod_mul_left_mod]
  congr 1
  omega

/-- Queueing an entry on a queue with room appends it (R202). -/
theorem unread_append {c : Config} {sl : Slot} (h : c.legal = true) (ok : sl.Ok c)
    (hroom : sl.count c < c.qCap) (payload : List Byte) (ip : Word) (p l : Half) :
    (((sl.storeAt c (slotOf c sl.head) payload ip p l).advanceHead c).unread c) =
      sl.unread c ++ [(sl.entry c (slotOf c sl.head)).store payload ip p l] := by
  have h1 := ok.headWidth
  have h2 := ok.tailWidth
  have hcount := count_advanceHead (sl := sl.storeAt c (slotOf c sl.head) payload ip p l) h h1 h2
    hroom
  have hsame : (sl.storeAt c (slotOf c sl.head) payload ip p l).count c = sl.count c := rfl
  rw [unread_eq, unread_eq, hcount, hsame, List.range_succ, List.map_append, List.map_singleton]
  have hhead : slotOf c (sl.tail + sl.count c) = slotOf c sl.head := by
    rw [slotOf_eq h, slotOf_eq h]
    rw [count_eq h1 h2]
    split
    · congr 1
      omega
    · rw [show sl.tail + (sl.head + 2 * c.qCap - sl.tail) = sl.head + c.qCap * 2 by omega,
        Nat.add_mul_mod_self_left]
  congr 1
  · apply List.map_congr_left
    intro j hj
    have hj : j < sl.count c := by simpa using hj
    have hne : slotOf c sl.head ≠ slotOf c (sl.tail + j) := by
      rw [← hhead, slotOf_eq h, slotOf_eq h]
      intro he
      have := (Nat.modEq_iff_dvd' (show sl.tail + j ≤ sl.tail + sl.count c by omega)).mp he.symm
      have := Nat.le_of_dvd (by omega) this
      omega
    simp only [Slot.advanceHead, Slot.storeAt, Slot.entry, List.getD_eq_getElem?_getD]
    rw [List.getElem?_set_ne hne]
  · have hlt : slotOf c sl.head < sl.ring.length := by
      rw [ok.ringSize]
      exact slotOf_lt h _
    simp only [Slot.advanceHead, Slot.storeAt, hhead]
    rw [Slot.entry, List.getD_eq_getElem?_getD, List.getElem?_set_self hlt]
    rfl

/-- On a full queue the oldest entry is lost, else none (R209). -/
theorem unread_makeRoom {c : Config} {sl : Slot} (h : c.legal = true) (ok : sl.Ok c) :
    (sl.makeRoom c).unread c =
      if sl.count c = c.qCap then (sl.unread c).tail else sl.unread c := by
  have hq := legal_qCap_pos h
  unfold Slot.makeRoom Slot.full
  by_cases hf : sl.count c = c.qCap
  · have hne : sl.isEmpty = false := by
      by_contra he
      have := (isEmpty_iff ok).mp (by simpa using he)
      omega
    rw [if_pos (by simpa using hf), if_pos hf, unread_advanceTail h ok hne]
    rfl
  · rw [if_neg (by simpa using hf), if_neg hf]

/-- Queueing a frame's datagram (R202, R209, R220). -/
theorem datagrams_enqueue {c : Config} {sl : Slot} (h : c.legal = true) (ok : sl.Ok c) {f : Frame}
    (hf : preDeliver f = true) :
    (sl.enqueue c (payloadOf c f) (srcIpOf f) (sportOf f) (ulenOf f)).datagrams c =
      (if sl.count c = c.qCap then (sl.datagrams c).tail else sl.datagrams c) ++
        [datagramOf c f] := by
  obtain ⟨rok, rcount, rhead, -, rring⟩ := makeRoom_ok h ok
  have happ := unread_append h rok rcount (payloadOf c f) (srcIpOf f) (sportOf f) (ulenOf f)
  rw [rhead] at happ
  rw [Slot.datagrams, Slot.enqueue, happ, List.map_append, List.map_singleton,
    datagram_store hf (entry_data_length rok _), unread_makeRoom h ok]
  split
  · rw [Slot.datagrams, List.map_tail]
  · rfl

end Sys2Proof.Machine
end

