-- ==== Sys2Proof/Laws/Send.lean ====
section
/-! SUPPORT. What stage 5 of `SEND` writes into the template, byte by byte, and the header checksum it
leaves (spec/43_udp_send.md R244 to R250). -/

namespace Sys2Proof.Machine

@[simp] theorem stamp_length (t : List Byte) (p : Stamp) : (stamp t p).length = t.length := by
  simp [stamp, stampIp]

/-- Stamping keeps every byte that is not a per-send byte of a payload of that length (R244). -/
theorem stamp_outside (t : List Byte) (p : Stamp) {o : Nat} (h : ¬ SendOffset p.payload.length o) :
    byteAt (stamp t p) o = byteAt t o := by
  simp only [SendOffset] at h
  simp only [stamp, stampIp, putBE16, putBE32]
  repeat rw [byteAt_putBytes_outside (by
    first | omega | (simp only [bytes16_length, bytes32_length, macBytes_length]; omega))]

/-- A halfword above the IPv4 part, under the payload and the other halfwords. -/
theorem be16_stamp_udp (t : List Byte) (p : Stamp) {o : Nat} (h : o + 1 < 42) :
    be16 (stamp t p) o =
      be16 (putBE16 (putBE16 (putBE16 (stampIp t p) 34 p.sport) 36 p.dport) 38
        (BitVec.ofNat 16 (8 + p.payload.length))) o :=
  be16_putBytes_outside (by omega)

/-- A halfword below the UDP part is the one of the IPv4 part. -/
theorem be16_stamp_ip (t : List Byte) (p : Stamp) {o : Nat} (h : o + 1 < 34) :
    be16 (stamp t p) o = be16 (stampIp t p) o := by
  rw [be16_stamp_udp t p (by omega)]
  simp only [putBE16]
  repeat rw [be16_putBytes_outside (by simp only [bytes16_length]; omega)]

/-- The UDP header fields (R248, R249). -/
theorem stamp_udp (t : List Byte) (p : Stamp) (h : 42 ≤ t.length) :
    be16 (stamp t p) 34 = p.sport ∧ be16 (stamp t p) 36 = p.dport ∧
      be16 (stamp t p) 38 = BitVec.ofNat 16 (8 + p.payload.length) := by
  have hl : (stampIp t p).length = t.length := by simp [stampIp]
  refine ⟨?_, ?_, ?_⟩ <;> rw [be16_stamp_udp t p (by omega)]
  · rw [putBE16, be16_putBytes_outside (by simp), putBE16, be16_putBytes_outside (by simp),
      be16_putBE16_same _ (by omega)]
  · rw [putBE16, be16_putBytes_outside (by simp), be16_putBE16_same _ (by simp; omega)]
  · rw [be16_putBE16_same _ (by simp; omega)]

/-- The IPv4 fields stage 5 writes, but for the checksum (R246). -/
theorem stamp_ip (t : List Byte) (p : Stamp) (h : 42 ≤ t.length) :
    be16 (stamp t p) 16 = BitVec.ofNat 16 (28 + p.payload.length) ∧ be16 (stamp t p) 18 = p.id ∧
      be32 (stamp t p) 30 = p.toIp := by
  refine ⟨?_, ?_, ?_⟩
  · rw [be16_stamp_ip t p (by omega)]
    simp only [stampIp, putBE16, putBE32]
    repeat rw [be16_putBytes_outside (by simp only [bytes16_length, bytes32_length]; omega)]
    exact be16_putBE16_same _ (by simp; omega)
  · rw [be16_stamp_ip t p (by omega)]
    simp only [stampIp, putBE16, putBE32]
    repeat rw [be16_putBytes_outside (by simp only [bytes16_length, bytes32_length]; omega)]
    exact be16_putBE16_same _ (by simp; omega)
  · simp only [stamp, stampIp, putBE16]
    repeat rw [be32_putBytes_outside (by first | omega | (simp only [bytes16_length]; omega))]
    exact be32_putBE32_same _ (by simp; omega)

/-- The destination MAC (R245). -/
theorem stamp_dmac (t : List Byte) (p : Stamp) (h : 42 ≤ t.length) :
    (stamp t p).take 6 = macBytes p.dmac := by
  have := mac_slice (b := stamp t p) (o := 0) (m := p.dmac) (by simp; omega) fun j hj => by
    simp only [stamp, stampIp, putBE16, putBE32]
    repeat rw [byteAt_putBytes_outside (by omega)]
    exact byteAt_putBytes_inside (by simpa using hj) (by omega)
  simpa using this

/-- The payload bytes (R250). -/
theorem stamp_payload (t : List Byte) (p : Stamp) (h : 42 + p.payload.length ≤ t.length) {j : Nat}
    (hj : j < p.payload.length) : byteAt (stamp t p) (42 + j) = p.payload.getD j 0 :=
  byteAt_putBytes_inside hj (by simp [stampIp]; omega)

/-- The checksum field, and the header it was computed over: the same header with a zero there
(R247). -/
theorem stamp_checksum (t : List Byte) (p : Stamp) (h : 42 ≤ t.length) :
    ∃ u : List Byte, be16 (stamp t p) 24 = ipcsum u ∧ be16 u 24 = 0 ∧
      ∀ o, o + 1 < 34 → (o + 1 < 24 ∨ 26 ≤ o) → be16 (stamp t p) o = be16 u o := by
  refine ⟨putBE16 (putBE32 (putBE16 (putBE16 (putBytes t 0 (macBytes p.dmac)) 16
    (BitVec.ofNat 16 (28 + p.payload.length))) 18 p.id) 30 p.toIp) 24 0x0000, ?_, ?_,
    fun o ho hc => ?_⟩
  · rw [be16_stamp_ip t p (by omega)]
    exact be16_putBE16_same _ (by simp; omega)
  · exact be16_putBE16_same _ (by simp; omega)
  · rw [be16_stamp_ip t p ho, stampIp, putBE16, be16_putBytes_outside (by simp; omega)]

/-- The checksum field of a stamped header: the complement of the folded sum of the other nine halfwords
(R247). -/
theorem stamp_headerChecksum (t : List Byte) (p : Stamp) (h : 42 ≤ t.length) :
    (be16 (stamp t p) 24).toNat =
      0xFFFF - foldCarry 16 (halfSum (stamp t p) 14 5 + halfSum (stamp t p) 26 4) := by
  obtain ⟨u, hc, hz, hu⟩ := stamp_checksum t p h
  have h5 : halfSum (stamp t p) 14 5 = halfSum u 14 5 :=
    halfSum_congr fun k hk => hu _ (by omega) (by omega)
  have h4 : halfSum (stamp t p) 26 4 = halfSum u 26 4 :=
    halfSum_congr fun k hk => hu _ (by omega) (by omega)
  have hs : headerSum u = foldCarry 16 (halfSum u 14 5 + halfSum u 26 4) := by
    simp [headerSum, halfSum_header, hz]
  have hle := headerSum_le u
  rw [h5, h4, ← hs, hc, ipcsum, BitVec.toNat_not, BitVec.toNat_ofNat]
  omega

/-- The class of a broadcast, a multicast and a unicast destination (R236 to R242). -/
theorem classify_broadcast {s : State} (h : BroadcastDst s) :
    lookupTarget s.ut (s.x 3) = none ∧ fixedMac s.ut (s.x 3) = broadcastMac := by
  unfold lookupTarget fixedMac classify
  by_cases h1 : s.x 3 = 0xFFFFFFFF
  · rw [if_pos h1]; exact ⟨rfl, rfl⟩
  · rw [if_neg h1, if_pos (h.resolve_left h1)]; exact ⟨rfl, rfl⟩

theorem classify_multicast {s : State} (h : MulticastDst s) :
    lookupTarget s.ut (s.x 3) = none ∧ fixedMac s.ut (s.x 3) = multicastMac (s.x 3) := by
  obtain ⟨h1, h2⟩ := h
  simp only [BroadcastDst, not_or] at h1
  unfold lookupTarget fixedMac classify
  rw [if_neg h1.1, if_neg h1.2, if_pos h2]
  exact ⟨rfl, rfl⟩

theorem classify_unicast {s : State} (h1 : ¬ BroadcastDst s) (h2 : ¬ MulticastDst s) :
    lookupTarget s.ut (s.x 3) = some (unicastTarget s) := by
  have h3 : ¬ (s.x 3).extractLsb' 28 4 = 0b1110#4 := fun h => h2 ⟨h1, h⟩
  simp only [BroadcastDst, not_or] at h1
  unfold lookupTarget classify unicastTarget
  rw [if_neg h1.1, if_neg h1.2, if_neg h3]
  by_cases h4 : s.x 3 &&& s.ut.onnetMask ≠ s.ut.onnetMask
  · rw [if_pos h4, if_pos h4]
  · rw [if_neg h4, if_neg h4]

/-- The destination MAC and the calls made, as the statements word them. -/
theorem addressed_spec {s : State} {dmac : Mac} {lookups : List Call}
    (h : Addressed s dmac lookups) :
    destinationMac (takeId s) (s.x 3) = some dmac ∧
      (afterAddressing (takeId s) (s.x 3)).calls = s.calls ++ lookups := by
  have hx : (takeId s).ut = s.ut := rfl
  have hc : (takeId s).calls = s.calls := rfl
  unfold destinationMac afterAddressing
  rw [hx]
  by_cases hb : BroadcastDst s
  · obtain ⟨rfl, rfl⟩ := h.broadcast hb
    rw [(classify_broadcast hb).1, (classify_broadcast hb).2]
    exact ⟨rfl, by simp [hc]⟩
  · by_cases hm : MulticastDst s
    · obtain ⟨rfl, rfl⟩ := h.multicast hm
      rw [(classify_multicast hm).1, (classify_multicast hm).2]
      exact ⟨rfl, by simp [hc]⟩
    · obtain ⟨ha, rfl⟩ := h.unicast hb hm
      rw [classify_unicast hb hm]
      exact ⟨ha, by simp [hc]⟩

end Sys2Proof.Machine
end

