-- ==== Sys2Proof/Laws/Exec.lean ====
section
/-! SUPPORT. What the operations over several state elements leave alone, and every way a `DISPATCH`
or a `UDP_DELIVER` can end (spec/40_network_core.md R156; spec/41_udp_config_bind.md R190;
spec/42_udp_receive.md R202, R211; spec/43_udp_send.md R231, R252). -/

namespace Sys2Proof.Machine

/-- Queueing a frame touches the port table alone. -/
@[simp] theorem deliverFrame_fields (s : State) (f : Frame) :
    (deliverFrame s f).cfg = s.cfg ∧
    (deliverFrame s f).cmd = s.cmd ∧
    (deliverFrame s f).status = s.status ∧
    (deliverFrame s f).arg = s.arg ∧
    (deliverFrame s f).res = s.res ∧
    (deliverFrame s f).nc = s.nc ∧
    (deliverFrame s f).pend = s.pend ∧
    (deliverFrame s f).ut = s.ut ∧
    (deliverFrame s f).ipId = s.ipId ∧
    (deliverFrame s f).txt = s.txt ∧
    (deliverFrame s f).held = s.held ∧
    (deliverFrame s f).hostMem = s.hostMem ∧
    (deliverFrame s f).host = s.host ∧
    (deliverFrame s f).bus = s.bus ∧
    (deliverFrame s f).env = s.env ∧
    (deliverFrame s f).calls = s.calls ∧
    (deliverFrame s f).labels = s.labels ∧
    (deliverFrame s f).fresh = s.fresh := by
  unfold deliverFrame
  split <;> try split
  all_goals simp

/-- `APPLY` up to its mode request touches the configuration and the pending changes alone. -/
@[simp] theorem applyStaged_fields (s : State) :
    (applyStaged s).cfg = s.cfg ∧
    (applyStaged s).cmd = s.cmd ∧
    (applyStaged s).status = s.status ∧
    (applyStaged s).arg = s.arg ∧
    (applyStaged s).res = s.res ∧
    (applyStaged s).nc = { s.nc with cfg := stagedConfig s } ∧
    (applyStaged s).pend = { s.pend with mask := 0 } ∧
    (applyStaged s).ut = s.ut ∧
    (applyStaged s).ipId = s.ipId ∧
    (applyStaged s).slots = s.slots ∧
    (applyStaged s).txt = s.txt ∧
    (applyStaged s).held = s.held ∧
    (applyStaged s).hostMem = s.hostMem ∧
    (applyStaged s).host = s.host ∧
    (applyStaged s).bus = s.bus ∧
    (applyStaged s).env = s.env ∧
    (applyStaged s).calls = s.calls ∧
    (applyStaged s).labels = s.labels ∧
    (applyStaged s).fresh = s.fresh := by
  simp [applyStaged]

/-- The lookup of stage 4 touches the history, the answers and the count of draws alone. -/
@[simp] theorem afterAddressing_fields (s : State) (ip : Word) :
    (afterAddressing s ip).cfg = s.cfg ∧
    (afterAddressing s ip).cmd = s.cmd ∧
    (afterAddressing s ip).status = s.status ∧
    (afterAddressing s ip).arg = s.arg ∧
    (afterAddressing s ip).res = s.res ∧
    (afterAddressing s ip).nc = s.nc ∧
    (afterAddressing s ip).pend = s.pend ∧
    (afterAddressing s ip).ut = s.ut ∧
    (afterAddressing s ip).ipId = s.ipId ∧
    (afterAddressing s ip).slots = s.slots ∧
    (afterAddressing s ip).txt = s.txt ∧
    (afterAddressing s ip).held = s.held ∧
    (afterAddressing s ip).hostMem = s.hostMem ∧
    (afterAddressing s ip).host = s.host ∧
    (afterAddressing s ip).bus = s.bus ∧
    (afterAddressing s ip).labels = s.labels := by
  unfold afterAddressing
  split <;> simp

/-- `RECV` touches its results, host memory and the port table alone. -/
theorem recvNext_fields (s : State) (h : Nat) :
    (recvNext s h).cfg = s.cfg ∧
    (recvNext s h).cmd = s.cmd ∧
    (recvNext s h).arg = s.arg ∧
    (recvNext s h).nc = s.nc ∧
    (recvNext s h).pend = s.pend ∧
    (recvNext s h).ut = s.ut ∧
    (recvNext s h).ipId = s.ipId ∧
    (recvNext s h).txt = s.txt ∧
    (recvNext s h).held = s.held ∧
    (recvNext s h).host = s.host ∧
    (recvNext s h).bus = s.bus ∧
    (recvNext s h).env = s.env ∧
    (recvNext s h).calls = s.calls ∧
    (recvNext s h).labels = s.labels := by
  unfold recvNext
  split
  · simp
  · split
    · simp [recvEmpty]
    · simp [recvTake, recvResults]

/-- `RECV_ZC` touches its results and the port table alone. -/
theorem recvZcNext_fields (s : State) (h : Nat) :
    (recvZcNext s h).cfg = s.cfg ∧
    (recvZcNext s h).cmd = s.cmd ∧
    (recvZcNext s h).arg = s.arg ∧
    (recvZcNext s h).nc = s.nc ∧
    (recvZcNext s h).pend = s.pend ∧
    (recvZcNext s h).ut = s.ut ∧
    (recvZcNext s h).ipId = s.ipId ∧
    (recvZcNext s h).txt = s.txt ∧
    (recvZcNext s h).held = s.held ∧
    (recvZcNext s h).hostMem = s.hostMem ∧
    (recvZcNext s h).host = s.host ∧
    (recvZcNext s h).bus = s.bus ∧
    (recvZcNext s h).env = s.env ∧
    (recvZcNext s h).calls = s.calls ∧
    (recvZcNext s h).labels = s.labels := by
  unfold recvZcNext
  split
  · simp
  · split
    · simp [recvEmpty]
    · simp [recvZcTake, recvResults]

/-- `BIND` touches its result and the port table alone (R190). -/
theorem bindNext_fields (s : State) (p : Half) :
    (bindNext s p).cfg = s.cfg ∧
    (bindNext s p).cmd = s.cmd ∧
    (bindNext s p).arg = s.arg ∧
    (bindNext s p).nc = s.nc ∧
    (bindNext s p).pend = s.pend ∧
    (bindNext s p).ut = s.ut ∧
    (bindNext s p).ipId = s.ipId ∧
    (bindNext s p).txt = s.txt ∧
    (bindNext s p).held = s.held ∧
    (bindNext s p).hostMem = s.hostMem ∧
    (bindNext s p).host = s.host ∧
    (bindNext s p).bus = s.bus ∧
    (bindNext s p).env = s.env ∧
    (bindNext s p).calls = s.calls ∧
    (bindNext s p).labels = s.labels ∧
    (bindNext s p).fresh = s.fresh := by
  unfold bindNext
  split <;> try split <;> try split
  all_goals simp

/-- `UNBIND` touches the port table alone (R190). -/
theorem unbindNext_fields (s : State) (p : Half) :
    (unbindNext s p).cfg = s.cfg ∧
    (unbindNext s p).cmd = s.cmd ∧
    (unbindNext s p).arg = s.arg ∧
    (unbindNext s p).res = s.res ∧
    (unbindNext s p).nc = s.nc ∧
    (unbindNext s p).pend = s.pend ∧
    (unbindNext s p).ut = s.ut ∧
    (unbindNext s p).ipId = s.ipId ∧
    (unbindNext s p).txt = s.txt ∧
    (unbindNext s p).held = s.held ∧
    (unbindNext s p).hostMem = s.hostMem ∧
    (unbindNext s p).host = s.host ∧
    (unbindNext s p).bus = s.bus ∧
    (unbindNext s p).env = s.env ∧
    (unbindNext s p).calls = s.calls ∧
    (unbindNext s p).labels = s.labels ∧
    (unbindNext s p).fresh = s.fresh := by
  unfold unbindNext
  split <;> try split
  all_goals simp

/-- `SEND` touches the identifier, the template and the history alone (R252). -/
theorem sendNext_fields (s : State) (h : Nat) :
    (sendNext s h).cfg = s.cfg ∧
    (sendNext s h).cmd = s.cmd ∧
    (sendNext s h).arg = s.arg ∧
    (sendNext s h).res = s.res ∧
    (sendNext s h).nc = s.nc ∧
    (sendNext s h).pend = s.pend ∧
    (sendNext s h).ut = s.ut ∧
    (sendNext s h).slots = s.slots ∧
    (sendNext s h).held = s.held ∧
    (sendNext s h).hostMem = s.hostMem ∧
    (sendNext s h).host = s.host ∧
    (sendNext s h).bus = s.bus ∧
    (sendNext s h).labels = s.labels := by
  unfold sendNext
  split
  · simp
  · dsimp only
    split <;> simp [transmit, takeId]

/-- A `DISPATCH` that answers ends with the timer work; before it at most the port table has changed, as
`UDP_DELIVER` on one frame changes it. -/
theorem dispatch_cases {s t : State} (h : exec .dispatch s = .next t) :
    ∃ u : State, t = (runTimers u).setStatus .ok ∧ u.cfg = s.cfg ∧ u.nc = s.nc ∧ u.pend = s.pend ∧
      u.ut = s.ut ∧ u.txt = s.txt ∧ u.ipId = s.ipId ∧ u.res = s.res ∧ u.hostMem = s.hostMem ∧
      u.arg = s.arg ∧ u.cmd = s.cmd ∧ u.host = s.host ∧ u.bus = s.bus ∧
      (u.slots = s.slots ∨ ∃ f, u.slots = (deliverFrame s f).slots) := by
  simp only [exec, execDispatch] at h
  split at h
  · cases h
  · rw [complete_next h]
    unfold dispatchNext
    split
    · exact ⟨_, rfl, by simp⟩
    · rename_i f _
      refine ⟨_, rfl, ?_⟩
      unfold handOver
      split
      · dsimp only
        split
        · refine ⟨by simp [udpDeliver, holdFrame], by simp [udpDeliver, holdFrame],
            by simp [udpDeliver, holdFrame], by simp [udpDeliver, holdFrame],
            by simp [udpDeliver, holdFrame], by simp [udpDeliver, holdFrame],
            by simp [udpDeliver, holdFrame], by simp [udpDeliver, holdFrame],
            by simp [udpDeliver, holdFrame], by simp [udpDeliver, holdFrame],
            by simp [udpDeliver, holdFrame], by simp [udpDeliver, holdFrame], .inr ⟨f, ?_⟩⟩
          simp only [udpDeliver, holdFrame, mark_fields, record_fields, setHeld_fields]
          unfold deliverFrame
          simp only [mark_fields, afterIplHandle_fields, setHeld_fields, afterRecv_fields]
          split
          · simp
          · split
            · simp
            · simp [queuedSlot, State.slot]
        · simp [holdFrame]
      · simp [holdFrame]
      · simp [holdFrame]

/-- A `UDP_DELIVER` that answers ran on a held frame not yet delivered, with its preconditions true. -/
theorem udpDeliver_cases {s t : State} (h : exec .udpDeliver s = .next t) :
    ∃ hd, s.held = some hd ∧ hd.delivered = false ∧ preDeliver hd.frame = true ∧
      t = (udpDeliver s hd.frame).setHeld (some { hd with delivered := true }) := by
  simp only [exec, execUdpDeliver] at h
  split at h
  · cases h
  · rename_i hd hh
    split at h
    · cases h
    · split at h
      · rename_i h1 h2
        exact ⟨hd, hh, by simpa using h1, h2, (Host.Outcome.next.inj h).symm⟩
      · cases h

end Sys2Proof.Machine
end

