-- ==== Sys2Proof/Laws/Meanings.lean ====
section
/-! SUPPORT. Each operation's effect, as the function its meaning calls, keeps the state
invariants. -/

namespace Sys2Proof.Machine

/-- The zeroconf fallback keeps the invariants, after the DHCP flag is cleared. -/
theorem fallBack_inv {s : State} (h : s.Inv) (hd : s.nc.dhcpActive = false) : (fallBack s).Inv := by
  unfold fallBack
  split
  · exact setMode_inv (setNcConfig_inv (afterNegotiate_inv h) _) (by simp [hd])
  · exact setMode_inv (afterNegotiate_inv h) (by simp)

/-- `NEGOTIATE` keeps the invariants. -/
theorem negotiate_inv {s : State} (h : s.Inv) : (negotiate s).Inv := by
  unfold negotiate
  split
  · exact setMode_inv (setNcConfig_inv (afterAcquire_inv h) _) (by simp)
  · exact fallBack_inv (setMode_inv (afterAcquire_inv h) (by simp)) rfl

/-- Copying the inputs of `INIT` keeps the invariants. -/
theorem initInputs_inv {s : State} (h : s.Inv) : (initInputs s).Inv := by
  obtain ⟨h1, h2, h3, h4, h5, h6, h7, h8, h9, h10⟩ := h
  exact ⟨h1, by simp [initInputs], by simp [initInputs, hostnameLength], h4, h5, h6, h7, h8, h9,
    h10⟩

/-- A zeroconf success keeps the invariants. -/
theorem takeLinkLocal_inv {s : State} (h : s.Inv) (c) : (takeLinkLocal s c).Inv :=
  reinit_inv (setMode_inv (setNcConfig_inv (afterNegotiate_inv h) _) (by simp))

/-- A conditional `REINIT` keeps the invariants. -/
theorem reinitIf_inv {s : State} (h : s.Inv) (b) : (reinitIf b s).Inv := by
  unfold reinitIf; split
  · exact reinit_inv h
  · exact h

/-- Queueing a frame keeps the invariants. -/
theorem deliverFrame_inv {s : State} (h : s.Inv) (f) : (deliverFrame s f).Inv := by
  unfold deliverFrame
  split
  · exact h
  · rename_i hlow
    split
    · exact h
    · rename_i i hi
      have hil := findPort_lt hi
      obtain ⟨sl, hs, hp, -⟩ := findPort_some hi
      have hs' := slot_eq hs
      have hp0 : (s.slot i).port ≠ 0 := by
        rw [hs', hp]
        intro h0
        apply hlow
        have : ¬ (0:Half) ∈ s.cfg.sysPorts := by
          have hl := h.legal
          simp only [Config.legal, Bool.and_eq_true, decide_eq_true_eq, List.all_eq_true] at hl
          intro hm
          have := (hl.1.1.2 0 hm).1
          simp at this
        rw [disallowedLowPort, h0]; simpa using this
      apply setSlot_samePort_inv h (enqueue_ok h.legal (slotsOk_get h hil) hp0 _ _ _ _) hil
      left
      exact (makeRoom_ok h.legal (slotsOk_get h hil)).2.2.2.1

/-- `UDP_DELIVER` keeps the invariants. -/
theorem udpDeliver_inv {s : State} (h : s.Inv) (f) : (udpDeliver s f).Inv :=
  mark_inv (deliverFrame_inv h f) _

/-- A receive on an empty queue keeps the invariants. -/
theorem recvEmpty_inv {s : State} (h : s.Inv) : (recvEmpty s).Inv :=
  h.of_same rfl rfl rfl rfl rfl rfl

/-- Taking an entry from a queue that has one keeps the invariants. -/
theorem advanceTail_inv {s : State} (h : s.Inv) {i} (hi : i < s.cfg.nPorts)
    (hne : (s.slot i).isEmpty = false) : (s.setSlot i ((s.slot i).advanceTail s.cfg)).Inv := by
  have hi' : i < s.slots.length := by rw [h.tableSize]; exact hi
  exact setSlot_samePort_inv h (advanceTail_ok h.legal (slotsOk_get h hi') hne) hi' (.inl rfl)

/-- `RECV` keeps the invariants. -/
theorem recvNext_inv {s : State} (h : s.Inv) (n) : (recvNext s n).Inv := by
  unfold recvNext
  split
  · exact setStatus_inv h _
  · split
    · exact drew_inv (recvEmpty_inv h) _
    · rename_i h1 h2
      have h3 := advanceTail_inv h (by omega) (by simpa using h2) (i := n)
      have h4 := setMem_inv (s := s.setSlot n _) h3
        (wf_memWrite h.memWf (s.x 1) (entryBytes s.cfg ((s.slot n).oldest s.cfg) s.fresh
          (recvLength s ((s.slot n).oldest s.cfg))))
      apply h4.of_same <;> simp [recvTake, recvResults]

/-- `RECV_ZC` keeps the invariants. -/
theorem recvZcNext_inv {s : State} (h : s.Inv) (n) : (recvZcNext s n).Inv := by
  unfold recvZcNext
  split
  · exact setStatus_inv h _
  · split
    · exact drew_inv (setRes_inv (recvEmpty_inv h) _ _) _
    · rename_i h1 h2
      have h3 := advanceTail_inv h (by omega) (by simpa using h2) (i := n)
      exact h3.of_same rfl rfl rfl rfl rfl rfl

/-- Stamping a datagram keeps the constant bytes of the template. -/
theorem stamp_const {c t} (h : ConstantBytes c t) (p) : ConstantBytes c (stamp t p) := by
  unfold stamp stampIp
  simp only [putBE16, putBE32]
  iterate 10 refine ConstantBytes.putBytes ?_ (by simp)
  exact h

/-- The address lookup keeps the invariants. -/
theorem afterAddressing_inv {s : State} (h : s.Inv) (ip) : (afterAddressing s ip).Inv := by
  unfold afterAddressing; split
  · exact h
  · exact afterLookup_inv h _

/-- `SEND` keeps the invariants. -/
theorem sendNext_inv {s : State} (h : s.Inv) (n) : (sendNext s n).Inv := by
  unfold sendNext
  split
  · exact setStatus_inv h _
  · have h1 := afterAddressing_inv (setIpId_inv h (s.ipId + 1)) (s.x 3)
    dsimp only
    split
    · exact setStatus_inv h1 _
    · apply setStatus_inv; apply record_inv
      apply setTxt_inv h1
      · simp [stamp_length]
      · simpa using stamp_const h.templateConst _

/-- The end of a `DISPATCH` keeps the invariants. -/
theorem dispatchEnd_inv {s : State} (h : s.Inv) : (dispatchEnd s).Inv :=
  setStatus_inv (runTimers_inv (record_inv (setHeld_inv h _) _)) _

/-- Handing the held frame over keeps the invariants. -/
theorem handOver_inv {s : State} (h : s.Inv) (f) : (handOver s f).Inv := by
  unfold handOver; split
  · dsimp only; split
    · exact udpDeliver_inv (mark_inv (afterIplHandle_inv h _) _) _
    · exact mark_inv (afterIplHandle_inv h _) _
  · exact mark_inv (record_inv h _) _
  · exact mark_inv (record_inv h _) _

/-- `DISPATCH` keeps the invariants. -/
theorem dispatchNext_inv {s : State} (h : s.Inv) : (dispatchNext s).Inv := by
  unfold dispatchNext; split
  · exact setStatus_inv (runTimers_inv (mark_inv (afterRecv_inv h) _)) _
  · exact dispatchEnd_inv (handOver_inv (setHeld_inv (afterRecv_inv h) _) _)

/-- `APPLY` keeps the invariants. -/
theorem applyNext_inv {s : State} (h : s.Inv) : (applyNext s).Inv := by
  unfold applyNext
  have h1 : (applyStaged s).Inv := setPend_inv (setNcConfig_inv h _) (by simp)
  dsimp only
  split
  · exact setRes_inv (reinit_inv (negotiate_inv h1)) _ _
  · split
    · apply setRes_inv; unfold applyZeroconf; split
      · exact takeLinkLocal_inv h1 _
      · exact reinitIf_inv (afterNegotiate_inv h1) _
    · exact setRes_inv (reinitIf_inv h1 _) _ _

/-- A freed slot is well formed. -/
theorem freeSlot_ok {c sl} (h : c.legal = true) (ok : Slot.Ok c sl) :
    Slot.Ok c { sl with port := 0, head := 0, tail := 0 } where
  headWidth := by have := legal_qCap_pos h; simp; omega
  tailWidth := by have := legal_qCap_pos h; simp; omega
  countLe := by simp [Slot.count]
  ringSize := ok.ringSize
  dataSize := ok.dataSize
  freeEmpty := fun _ => ⟨rfl, rfl⟩

end Sys2Proof.Machine
end

