-- ==== Sys2Proof/Laws/PerInstr.lean ====
section
/-! SUPPORT. Laws of every operation as syntax, one lemma per constructor. -/

/-- An operation's selector decodes to it, and exactly one origin may invoke it: the host those whose
selector is a `CMD` word, the IP layer the one with the port's selector (R92, R98, R284). -/
def Sys2Proof.Laws.Encoding.Statement (i : Sys2Proof.Instr) : Prop :=
  Sys2Proof.decodeSelector (Sys2Proof.encode i) = .instr i ∧
    (Sys2Proof.Invocation.wf ⟨.host, i⟩ = true ↔
      Sys2Proof.decodeCommand (Sys2Proof.encode i) = .instr i) ∧
    (Sys2Proof.Invocation.wf ⟨.ipLayer, i⟩ = true ↔ Sys2Proof.encode i = Sys2Proof.portSelector)

theorem Sys2Proof.Laws.Encoding.init : Sys2Proof.Laws.Encoding.Statement .init := by
  refine ⟨?_, ?_, ?_⟩ <;> decide

theorem Sys2Proof.Laws.Encoding.shutdown : Sys2Proof.Laws.Encoding.Statement .shutdown := by
  refine ⟨?_, ?_, ?_⟩ <;> decide

theorem Sys2Proof.Laws.Encoding.setIp : Sys2Proof.Laws.Encoding.Statement .setIp := by
  refine ⟨?_, ?_, ?_⟩ <;> decide

theorem Sys2Proof.Laws.Encoding.setGateway : Sys2Proof.Laws.Encoding.Statement .setGateway := by
  refine ⟨?_, ?_, ?_⟩ <;> decide

theorem Sys2Proof.Laws.Encoding.setDhcp : Sys2Proof.Laws.Encoding.Statement .setDhcp := by
  refine ⟨?_, ?_, ?_⟩ <;> decide

theorem Sys2Proof.Laws.Encoding.setZeroconf : Sys2Proof.Laws.Encoding.Statement .setZeroconf := by
  refine ⟨?_, ?_, ?_⟩ <;> decide

theorem Sys2Proof.Laws.Encoding.dispatch : Sys2Proof.Laws.Encoding.Statement .dispatch := by
  refine ⟨?_, ?_, ?_⟩ <;> decide

theorem Sys2Proof.Laws.Encoding.queueIp : Sys2Proof.Laws.Encoding.Statement .queueIp := by
  refine ⟨?_, ?_, ?_⟩ <;> decide

theorem Sys2Proof.Laws.Encoding.queueNetmask : Sys2Proof.Laws.Encoding.Statement .queueNetmask := by
  refine ⟨?_, ?_, ?_⟩ <;> decide

theorem Sys2Proof.Laws.Encoding.queueGateway : Sys2Proof.Laws.Encoding.Statement .queueGateway := by
  refine ⟨?_, ?_, ?_⟩ <;> decide

theorem Sys2Proof.Laws.Encoding.queueDhcp : Sys2Proof.Laws.Encoding.Statement .queueDhcp := by
  refine ⟨?_, ?_, ?_⟩ <;> decide

theorem Sys2Proof.Laws.Encoding.queueZeroconf : Sys2Proof.Laws.Encoding.Statement .queueZeroconf := by
  refine ⟨?_, ?_, ?_⟩ <;> decide

theorem Sys2Proof.Laws.Encoding.apply : Sys2Proof.Laws.Encoding.Statement .apply := by
  refine ⟨?_, ?_, ?_⟩ <;> decide

theorem Sys2Proof.Laws.Encoding.setIpConfig : Sys2Proof.Laws.Encoding.Statement .setIpConfig := by
  refine ⟨?_, ?_, ?_⟩ <;> decide

theorem Sys2Proof.Laws.Encoding.bind : Sys2Proof.Laws.Encoding.Statement .bind := by
  refine ⟨?_, ?_, ?_⟩ <;> decide

theorem Sys2Proof.Laws.Encoding.unbind : Sys2Proof.Laws.Encoding.Statement .unbind := by
  refine ⟨?_, ?_, ?_⟩ <;> decide

theorem Sys2Proof.Laws.Encoding.recv : Sys2Proof.Laws.Encoding.Statement .recv := by
  refine ⟨?_, ?_, ?_⟩ <;> decide

theorem Sys2Proof.Laws.Encoding.recvZc : Sys2Proof.Laws.Encoding.Statement .recvZc := by
  refine ⟨?_, ?_, ?_⟩ <;> decide

theorem Sys2Proof.Laws.Encoding.send : Sys2Proof.Laws.Encoding.Statement .send := by
  refine ⟨?_, ?_, ?_⟩ <;> decide

theorem Sys2Proof.Laws.Encoding.udpDeliver : Sys2Proof.Laws.Encoding.Statement .udpDeliver := by
  refine ⟨?_, ?_, ?_⟩ <;> decide
end

