-- ==== Sys2Proof/Laws/Stuck.lean ====
section
/-! SUPPORT. No meaning reads whether a call returns, but where it ends: every operation's effect commutes
with `State.withStuck` (spec/60_exceptions.md R288; spec/93_implementation_defined.md U11). -/

namespace Sys2Proof.Machine

/-- What `complete` answers when the call with number `k` never returns (U11). -/
theorem complete_withStuck (s t : State) (k : Nat) :
    complete (s.withStuck (some k)) t =
      if k < t.calls.length then .fault .collaboratorNeverReturns else .next t := by
  simp [complete, callNeverReturns, State.withStuck]

/-- An operation that makes the call does not finish, whatever it would reach (U11). -/
theorem complete_fault {s t : State} {k : Nat} (hs : s.env.stuckAt = some k)
    (hk : k < t.calls.length) : complete s t = .fault .collaboratorNeverReturns := by
  simp [complete, callNeverReturns, hs, hk]

/-- An operation that finishes has not made the call (U11). -/
theorem calls_le_of_complete {s t u : State} {k : Nat} (hs : s.env.stuckAt = some k)
    (h : complete s u = .next t) : t.calls.length ≤ k := by
  obtain rfl := complete_next h
  by_contra hk
  rw [complete_fault hs (by omega)] at h
  cases h

/-- An operation whose effect is the same function of both states ends as U11 says. -/
theorem complete_stuck {s t u : State} {k : Nat} (h : complete (s.withStuck none) u = .next t) :
    (k < t.calls.length →
      complete (s.withStuck (some k)) (u.withStuck (some k)) = .fault .collaboratorNeverReturns) ∧
    (t.calls.length ≤ k →
      complete (s.withStuck (some k)) (u.withStuck (some k)) = .next (t.withStuck (some k))) := by
  have hu := complete_next h
  subst hu
  have hc : (t.withStuck (some k)).calls = t.calls := rfl
  rw [complete_withStuck, hc]
  exact ⟨fun h => if_pos h, fun h => if_neg (by omega)⟩

theorem withStuck_withStuck (s : State) (k l : Option Nat) :
    (s.withStuck k).withStuck l = s.withStuck l := rfl

theorem withStuck_self {s : State} {k : Option Nat} (h : s.env.stuckAt = k) : s.withStuck k = s := by
  subst h; rfl

theorem reinit_withStuck (s : State) (k : Option Nat) :
    reinit (s.withStuck k) = (reinit s).withStuck k := rfl

theorem negotiate_withStuck (s : State) (k : Option Nat) :
    negotiate (s.withStuck k) = (negotiate s).withStuck k := by
  have hd : dhcpAnswer (s.withStuck k) = dhcpAnswer s := rfl
  unfold negotiate
  rw [hd]
  rcases (dhcpAnswer s).1 with _ | c
  · have hz : zcAnswer ((afterAcquire (s.withStuck k)).setMode false (s.withStuck k).nc.zcActive) =
        zcAnswer ((afterAcquire s).setMode false s.nc.zcActive) := rfl
    dsimp only
    unfold fallBack
    rw [hz]
    rcases (zcAnswer ((afterAcquire s).setMode false s.nc.zcActive)).1 with _ | c <;> rfl
  · rfl

theorem initNegotiated_withStuck (s : State) (k : Option Nat) :
    initNegotiated (s.withStuck k) = (initNegotiated s).withStuck k := by
  have hr : reinit (initInputs (s.withStuck k)) = (reinit (initInputs s)).withStuck k := rfl
  have hx : (s.withStuck k).xBool 5 = s.xBool 5 := rfl
  simp only [initNegotiated, hr, hx, negotiate_withStuck]
  split <;> rfl

theorem initResults_withStuck (s : State) (k : Option Nat) :
    initResults (s.withStuck k) = (initResults s).withStuck k := rfl

theorem shutdownCalls_withStuck (s : State) (k : Option Nat) :
    shutdownCalls (s.withStuck k) = (shutdownCalls s).withStuck k := by
  have hd : (s.withStuck k).nc.dhcpActive = s.nc.dhcpActive := rfl
  simp only [shutdownCalls, hd]
  split <;> rfl

theorem setZeroconfNext_withStuck (s : State) (k : Option Nat) :
    setZeroconfNext (s.withStuck k) = (setZeroconfNext s).withStuck k := by
  have hz : zcAnswer (s.withStuck k) = zcAnswer s := rfl
  unfold setZeroconfNext
  rw [hz]
  rcases (zcAnswer s).1 with _ | c <;> rfl

theorem reinitIf_withStuck (b : Bool) (s : State) (k : Option Nat) :
    reinitIf b (s.withStuck k) = (reinitIf b s).withStuck k := by
  cases b <;> rfl

theorem applyZeroconf_withStuck (b : Bool) (t : State) (k : Option Nat) :
    applyZeroconf b (t.withStuck k) = (applyZeroconf b t).withStuck k := by
  have hz : zcAnswer (t.withStuck k) = zcAnswer t := rfl
  have ha : afterNegotiate (t.withStuck k) = (afterNegotiate t).withStuck k := rfl
  unfold applyZeroconf
  rw [hz, ha]
  rcases (zcAnswer t).1 with _ | c
  · exact reinitIf_withStuck _ _ _
  · rfl

theorem applyNext_withStuck (s : State) (k : Option Nat) :
    applyNext (s.withStuck k) = (applyNext s).withStuck k := by
  have hs : applyStaged (s.withStuck k) = (applyStaged s).withStuck k := rfl
  have hp : (s.withStuck k).pend = s.pend := rfl
  have hv : valueStaged (s.withStuck k) = valueStaged s := rfl
  have hn : negotiateOk ((applyStaged s).withStuck k) = negotiateOk (applyStaged s) := rfl
  simp only [applyNext, hs, hp, hv, hn, negotiate_withStuck, reinit_withStuck,
    applyZeroconf_withStuck, reinitIf_withStuck]
  split
  · rfl
  · split <;> rfl

theorem afterAddressing_withStuck (s : State) (ip : Word) (k : Option Nat) :
    afterAddressing (s.withStuck k) ip = (afterAddressing s ip).withStuck k := by
  have hu : (s.withStuck k).ut = s.ut := rfl
  unfold afterAddressing
  rw [hu]
  rcases lookupTarget s.ut ip with _ | target <;> rfl

theorem sendNext_withStuck (s : State) (h : Nat) (k : Option Nat) :
    sendNext (s.withStuck k) h = (sendNext s h).withStuck k := by
  have hu : unboundHandle (s.withStuck k) h = unboundHandle s h := rfl
  have hx : (s.withStuck k).x 3 = s.x 3 := rfl
  have ht : takeId (s.withStuck k) = (takeId s).withStuck k := rfl
  have hd : destinationMac ((takeId s).withStuck k) (s.x 3) = destinationMac (takeId s) (s.x 3) := rfl
  simp only [sendNext, hu, hx, ht, hd, afterAddressing_withStuck]
  split
  · rfl
  · rcases destinationMac (takeId s) (s.x 3) with _ | dmac <;> rfl

theorem deliverFrame_withStuck (s : State) (f : Frame) (k : Option Nat) :
    deliverFrame (s.withStuck k) f = (deliverFrame s f).withStuck k := by
  have hc : (s.withStuck k).cfg = s.cfg := rfl
  have hs : (s.withStuck k).slots = s.slots := rfl
  simp only [deliverFrame, hc, hs]
  split
  · rfl
  · rcases findPort s.slots (dportOf f) with _ | i <;> rfl

theorem udpDeliver_withStuck (s : State) (f : Frame) (k : Option Nat) :
    udpDeliver (s.withStuck k) f = (udpDeliver s f).withStuck k := by
  have hl : deliverLabel (s.withStuck k) f = deliverLabel s f := rfl
  unfold udpDeliver
  rw [deliverFrame_withStuck, hl]
  rfl

theorem dispatchEnd_withStuck (s : State) (k : Option Nat) :
    dispatchEnd (s.withStuck k) = (dispatchEnd s).withStuck k := rfl

theorem handOver_withStuck (s : State) (f : Frame) (k : Option Nat) :
    handOver (s.withStuck k) f = (handOver s f).withStuck k := by
  have hm : (afterIplHandle (s.withStuck k) f).mark .toIp =
      ((afterIplHandle s f).mark .toIp).withStuck k := rfl
  have hi : iplDelivers (s.withStuck k) f = iplDelivers s f := rfl
  unfold handOver
  rcases etherClass f
  · dsimp only
    rw [hm, hi, udpDeliver_withStuck]
    split <;> rfl
  · rfl
  · rfl

theorem dispatchNext_withStuck (s : State) (k : Option Nat) :
    dispatchNext (s.withStuck k) = (dispatchNext s).withStuck k := by
  have hr : recvAnswer (s.withStuck k) = recvAnswer s := rfl
  unfold dispatchNext
  rw [hr]
  rcases recvAnswer s with _ | f
  · rfl
  · have hh : holdFrame (s.withStuck k) f = (holdFrame s f).withStuck k := rfl
    dsimp only
    rw [hh, handOver_withStuck, dispatchEnd_withStuck]

theorem bindNext_withStuck (s : State) (p : Half) (k : Option Nat) :
    bindNext (s.withStuck k) p = (bindNext s p).withStuck k := by
  have hs : (s.withStuck k).slots = s.slots := rfl
  simp only [bindNext, hs]
  split
  · rfl
  · rcases findPort s.slots p with _ | i
    · rcases findPort s.slots 0 with _ | i <;> rfl
    · rfl

theorem unbindNext_withStuck (s : State) (p : Half) (k : Option Nat) :
    unbindNext (s.withStuck k) p = (unbindNext s p).withStuck k := by
  have hs : (s.withStuck k).slots = s.slots := rfl
  simp only [unbindNext, hs]
  split
  · rfl
  · rcases findPort s.slots p with _ | i <;> rfl

theorem recvNext_withStuck (s : State) (h : Nat) (k : Option Nat) :
    recvNext (s.withStuck k) h = (recvNext s h).withStuck k := by
  have hc : (s.withStuck k).cfg = s.cfg := rfl
  have hs : (s.withStuck k).slot h = s.slot h := rfl
  simp only [recvNext, hc, hs]
  split
  · rfl
  · split <;> rfl

theorem recvZcNext_withStuck (s : State) (h : Nat) (k : Option Nat) :
    recvZcNext (s.withStuck k) h = (recvZcNext s h).withStuck k := by
  have hc : (s.withStuck k).cfg = s.cfg := rfl
  have hs : (s.withStuck k).slot h = s.slot h := rfl
  simp only [recvZcNext, hc, hs]
  split
  · rfl
  · split <;> rfl

end Sys2Proof.Machine
end

