-- ==== Sys2Proof/Tests/Slice0.lean ====
section
/-! SUPPORT. Tests on small states, one step each, with results from spec/95_test_vectors.md and the
rules' worked examples; smoke tests of the static checks; and for every statement with hypotheses a
witness: a concrete state and operands that meet them. -/

namespace Sys2Proof.Tests

open Sys2Proof.Machine

/-! ### Small states -/

/-- Whether an outcome is a next state with a property. -/
def next (o : Host.Outcome State Fault Refusal) (p : State → Bool) : Bool :=
  match o with
  | .next t => p t
  | .fault _ => false
  | .refused _ => false

/-- Answers of collaborators that do not touch UDPE (R154, last sentence). -/
def stubs : Env where
  rx := [none]
  arp := [some ⟨0x02, 0, 0, 0, 0, 0x20⟩]
  ipl := [.reference]
  dhcp := [(none, Touch.untouched)]
  zc := [(some ⟨0xA9FE0709, 0xFFFF0000, 0⟩, Touch.untouched)]
  tmr := [Touch.untouched]
  stuckAt := none

/-- The bytes "node" at 0x1000 and "hello" at 0x1100. -/
def hostBytes : Memory :=
  [(0x1000, 0x6E), (0x1001, 0x6F), (0x1002, 0x64), (0x1003, 0x65), (0x1100, 0x68), (0x1101, 0x65),
    (0x1102, 0x6C), (0x1103, 0x6C), (0x1104, 0x6F)]

/-- The own MAC of the vectors. -/
def ownMac : Mac := ⟨0x02, 0, 0, 0, 0, 0x01⟩

/-- A port table whose slots hold these ports, every queue empty. -/
def portTable (ps : List Half) : List Slot :=
  ps.map fun p => { Slot.free Config.reference with port := p }

/-- The standard state S0 of spec/95, with a port table. -/
def withSlots (slots : List Slot) : State :=
  { State.reset with
    nc := { mac := ownMac, cfg := ⟨0xC0A8010A, 0xFFFFFF00, 0xC0A80101⟩, dhcpActive := false,
            zcActive := false, hostname := [0x6E, 0x6F, 0x64, 0x65] }
    ut := ⟨0x000000FF, 0xC0A80100, 0xC0A80101⟩
    slots := slots
    txt := putBytes (putBytes State.reset.txt 6 [0x02, 0, 0, 0, 0, 0x01]) 26 [0xC0, 0xA8, 0x01, 0x0A]
    hostMem := hostBytes
    env := stubs }

/-- S0: port 5000 bound in slot 0. -/
def s0 : State := withSlots (portTable [5000, 0, 0, 0])

/-- A state with operand registers. -/
def args (s : State) (vs : List Word) : State :=
  { s with arg := Vector.ofFn fun k => vs.getD k.val 0 }

/-- A state with the host's coming actions. -/
def hosted (s : State) (acts : List HostAction) : State := { s with host := acts }

/-- A state holding a frame whose delivery is still to be run. -/
def holding (s : State) (f : Frame) : State :=
  { s with held := some { frame := f, called := false, delivered := false } }

/-- A state whose next frame is `f`, with a listed answer of the IP layer. -/
def receiving (s : State) (f : Frame) (a : IplAnswer) : State :=
  { s with env := { stubs with rx := [some f], ipl := [a] } }

/-- Frame F1 of spec/95 section 5, to a destination port. -/
def f1To (hi lo : Byte) : Frame :=
  [ 0x02, 0x00, 0x00, 0x00, 0x00, 0x01, 0x02, 0x00, 0x00, 0x00, 0x00, 0x20, 0x08, 0x00, 0x45, 0x00,
    0x00, 0x20, 0x12, 0x34, 0x00, 0x00, 0x40, 0x11, 0xE5, 0x2A, 0xC0, 0xA8, 0x01, 0x14, 0xC0, 0xA8,
    0x01, 0x0A, 0x17, 0x70, hi, lo, 0x00, 0x0C, 0x00, 0x00, 0x70, 0x69, 0x6E, 0x67 ]

/-- Frame F1: "ping" from 192.168.1.20:6000 to port 5000. -/
def f1 : Frame := f1To 0x13 0x88

/-- Frame F2: 20 payload bytes from port 3000. -/
def f2 : Frame :=
  [ 0x02, 0x00, 0x00, 0x00, 0x00, 0x01, 0x02, 0x00, 0x00, 0x00, 0x00, 0x20, 0x08, 0x00, 0x45, 0x00,
    0x00, 0x30, 0x12, 0x34, 0x00, 0x00, 0x40, 0x11, 0xE5, 0x1A, 0xC0, 0xA8, 0x01, 0x14, 0xC0, 0xA8,
    0x01, 0x0A, 0x0B, 0xB8, 0x13, 0x88, 0x00, 0x1C, 0x00, 0x00, 0x41, 0x42, 0x43, 0x44, 0x45, 0x46,
    0x47, 0x48, 0x49, 0x4A, 0x4B, 0x4C, 0x4D, 0x4E, 0x4F, 0x50, 0x51, 0x52, 0x53, 0x54 ]

/-- The entry F1 leaves (V-RX-1). -/
def e1 : Entry where
  data := [0x70, 0x69, 0x6E, 0x67, 0, 0, 0, 0, 0, 0, 0, 0, 0, 0, 0, 0]
  srcIp := 0xC0A80114
  srcPort := 6000
  len := 4

/-- The entry F2 leaves (V-RX-6): 16 bytes stored, 20 declared. -/
def e2 : Entry where
  data := [0x41, 0x42, 0x43, 0x44, 0x45, 0x46, 0x47, 0x48, 0x49, 0x4A, 0x4B, 0x4C, 0x4D, 0x4E, 0x4F,
    0x50]
  srcIp := 0xC0A80114
  srcPort := 3000
  len := 20

/-- Slot 0 bound to port 5000 with pointers and storage. -/
def slot0 (head tail : Nat) (ring : List Entry) : State :=
  withSlots ({ port := 5000, head := head, tail := tail, ring := ring } :: portTable [0, 0, 0])

/-- One entry queued. -/
def oneQueued : State := slot0 1 0 [e1, e2, e2, e2]

/-- A truncated entry queued. -/
def truncatedQueued : State := slot0 1 0 [e2, e1, e1, e1]

/-- A full queue, whose oldest entry is in storage slot 0. -/
def fullQueue : State := slot0 4 0 [e1, e2, e2, e2]

/-! ### Static checks: each refuses an ill-formed term (R10, R13, R65, R284) -/

theorem test_wf_reference : Config.reference.legal = true := by decide

theorem test_wf_no_ports : Config.legal { Config.reference with nPorts := 0 } = false := by decide

theorem test_wf_capacity_three : Config.legal { Config.reference with qCap := 3 } = false := by
  decide

theorem test_wf_capacity_zero : Config.legal { Config.reference with qCap := 0 } = false := by
  decide

theorem test_wf_capacity_one : Config.legal { Config.reference with qCap := 1 } = true := by decide

theorem test_wf_payload_low : Config.legal { Config.reference with qPayloadMax := 0 } = false := by
  decide

theorem test_wf_payload_high :
    Config.legal { Config.reference with qPayloadMax := 65528 } = false := by decide

theorem test_wf_tx_payload :
    Config.legal { Config.reference with txPayloadMax := 65508 } = false := by decide

theorem test_wf_sys_port_zero : Config.legal { Config.reference with sysPorts := [0] } = false := by
  decide

theorem test_wf_sys_port_high :
    Config.legal { Config.reference with sysPorts := [1024] } = false := by decide

theorem test_wf_fragments :
    Config.legal { Config.reference with txFlagsFrag := 0x2000 } = false := by decide

theorem test_wf_ttl : Config.legal { Config.reference with txTtl := 0 } = false := by decide

theorem test_wf_build_rejects : Config.build { Config.reference with qCap := 6 } = none := by decide

theorem test_wf_host_cannot_deliver : Invocation.wf ⟨.host, .udpDeliver⟩ = false := by decide

theorem test_wf_ip_layer_cannot_send : Invocation.wf ⟨.ipLayer, .send⟩ = false := by decide

theorem test_wf_narrow_write : HostAction.wf (.writeReg 8 2 0) = false := by decide

theorem test_wf_unaligned_read : HostAction.wf (.readReg 0x41 4) = false := by decide

/-! ### Decoding: the word of every constructor, from R92 and R98 -/

theorem test_decode_init : decodeCommand 0x00000001 = .instr .init := by decide

theorem test_decode_shutdown : decodeCommand 0x00000002 = .instr .shutdown := by decide

theorem test_decode_set_ip : decodeCommand 0x00000003 = .instr .setIp := by decide

theorem test_decode_set_gateway : decodeCommand 0x00000004 = .instr .setGateway := by decide

theorem test_decode_set_dhcp : decodeCommand 0x00000005 = .instr .setDhcp := by decide

theorem test_decode_set_zeroconf : decodeCommand 0x00000006 = .instr .setZeroconf := by decide

theorem test_decode_dispatch : decodeCommand 0x00000007 = .instr .dispatch := by decide

theorem test_decode_queue_ip : decodeCommand 0x00000008 = .instr .queueIp := by decide

theorem test_decode_queue_netmask : decodeCommand 0x00000009 = .instr .queueNetmask := by decide

theorem test_decode_queue_gateway : decodeCommand 0x0000000A = .instr .queueGateway := by decide

theorem test_decode_queue_dhcp : decodeCommand 0x0000000B = .instr .queueDhcp := by decide

theorem test_decode_queue_zeroconf : decodeCommand 0x0000000C = .instr .queueZeroconf := by decide

theorem test_decode_apply : decodeCommand 0x0000000D = .instr .apply := by decide

theorem test_decode_set_ip_config : decodeCommand 0x00000010 = .instr .setIpConfig := by decide

theorem test_decode_bind : decodeCommand 0x00000011 = .instr .bind := by decide

theorem test_decode_unbind : decodeCommand 0x00000012 = .instr .unbind := by decide

theorem test_decode_recv : decodeCommand 0x00000013 = .instr .recv := by decide

theorem test_decode_recv_zc : decodeCommand 0x00000014 = .instr .recvZc := by decide

theorem test_decode_send : decodeCommand 0x00000015 = .instr .send := by decide

theorem test_decode_udp_deliver : decodeSelector 0x00000100 = .instr .udpDeliver := by decide

/-- V-ENC-1: bits 31:8 are ignored. -/
theorem test_decode_ignores_high_bits : decodeCommand 0xABCDEF11 = .instr .bind := by decide

/-- R95: the edges of the reserved ranges. -/
theorem test_decode_reserved :
    [0x00, 0x0E, 0x0F, 0x16, 0xFF, 0x100].map (fun n => decodeCommand (BitVec.ofNat 32 n)) =
      [.reserved 0x00, .reserved 0x0E, .reserved 0x0F, .reserved 0x16, .reserved 0xFF,
        .reserved 0x00] := by decide

/-- P1's encoding of a `BIND` of port 5000: `ARG[0] = 0x00001388`, `CMD = 0x00000011`. -/
theorem test_encode_bind :
    (HostCommand.bind 5000).writes = [.writeReg 0x008 4 0x00001388, .writeReg 0x000 4 0x00000011] :=
  by decide

/-! ### Checksum vectors of spec/95 section 2 -/

/-- V-CS-2, the widely published header. -/
theorem test_checksum_published :
    ipcsum (List.replicate 14 0 ++ [0x45, 0x00, 0x00, 0x73, 0x00, 0x00, 0x40, 0x00, 0x40, 0x11, 0x00,
      0x00, 0xC0, 0xA8, 0x00, 0x01, 0xC0, 0xA8, 0x00, 0xC7]) = 0xB861 := by decide

/-- V-CS-5: the fold must be applied twice. -/
theorem test_checksum_two_folds :
    ipcsum (List.replicate 14 0 ++ [0x45, 0x00, 0x00, 0x1C, 0x79, 0x20, 0x40, 0x00, 0x40, 0x11, 0x00,
      0x00, 0xC0, 0xA8, 0x01, 0x0A, 0xFF, 0xFF, 0xFF, 0xFF]) = 0xFFFE := by decide

/-! ### One step per test, from the vectors -/

/-- V-NC-1. -/
theorem test_init_static :
    next (exec .init (args { s0 with nc := State.reset.nc, ut := State.reset.ut }
      [0x0200, 0x00000001, 0xC0A8010A, 0xFFFFFF00, 0xC0A80101, 0, 0x1000, 4])) (fun t =>
      t.nc = s0.nc ∧ t.ut = s0.ut ∧ t.txt = s0.txt ∧
        t.res.toList = [0xC0A8010A, 0xFFFFFF00, 0xC0A80101, 0] ∧ t.statusWord = 0 ∧
        t.calls = [.arReinit ownMac s0.nc.cfg, .iplReinit ownMac s0.nc.cfg,
          .arReinit ownMac s0.nc.cfg, .iplReinit ownMac s0.nc.cfg]) = true := by decide

/-- V-NC-3. -/
theorem test_init_zeroconf :
    next (exec .init (args s0 [0x0200, 0x00000001, 0, 0, 0, 1, 0x1000, 4])) (fun t =>
      t.res.toList = [0xA9FE0709, 0xFFFF0000, 0, 1] ∧ t.statusWord = 0x00000400 ∧
        t.ut = ⟨0x0000FFFF, 0xA9FE0000, 0⟩ ∧
        t.calls = [.arReinit ownMac ⟨0, 0, 0⟩, .iplReinit ownMac ⟨0, 0, 0⟩,
          .dhcpAcquire ownMac [0x6E, 0x6F, 0x64, 0x65], .zcNegotiate ⟨0, 0, 0⟩,
          .arReinit ownMac ⟨0xA9FE0709, 0xFFFF0000, 0⟩,
          .iplReinit ownMac ⟨0xA9FE0709, 0xFFFF0000, 0⟩]) = true := by decide

/-- V-NC-2, its `SHUTDOWN`. -/
theorem test_shutdown_releases :
    next (exec .shutdown { s0 with nc := { s0.nc with dhcpActive := true } }) (fun t =>
      t.calls = [.iplShutdown, .dhcpRelease] ∧ t.statusWord = 0x00000200) = true := by
  decide

/-- V-NC-4. -/
theorem test_set_ip :
    next (exec .setIp (args s0 [0x0A000005])) (fun t =>
      t.nc.cfg = ⟨0x0A000005, 0xFFFFFF00, 0xC0A80101⟩ ∧ t.bcast = 0x0A0000FF ∧
        t.ut = ⟨0x000000FF, 0x0A000000, 0xC0A80101⟩ ∧ t.srcIp = 0x0A000005 ∧
        t.calls.length = 2) = true := by decide

/-- V-NC-5. -/
theorem test_set_gateway :
    next (exec .setGateway (args s0 [0xC0A801FE])) (fun t =>
      t.nc.cfg = ⟨0xC0A8010A, 0xFFFFFF00, 0xC0A801FE⟩ ∧
        t.ut = ⟨0x000000FF, 0xC0A80100, 0xC0A801FE⟩) = true := by decide

/-- V-NC-6 (b). -/
theorem test_set_dhcp_falls_back :
    next (exec .setDhcp s0) (fun t =>
      t.res[0] = 0 ∧ t.nc.dhcpActive = false ∧ t.nc.zcActive = true ∧ t.nc.cfg.ip = 0xA9FE0709 ∧
        t.calls.take 2 = [.dhcpAcquire ownMac [0x6E, 0x6F, 0x64, 0x65],
          .zcNegotiate ⟨0xC0A8010A, 0xFFFFFF00, 0xC0A80101⟩]) = true := by decide

/-- V-NC-6 (c): both fail from `Dhcp` mode; the configuration stays, the mode is `Static`. -/
theorem test_set_dhcp_both_fail :
    next (exec .setDhcp { s0 with
        nc := { s0.nc with dhcpActive := true }
        env := { stubs with zc := [(none, Touch.untouched)] } }) (fun t =>
      t.res[0] = 0 ∧ t.nc = s0.nc ∧ t.calls.length = 4) = true := by decide

/-- V-NC-6 (d): a failed zeroconf changes nothing and re-initialises nothing. -/
theorem test_set_zeroconf_fails :
    next (exec .setZeroconf { s0 with env := { stubs with zc := [(none, Touch.untouched)] } })
      (fun t => t.res[0] = 0 ∧ t.nc = s0.nc ∧ t.ut = s0.ut ∧ t.txt = s0.txt ∧
        t.calls = [.zcNegotiate s0.nc.cfg]) = true := by decide

/-- V-NC-6 (e): on success from `Dhcp` mode the lease is not released. -/
theorem test_set_zeroconf_succeeds :
    next (exec .setZeroconf { s0 with nc := { s0.nc with dhcpActive := true } }) (fun t =>
      t.res[0] = 1 ∧ t.nc.dhcpActive = false ∧ t.nc.zcActive = true ∧
        t.calls = [.zcNegotiate s0.nc.cfg, .arReinit ownMac ⟨0xA9FE0709, 0xFFFF0000, 0⟩,
          .iplReinit ownMac ⟨0xA9FE0709, 0xFFFF0000, 0⟩]) = true := by decide

/-- V-NC-8 (d): a frame of 10 bytes. -/
theorem test_dispatch_short_frame :
    next (exec .dispatch (receiving s0 (List.replicate 10 0) .reference)) (fun t =>
      t.calls = [.fioRecv, .logDropEthertype 0xFFFFFFFF, .fioFree, .tmrRun] ∧
        t.labels = [.dropEthertype] ∧ t.slots = s0.slots) = true := by decide

/-- V-NC-8 (f): F1 delivered by the reference IP layer. -/
theorem test_dispatch_delivers :
    next (exec .dispatch (receiving s0 f1 .reference)) (fun t =>
      t.calls = [.fioRecv, .iplHandle f1, .fioFree, .tmrRun] ∧
        t.labels = [.toIp, .queued false false] ∧ (t.slot 0).entry t.cfg 0 = e1 ∧
        (t.slot 0).head = 1 ∧ t.statusWord = 0) = true := by decide

/-- V-NC-7, first command. -/
theorem test_queue_ip :
    next (exec .queueIp (args s0 [0x0A000005])) (fun t =>
      t.pend = ⟨0b00001, 0x0A000005, 0, 0⟩ ∧ t.nc = s0.nc) = true := by decide

/-- V-NC-7, second command. -/
theorem test_queue_netmask :
    next (exec .queueNetmask { args s0 [0xFF000000] with pend := ⟨0b00001, 0x0A000005, 0, 0⟩ })
      (fun t => t.pend = ⟨0b00011, 0x0A000005, 0xFF000000, 0⟩) = true := by decide

/-- R160. -/
theorem test_queue_gateway :
    next (exec .queueGateway (args s0 [0x0A000001])) (fun t =>
      t.pend = ⟨0b00100, 0, 0, 0x0A000001⟩) = true := by decide

/-- R161: the later request wins. -/
theorem test_queue_dhcp :
    next (exec .queueDhcp { s0 with pend := ⟨0b10001, 0, 0, 0⟩ }) (fun t =>
      t.pend.mask = 0b01001) = true := by decide

/-- V-NC-7, last sentence. -/
theorem test_queue_zeroconf :
    next (exec .queueZeroconf { s0 with pend := ⟨0b01000, 0, 0, 0⟩ }) (fun t =>
      t.pend.mask = 0b10000) = true := by decide

/-- V-NC-7, the `APPLY`. -/
theorem test_apply :
    next (exec .apply { s0 with pend := ⟨0b00011, 0x0A000005, 0xFF000000, 0⟩ }) (fun t =>
      t.nc.cfg = ⟨0x0A000005, 0xFF000000, 0xC0A80101⟩ ∧
        t.ut = ⟨0x00FFFFFF, 0x0A000000, 0xC0A80101⟩ ∧ t.pend.mask = 0 ∧ t.res[0] = 0 ∧
        t.calls = [.arReinit ownMac ⟨0x0A000005, 0xFF000000, 0xC0A80101⟩,
          .iplReinit ownMac ⟨0x0A000005, 0xFF000000, 0xC0A80101⟩]) = true := by decide

/-- R162: a queued zeroconf request that succeeds reports `zc_used` in bit 1. -/
theorem test_apply_zeroconf :
    next (exec .apply { s0 with pend := ⟨0b10001, 0x0A000005, 0, 0⟩ }) (fun t =>
      t.res[0] = 2 ∧ t.nc.cfg = ⟨0xA9FE0709, 0xFFFF0000, 0⟩ ∧
        t.calls.head? = some (.zcNegotiate ⟨0x0A000005, 0xFFFFFF00, 0xC0A80101⟩)) = true := by
  decide

/-- V-BIND-3, with the netmask of all ones. -/
theorem test_set_ip_config :
    next (exec .setIpConfig (args State.reset [0xC0A8010A, 0xFFFFFFFF, 0xC0A80101])) (fun t =>
      t.ut = ⟨0, 0xC0A8010A, 0xC0A80101⟩ ∧ t.srcIp = 0xC0A8010A ∧ t.nc = State.reset.nc ∧
        (t.txt.drop 6).take 6 = [0, 0, 0, 0, 0, 0]) = true := by decide

/-- V-BIND-1 step 9: the existing binding, not the hole at 1. -/
theorem test_bind_existing :
    next (exec .bind (args (withSlots (portTable [5000, 0, 7000, 8000])) [8000])) (fun t =>
      t.status = .ok ∧ t.res[0] = 3 ∧ t.slots = portTable [5000, 0, 7000, 8000]) = true := by
  decide

/-- V-BIND-1 step 6. -/
theorem test_bind_full :
    next (exec .bind (args (withSlots (portTable [5000, 6000, 7000, 8000])) [9000])) (fun t =>
      t.status = .errTableFull ∧ t.res[0] = 0xFFFFFFFF ∧
        t.slots = portTable [5000, 6000, 7000, 8000]) = true := by decide

/-- V-BIND-2: the queue is reset, the storage is not cleared. -/
theorem test_unbind :
    next (exec .unbind (args fullQueue [5000])) (fun t =>
      t.status = .ok ∧ t.slot 0 = { port := 0, head := 0, tail := 0, ring := [e1, e2, e2, e2] }) =
        true := by decide

/-- V-BIND-1 step 8. -/
theorem test_unbind_not_bound :
    next (exec .unbind (args s0 [6000])) (fun t =>
      t.statusWord = 0x00000003 ∧ t.slots = s0.slots) = true := by decide

/-- V-RX-1, the `RECV`. -/
theorem test_recv :
    next (exec .recv (args oneQueued [0, 0x2000, 100])) (fun t =>
      t.status = .ok ∧ t.res.toList = [4, 0xC0A80114, 6000, 0] ∧ (t.slot 0).tail = 1 ∧
        memRead t.hostMem 0x2000 5 = [0x70, 0x69, 0x6E, 0x67, 0]) = true := by decide

/-- V-RX-6 (a): a short read consumes the entry. -/
theorem test_recv_short :
    next (exec .recv (args truncatedQueued [0, 0x2000, 8])) (fun t =>
      t.res[0] = 8 ∧ t.res[2] = 3000 ∧ (t.slot 0).tail = 1 ∧
        memRead t.hostMem 0x2000 9 = [0x41, 0x42, 0x43, 0x44, 0x45, 0x46, 0x47, 0x48, 0]) = true := by
  decide

/-- V-RX-1 with `RECV_ZC`. -/
theorem test_recv_zc :
    next (exec .recvZc (args oneQueued [0])) (fun t =>
      t.status = .ok ∧ t.res.toList = [4, 0xC0A80114, 6000, 0] ∧ (t.slot 0).tail = 1 ∧
        t.hostMem = oneQueued.hostMem ∧
        [t.qram 0 0, t.qram 0 1, t.qram 0 2, t.qram 0 3] = [0x70, 0x69, 0x6E, 0x67]) = true := by
  decide

/-- V-TX-1, the whole frame. -/
theorem test_send_broadcast :
    next (exec .send (args s0 [0, 0x1100, 5, 0xFFFFFFFF, 6454])) (fun t =>
      t.status = .ok ∧ t.ipId = 1 ∧ t.calls = [.fioTransmit
        [ 0xFF, 0xFF, 0xFF, 0xFF, 0xFF, 0xFF, 0x02, 0x00, 0x00, 0x00, 0x00, 0x01, 0x08, 0x00, 0x45,
          0x00, 0x00, 0x21, 0x00, 0x00, 0x40, 0x00, 0x40, 0x11, 0x79, 0x1A, 0xC0, 0xA8, 0x01, 0x0A,
          0xFF, 0xFF, 0xFF, 0xFF, 0x13, 0x88, 0x19, 0x36, 0x00, 0x0D, 0x00, 0x00, 0x68, 0x65, 0x6C,
          0x6C, 0x6F ]]) = true := by decide

/-- V-TX-14 and V-TX-4 together: the identifier wraps; the multicast MAC masks bit 23. -/
theorem test_send_multicast :
    next (exec .send (args { s0 with ipId := 0xFFFF } [0, 0, 0, 0xEFFF0001, 5568])) (fun t =>
      t.ipId = 0 ∧ t.txt.take 6 = [0x01, 0x00, 0x5E, 0x7F, 0x00, 0x01] ∧ be16 t.txt 18 = 0xFFFF) =
        true := by decide

/-- V-RX-6: truncation. -/
theorem test_udp_deliver_truncates :
    next (exec .udpDeliver (holding s0 f2)) (fun t =>
      t.labels = [.queued false true] ∧ (t.slot 0).entry t.cfg 0 = e2 ∧ (t.slot 0).head = 1) =
        true := by decide

/-- V-RX-7, datagram 5: overwrite on a full queue. -/
theorem test_udp_deliver_overwrites :
    next (exec .udpDeliver (holding fullQueue f2)) (fun t =>
      t.labels = [.queued true true] ∧ (t.slot 0).head = 5 ∧ (t.slot 0).tail = 1 ∧
        ((t.slot 0).unread t.cfg) = [e2, e2, e2, e2]) = true := by decide

/-- V-ENC-3 and R66: reads in S0. -/
theorem test_register_reads :
    List.map s0.readReg [0x040, 0x044, 0x048, 0x04C, 0x050, 0x054, 0x070, 0x074, 0x078, 0x07C, 0x080,
        0x100, 0x104, 0x120] =
      [0xC0A8010A, 0xFFFFFF00, 0xC0A80101, 0xC0A801FF, 0x00000200, 0x00000001, 0x000000FF, 0xC0A80100,
        0xC0A80101, 0xC0A8010A, 0x00000000, 0x00001388, 0x00000000, 0x00000000] := by decide

/-- `withFetchWord` places every row's word as the next step: a command at reset, and the delivery
port. -/
theorem test_fetch_word :
    next (step (State.reset.withFetchWord 8 0x08)) (fun t => t.pend.mask = 0b00001 ∧ t.cmd = 0x08) =
        true ∧
      next (step (State.reset.withFetchWord 16 0x100)) (fun t => t.labels = [.dropNoPort]) = true :=
  ⟨by decide, by decide⟩

/-! ### States that meet the invariants -/

theorem s0_template : s0.txt.length = 42 + s0.cfg.txPayloadMax := by decide

theorem s0_constants : ConstantBytes s0.cfg s0.txt := by constructor <;> decide

theorem portTable_ok (ps : List Half) : ∀ sl ∈ portTable ps, sl.Ok Config.reference := by
  intro sl h
  obtain ⟨p, -, rfl⟩ := List.mem_map.mp h
  exact ⟨(by decide : 0 < 8), (by decide : 0 < 8), (by decide : (0 + 2 * 4 - 0) % (2 * 4) ≤ 4), rfl,
    (by decide : ∀ e ∈ (Slot.free Config.reference).ring, e.data.length = 16), fun _ => ⟨rfl, rfl⟩⟩

/-- S0 with any well-formed table meets the invariants. -/
theorem withSlots_inv {slots : List Slot} (hl : slots.length = 4)
    (ok : ∀ sl ∈ slots, sl.Ok Config.reference) (hu : portsUnique slots) :
    (withSlots slots).Inv where
  legal := (by decide : Config.reference.legal = true)
  modeExclusive := (by decide : ¬ (false = true ∧ false = true))
  hostnameFits := (by decide : 4 ≤ 16)
  pendExclusive := (by decide : ¬ ((0 : BitVec 5).getLsbD 3 = true ∧ (0 : BitVec 5).getLsbD 4 = true))
  tableSize := hl
  slotsOk := ok
  unique := hu
  templateSize := s0_template
  templateConst := s0_constants
  memWf := (by decide : Memory.wf hostBytes = true)

theorem portTable_inv (ps : List Half) (hl : ps.length = 4)
    (hu : ps.Pairwise (fun a b => a ≠ 0 → a ≠ b)) : (withSlots (portTable ps)).Inv :=
  withSlots_inv (by simpa [portTable] using hl) (portTable_ok ps)
    (by simpa [portTable, portsUnique, List.pairwise_map] using hu)

theorem s0_inv : s0.Inv := portTable_inv _ rfl (by decide)

/-- S0 with a queue of slot 0 that fits its pointers meets the invariants. -/
theorem slot0_inv {head tail : Nat} {ring : List Entry} (hh : head < 8) (ht : tail < 8)
    (hc : (head + 8 - tail) % 8 ≤ 4) (hr : ring.length = 4)
    (hd : ∀ e ∈ ring, e.data.length = 16) : (slot0 head tail ring).Inv := by
  refine withSlots_inv rfl ?_ (by simp [portsUnique, portTable])
  intro sl h
  rcases List.mem_cons.mp h with rfl | h
  · exact ⟨hh, ht, hc, hr, hd, fun hp => absurd hp (by decide : (5000 : Half) ≠ 0)⟩
  · exact portTable_ok _ sl h

theorem oneQueued_inv : oneQueued.Inv :=
  slot0_inv (by decide) (by decide) (by decide) rfl (by decide)

theorem truncatedQueued_inv : truncatedQueued.Inv :=
  slot0_inv (by decide) (by decide) (by decide) rfl (by decide)

theorem fullQueue_inv : fullQueue.Inv :=
  slot0_inv (by decide) (by decide) (by decide) rfl (by decide)

/-- Operand registers, host actions, a held frame, coming answers and the identifier are not part of
the invariants. -/
theorem inv_dress {s : State} (h : s.Inv) (arg : Vector Word 8) (acts : List HostAction)
    (held : Option Held) (env : Env) (ipId : Half) :
    State.Inv { s with arg := arg, host := acts, held := held, env := env, ipId := ipId } :=
  h.of_same rfl rfl rfl rfl rfl rfl

theorem s0_coherent : Coherent s0 := by constructor <;> decide

/-! ### Witnesses: for every statement with hypotheses, states and operands that meet them -/

/-- A next state with a status code, from its evaluation. -/
theorem ends {o : Host.Outcome State Fault Refusal} {c : Status}
    (h : next o (fun t => t.status = c) = true) : ∃ t, o = .next t ∧ t.status = c := by
  cases o with
  | next t => exact ⟨t, rfl, by simpa [next] using h⟩
  | fault f => cases h
  | refused r => cases h

/-- The state of S0 in which the host's next actions are these. -/
theorem hosted_inv (acts : List HostAction) : (hosted s0 acts).Inv :=
  inv_dress s0_inv _ _ _ _ _

theorem args_inv {s : State} (h : s.Inv) (vs : List Word) : (args s vs).Inv :=
  inv_dress h _ _ _ _ _

theorem holding_inv {s : State} (h : s.Inv) (f : Frame) : (holding s f).Inv :=
  inv_dress h _ _ _ _ _

theorem witness_ResetMeetsInvariants : Config.reference.legal = true := by decide

theorem witness_EveryStepKeepsInvariants :
    (hosted s0 [.writeReg 0 4 0x07]).Inv ∧
      ∃ t, step (hosted s0 [.writeReg 0 4 0x07]) = .next t ∧ t.status = .ok :=
  ⟨hosted_inv _, ends (by decide)⟩

theorem witness_NothingIsCreatedOrResized :
    (∃ t, step (hosted s0 [.writeReg 0 4 0x11]) = .next t ∧ t.status = .errBadPort) ∧
      ∃ t, exec .shutdown s0 = .next t ∧ t.status = .ok :=
  ⟨ends (by decide), ends (by decide)⟩

theorem witness_BadCapacityIsRejected :
    (∀ k, Config.qCap { Config.reference with qCap := 3 } ≠ 2 ^ k) ∧
      Config.build Config.reference = some Config.reference := by
  refine ⟨fun k => ?_, by decide⟩
  rcases k with _ | _ | k
  · decide
  · decide
  · show 3 ≠ 2 ^ (k + 1 + 1)
    rw [pow_succ, pow_succ]
    omega

theorem witness_CommandLineLoadsAndRuns :
    let c : HostCommand := .send 0 0x1100 5 0xFFFFFFFF 6454
    (hosted s0 (c.writes ++ [])).held = none ∧ (hosted s0 (c.writes ++ [])).host = c.writes ++ [] :=
  ⟨rfl, rfl⟩

theorem witness_CommandWriteRunsDecodedInstruction :
    (hosted s0 [.writeReg 0 4 0xABCDEF11]).held = none ∧
      (hosted s0 [.writeReg 0 4 0xABCDEF11]).host = [.writeReg 0 4 0xABCDEF11] ∧
      decodeCommand 0xABCDEF11 = .instr .bind := ⟨rfl, rfl, by decide⟩

/-- The edges of each range of reserved opcodes, under ignored high bits. -/
theorem witness_ReservedOpcodeIsReported :
    (hosted s0 [.writeReg 0 4 0x00000100]).held = none ∧
      (0x00000100 : Word).extractLsb' 0 8 = 0x00 ∧ (0x0000000E : Word).extractLsb' 0 8 = 0x0E ∧
      (0xFFFFFF0F : Word).extractLsb' 0 8 = 0x0F ∧
      0x16 ≤ ((0x00000016 : Word).extractLsb' 0 8).toNat ∧
      0x16 ≤ ((0x000001FF : Word).extractLsb' 0 8).toNat :=
  ⟨rfl, by decide, by decide, by decide, by decide, by decide⟩

theorem witness_DeliveryPortStepRunsUdpDeliver :
    ∃ h : Held, (s0.setHeld (some ⟨f1, true, false⟩)).held = some h ∧ h.called = true := ⟨_, rfl, rfl⟩

theorem witness_BusyHoldsHostOff :
    (holding s0 f1).busy = true ∧ ∃ t, step (holding s0 f1) = .next t ∧ t.status = .ok :=
  ⟨rfl, ends (by decide)⟩

theorem witness_SuspendedDispatchEnds :
    ∃ h : Held, (holding s0 f1).held = some h ∧ h.called = false ∧ (holding s0 f1).callsReturn :=
  ⟨_, rfl, rfl, rfl⟩

/-- The first and last `ARG`, the first read-only result register, `STATUS`, and the last pointer
register. -/
theorem witness_RegisterMap :
    s0.held = none ∧ (0x008 + 4 * (0 : Fin 8).val) % 4 = 0 ∧ (0x008 + 4 * (7 : Fin 8).val) = 0x024 ∧
      0x028 ≤ 0x028 ∧ 0x028 % 4 = 0 ∧ 0x11C % 4 = 0 ∧ 3 < s0.cfg.nPorts ∧
      (s0.slot 3).head < 2 ^ 16 ∧ (s0.slot 3).tail < 2 ^ 16 := by decide

theorem witness_UnsupportedAccessIsRefused :
    (hosted s0 [.writeReg 0x008 2 0]).held = none ∧ (2 ≠ 4 ∨ 0x008 % 4 ≠ 0) ∧
      (hosted s0 [.readReg 0x042 4]).held = none ∧ (4 ≠ 4 ∨ 0x042 % 4 ≠ 0) := by decide

/-- The last byte of the window, and the first entry beyond it. -/
theorem witness_QramWindowRead :
    s0.held = none ∧ (hosted s0 [.readQram (3 * s0.cfg.qCap + 3) 15]).host =
      [.readQram (3 * s0.cfg.qCap + 3) 15] ∧ 3 < s0.cfg.nPorts ∧ 3 < s0.cfg.qCap ∧
      15 < s0.cfg.qPayloadMax ∧ s0.qramInRange 16 0 = false := by decide

theorem witness_HostMemoryWrite :
    (hosted s0 [.writeMem 0xFFFFFFFF 0x41]).Inv ∧
      (hosted s0 [.writeMem 0xFFFFFFFF 0x41]).held = none := ⟨hosted_inv _, rfl⟩

/-- Bit 0 of `ARG[5]` decides, whatever the other bits. -/
theorem witness_InitStatic :
    (args s0 [0, 0, 0, 0, 0, 0xFFFFFFFE]).Inv ∧ (args s0 [0, 0, 0, 0, 0, 0xFFFFFFFE]).callsReturn ∧
      ((args s0 [0, 0, 0, 0, 0, 0xFFFFFFFE]).x 5).getLsbD 0 = false :=
  ⟨args_inv s0_inv _, rfl, by decide⟩

theorem witness_InitNegotiated :
    (args s0 [0, 0, 0, 0, 0, 1]).Inv ∧ (args s0 [0, 0, 0, 0, 0, 1]).callsReturn ∧
      ((args s0 [0, 0, 0, 0, 0, 1]).x 5).getLsbD 0 = true := ⟨args_inv s0_inv _, rfl, by decide⟩

theorem witness_ShutdownReleasesLease : s0.callsReturn := rfl

theorem witness_SetIpReinitialises :
    (args s0 [0x0A000005]).Inv ∧ (args s0 [0x0A000005]).callsReturn := ⟨args_inv s0_inv _, rfl⟩

theorem witness_SetGatewayReinitialises :
    (args s0 [0xC0A801FE]).Inv ∧ (args s0 [0xC0A801FE]).callsReturn := ⟨args_inv s0_inv _, rfl⟩

theorem witness_SetDhcpNegotiates : s0.Inv ∧ s0.callsReturn := ⟨s0_inv, rfl⟩

/-- S0 with a failing zeroconf collaborator. -/
def zcFails : State := { s0 with env := { stubs with zc := [(none, Touch.untouched)] } }

/-- Both answers of the collaborator. -/
theorem witness_SetZeroconfNegotiates :
    s0.Inv ∧ s0.callsReturn ∧ (zcAnswer s0).1 = some ⟨0xA9FE0709, 0xFFFF0000, 0⟩ ∧
      zcFails.Inv ∧ zcFails.callsReturn ∧ (zcAnswer zcFails).1 = none :=
  ⟨s0_inv, rfl, rfl, inv_dress s0_inv _ _ _ _ _, rfl, rfl⟩

/-- S0 with pending changes. -/
def pending (s : State) (mask : BitVec 5) : State :=
  { s with pend := ⟨mask, 0x0A000005, 0xFF000000, 0x0A000001⟩ }

theorem pending_inv {s : State} (h : s.Inv) {mask : BitVec 5}
    (hm : ¬ (mask.getLsbD 3 = true ∧ mask.getLsbD 4 = true)) : (pending s mask).Inv :=
  setPend_inv h hm

/-- Nothing staged, and all three values staged. -/
theorem witness_ApplyStagedValues : ∀ m ∈ [0b00000, (0b00111 : BitVec 5)],
    (pending s0 m).Inv ∧ (pending s0 m).callsReturn ∧ (pending s0 m).pend.mask.getLsbD 3 = false ∧
      (pending s0 m).pend.mask.getLsbD 4 = false := by
  intro m hm
  have h : m.getLsbD 3 = false ∧ m.getLsbD 4 = false := by
    rcases List.mem_cons.mp hm with rfl | hm
    · exact ⟨rfl, rfl⟩
    · cases List.mem_singleton.mp hm
      exact ⟨rfl, rfl⟩
  exact ⟨pending_inv s0_inv (fun x => Bool.noConfusion (h.1.symm.trans x.1)), rfl, h.1, h.2⟩

theorem witness_ApplyQueuedDhcp :
    (pending s0 0b01001).Inv ∧ (pending s0 0b01001).callsReturn ∧
      (pending s0 0b01001).pend.mask.getLsbD 3 = true := ⟨pending_inv s0_inv (by decide), rfl, by decide⟩

/-- Success; failure with and without staged values. -/
theorem witness_ApplyQueuedZeroconf :
    (pending s0 0b10000).Inv ∧ (zcAnswer (pending s0 0b10000)).1.isSome = true ∧
      (pending zcFails 0b10001).Inv ∧ (zcAnswer (pending zcFails 0b10001)).1 = none ∧
      (pending zcFails 0b10000).Inv ∧ (pending zcFails 0b10000).callsReturn ∧
      (0b10000 : BitVec 5).getLsbD 3 = false ∧ (0b10000 : BitVec 5).getLsbD 4 = true ∧
      (0b10001 : BitVec 5).extractLsb' 0 3 ≠ 0 ∧ (0b10000 : BitVec 5).extractLsb' 0 3 = 0 :=
  ⟨pending_inv s0_inv (by decide), rfl, pending_inv (inv_dress s0_inv _ _ _ _ _) (by decide), rfl,
    pending_inv (inv_dress s0_inv _ _ _ _ _) (by decide), rfl, by decide⟩

/-- An operation outside every list of writers answers a next state. -/
theorem witness_NetworkCoreRegisterWriters :
    ∃ t, exec .bind (args s0 [6000]) = .next t ∧ t.status = .ok := ends (by decide)

theorem witness_ModeTransitions : ∃ t, exec .setDhcp s0 = .next t ∧ t.status = .ok :=
  ends (by decide)

theorem witness_OnlySetIpConfigBreaksCoherence :
    (args s0 [0x0A000005]).Inv ∧ Coherent (args s0 [0x0A000005]) ∧ Instr.setIp ≠ .setIpConfig ∧
      ∃ t, exec .setIp (args s0 [0x0A000005]) = .next t ∧ t.status = .ok :=
  ⟨args_inv s0_inv _, s0_coherent.congr rfl rfl rfl rfl, by decide, ends (by decide)⟩

theorem witness_NetworkCoreCommandsNeverFail :
    s0.callsReturn ∧ deliveryContractBroken s0 = false ∧
      deliveryContractBroken (receiving s0 f1 .deliver) = false := ⟨rfl, rfl, by decide⟩

/-- The call that never returns: the first of any operation, of an `APPLY` with a request staged, and of
the operations and steps that end before it. The calls of a `SEND` are in
`witness_stuck_send`, where its operands are. -/
theorem witness_CallThatNeverReturnsIsStuck :
    (s0.withStuck (some 0)).env.stuckAt = some (s0.withStuck (some 0)).calls.length ∧
      deliveryContractBroken (s0.withStuck (some 0)) = false ∧
      ({ s0 with pend := { s0.pend with mask := 0b10000 } } : State).pend.mask ≠ 0 ∧
      (∃ t, exec .setIp (s0.withStuck (some 2)) = .next t ∧ t.status = .ok) ∧
      ∃ t, step ((hosted s0 [.writeReg 0 4 0x00000004]).withStuck (some 2)) = .next t ∧ t.status = .ok :=
  ⟨rfl, rfl, by decide, ends (by decide), ends (by decide)⟩

/-- The second call of a `SET_IP` and of the step that runs it is made, and one past it is not. -/
theorem witness_OnlyTheStuckCallStopsAnOperation :
    (∃ t, exec .setIp (s0.withStuck none) = .next t ∧ t.calls.length = 2) ∧
      (∃ t, step ((hosted s0 [.writeReg 0 4 0x00000004]).withStuck none) = .next t ∧
        t.calls.length = 2) ∧ s0.calls.length ≤ 1 :=
  ⟨⟨_, rfl, rfl⟩, ⟨_, rfl, rfl⟩, by decide⟩

theorem witness_SetIpConfigLoadsTransport : (args s0 [0x0A000005, 0xFF000000, 0]).Inv :=
  args_inv s0_inv _

/-- The four cases: port 0 under ignored high bits, an existing binding in the last slot, the last slot
free, a full table. -/
theorem witness_BindFirstFit :
    ((args s0 [0xFFFF0000]).Inv ∧ ((args s0 [0xFFFF0000]).x 0).extractLsb' 0 16 = (0 : Half)) ∧
    ((withSlots (portTable [5000, 0, 7000, 8000])).Inv ∧
      ((withSlots (portTable [5000, 0, 7000, 8000])).slot 3).port = 8000 ∧
      ∀ j, j < 3 → ((withSlots (portTable [5000, 0, 7000, 8000])).slot j).port ≠ 8000) ∧
    ((withSlots (portTable [5000, 6000, 7000, 0])).Inv ∧
      (∀ j, j < 4 → ((withSlots (portTable [5000, 6000, 7000, 0])).slot j).port ≠ 9000) ∧
      ((withSlots (portTable [5000, 6000, 7000, 0])).slot 3).port = 0 ∧
      ∀ j, j < 3 → ((withSlots (portTable [5000, 6000, 7000, 0])).slot j).port ≠ 0) ∧
    ((withSlots (portTable [5000, 6000, 7000, 8000])).Inv ∧
      ∀ j, j < 4 → ((withSlots (portTable [5000, 6000, 7000, 8000])).slot j).port ≠ 9000 ∧
        ((withSlots (portTable [5000, 6000, 7000, 8000])).slot j).port ≠ 0) :=
  ⟨⟨args_inv s0_inv _, by decide⟩, ⟨portTable_inv _ rfl (by decide), by decide, by decide⟩,
    ⟨portTable_inv _ rfl (by decide), by decide, by decide, by decide⟩,
    portTable_inv _ rfl (by decide), by decide⟩

/-- The three cases: port 0, a port no slot holds, the last slot. -/
theorem witness_UnbindFreesSlot :
    ((args s0 [0xFFFF0000]).Inv ∧ ((args s0 [0xFFFF0000]).x 0).extractLsb' 0 16 = (0 : Half)) ∧
    ((args s0 [6000]).Inv ∧ ∀ j, j < 4 → ((args s0 [6000]).slot j).port ≠ 6000) ∧
    (withSlots (portTable [5000, 0, 7000, 8000])).Inv ∧
      ((withSlots (portTable [5000, 0, 7000, 8000])).slot 3).port = 8000 :=
  ⟨⟨args_inv s0_inv _, by decide⟩, ⟨args_inv s0_inv _, by decide⟩,
    portTable_inv _ rfl (by decide), by decide⟩

theorem witness_BindIsIdempotent :
    (args s0 [6000]).Inv ∧ ∃ t, exec .bind (args s0 [6000]) = .next t ∧ t.status = .ok :=
  ⟨args_inv s0_inv _, ends (by decide)⟩

theorem witness_UnbindThenBindGivesEmptyQueue :
    (args fullQueue [5000]).Inv ∧
      ∃ t, exec .unbind (args fullQueue [5000]) = .next t ∧ t.status = .ok :=
  ⟨args_inv fullQueue_inv _, ends (by decide)⟩

theorem witness_PortTableWriters : ∃ t, exec .setIp (args oneQueued [0]) = .next t ∧ t.status = .ok :=
  ends (by decide)

/-- Port 1023, bound; port 0; the allow-listed port 69, not bound; port 7000, not bound. -/
theorem witness_UndeliverableDatagramIsDropped :
    (holding (withSlots (portTable [1023, 0, 0, 0])) (f1To 0x03 0xFF)).Inv ∧ s0.Inv ∧
      preDeliver (f1To 0x03 0xFF) = true ∧
      (be16 (f1To 0x03 0xFF) 36).toNat < 1024 ∧ be16 (f1To 0x03 0xFF) 36 ∉ s0.cfg.sysPorts ∧
      (be16 (f1To 0x00 0x00) 36).toNat < 1024 ∧ be16 (f1To 0x00 0x00) 36 ∉ s0.cfg.sysPorts ∧
      (∀ j, j < 4 → (s0.slot j).port ≠ be16 (f1To 0x00 0x45) 36) ∧
      ∀ j, j < 4 → (s0.slot j).port ≠ be16 (f1To 0x1B 0x58) 36 :=
  ⟨holding_inv (portTable_inv _ rfl (by decide)) _, s0_inv, by decide, by decide, by decide,
    by decide, by decide, by decide, by decide⟩

/-- Port 1024, the allow-listed port 69, and a full queue with a truncated datagram. -/
theorem witness_DatagramIsQueued :
    (holding (withSlots (portTable [0, 0, 69, 1024])) (f1To 0x04 0x00)).Inv ∧
      preDeliver (f1To 0x04 0x00) = true ∧ 1024 ≤ (be16 (f1To 0x04 0x00) 36).toNat ∧
      ((withSlots (portTable [0, 0, 69, 1024])).slot 3).port = be16 (f1To 0x04 0x00) 36 ∧
      be16 (f1To 0x00 0x45) 36 ∈ s0.cfg.sysPorts ∧
      ((withSlots (portTable [0, 0, 69, 1024])).slot 2).port = be16 (f1To 0x00 0x45) 36 ∧
      (holding fullQueue f2).Inv ∧ preDeliver f2 = true ∧ (fullQueue.slot 0).port = be16 f2 36 ∧
      (fullQueue.slot 0).count fullQueue.cfg = fullQueue.cfg.qCap ∧
      fullQueue.cfg.qPayloadMax < (be16 f2 38).toNat - 8 :=
  ⟨holding_inv (portTable_inv _ rfl (by decide)) _, by decide, by decide, by decide, by decide,
    by decide, holding_inv fullQueue_inv _, by decide, by decide, by decide, by decide⟩

/-- F1 with one precondition of R201 broken at a time, (a) to (f). -/
theorem witness_DeliveryOutsideContractIsRefused :
    s0.held = none ∧ (s0.setHeld (some ⟨f1, false, true⟩)).held = some ⟨f1, false, true⟩ ∧
      ∀ f ∈ [f1.take 41, f1.set 14 0x46, f1.set 23 6, f1.set 20 0x20, f1.set 39 0x07, f1.set 39 0x0D],
        preDeliver f = false := ⟨rfl, rfl, by decide⟩

/-- Five datagrams, one more than the capacity, to an empty queue. -/
theorem witness_QueueKeepsLastCapacityDatagrams :
    s0.Inv ∧ 0 < s0.cfg.nPorts ∧ (s0.slot 0).port ≠ 0 ∧ (s0.slot 0).count s0.cfg = 0 ∧
      (∀ f ∈ [f1, f2, f1, f2, f1], preDeliver f = true ∧ be16 f 36 = (s0.slot 0).port) ∧
      1024 ≤ (s0.slot 0).port.toNat :=
  ⟨s0_inv, by decide, by decide, by decide, by decide, by decide⟩

/-- A `max_len` beyond the stored payload of a truncated entry, and a `max_len` of 0. -/
theorem witness_RecvCopiesOldest :
    (args truncatedQueued [0, 0xFFFFFFFE, 64]).Inv ∧ (args truncatedQueued [0, 0x2000, 0]).Inv ∧
      ((args truncatedQueued [0, 0x2000, 0]).x 0).toNat < truncatedQueued.cfg.nPorts ∧
      (truncatedQueued.slot 0).count truncatedQueued.cfg ≠ 0 :=
  ⟨args_inv truncatedQueued_inv _, args_inv truncatedQueued_inv _, by decide, by decide⟩

theorem witness_RecvZcReturnsSlotReference :
    (args oneQueued [0]).Inv ∧ 0 = ((args oneQueued [0]).x 0).toNat ∧ 0 < oneQueued.cfg.nPorts ∧
      ((args oneQueued [0]).slot 0).count oneQueued.cfg ≠ 0 :=
  ⟨args_inv oneQueued_inv _, by decide, by decide, by decide⟩

/-- The least handle outside the table; the last slot, free and empty. -/
theorem witness_BadHandleOrEmptyQueue :
    s0.cfg.nPorts ≤ ((args s0 [4]).x 0).toNat ∧ (args s0 [3]).Inv ∧
      ((args s0 [3]).x 0).toNat < s0.cfg.nPorts ∧ ((args s0 [3]).slot 3).count s0.cfg = 0 :=
  ⟨by decide, args_inv s0_inv _, by decide, by decide⟩

/-- The last stored byte of a truncated entry. -/
theorem witness_WindowShowsZeroCopyPayload :
    (args truncatedQueued [0]).Inv ∧ s0.cfg.nPorts * s0.cfg.qCap ≤ 2 ^ 32 ∧
      next (exec .recvZc (args truncatedQueued [0])) (fun t =>
        t.status = .ok ∧ t.held = none ∧ 15 < min t.res[0].toNat t.cfg.qPayloadMax) = true :=
  ⟨args_inv truncatedQueued_inv _, by decide, by decide⟩

/-- A delivery to a full queue, and both receives. -/
theorem witness_QueuesAreFifo :
    (holding fullQueue f2).Inv ∧ (fullQueue.slot 0).port = be16 f2 36 ∧
      (∃ t, exec .udpDeliver (holding fullQueue f2) = .next t ∧ t.status = .ok) ∧
      (args oneQueued [0, 0x2000, 4]).Inv ∧
      (∃ t, exec .recv (args oneQueued [0, 0x2000, 4]) = .next t ∧ t.status = .ok) ∧
      ∃ t, exec .recvZc (args oneQueued [0, 0x2000, 4]) = .next t ∧ t.status = .ok :=
  ⟨holding_inv fullQueue_inv _, by decide, ends (by decide), args_inv oneQueued_inv _,
    ends (by decide), ends (by decide)⟩

/-- The least handle outside the table, and the last slot, free. -/
theorem witness_SendUnboundFails :
    (args s0 [4]).callsReturn ∧ ¬ ((args s0 [4]).x 0).toNat < s0.cfg.nPorts ∧
      ((args s0 [3]).x 0).toNat < s0.cfg.nPorts ∧ ((args s0 [3]).slot 3).port = 0 :=
  ⟨rfl, by decide, by decide, by decide⟩

/-- A `SEND` of "hello" from slot 0 to an address. -/
def sending (ip : Word) : State := args s0 [0, 0x1100, 5, ip, 6454]

theorem sending_bound (ip : Word) : BoundHandle (sending ip) :=
  ⟨(by decide : (0 : Word).toNat < 4), (by decide : (s0.slot 0).port ≠ 0)⟩

/-- One destination of each class, with the lowest multicast address (V-TX-1, 2, 4, 6, 7). -/
theorem classes_are_as_the_vectors_say :
    BroadcastDst (sending 0xFFFFFFFF) ∧ BroadcastDst (sending 0xC0A801FF) ∧
      MulticastDst (sending 0xE0000000) ∧ MulticastDst (sending 0xEFFF0001) ∧
      (¬ BroadcastDst (sending 0xC0A80114) ∧ ¬ MulticastDst (sending 0xC0A80114)) ∧
      ¬ BroadcastDst (sending 0x08080808) ∧ ¬ MulticastDst (sending 0x08080808) := by
  unfold MulticastDst BroadcastDst
  decide

theorem witness_SendUnresolvedFails :
    ({ sending 0xC0A80115 with env := { stubs with arp := [none] } } : State).callsReturn ∧
      BoundHandle { sending 0xC0A80115 with env := { stubs with arp := [none] } } ∧
      ¬ BroadcastDst { sending 0xC0A80115 with env := { stubs with arp := [none] } } ∧
      ¬ MulticastDst { sending 0xC0A80115 with env := { stubs with arp := [none] } } ∧
      arpAnswer { sending 0xC0A80115 with env := { stubs with arp := [none] } } = none := by
  have h : ¬ BroadcastDst (sending 0xC0A80115) ∧ ¬ MulticastDst (sending 0xC0A80115) := by
    unfold MulticastDst BroadcastDst
    decide
  exact ⟨rfl, sending_bound 0xC0A80115, h.1, h.2, rfl⟩

/-- Every class of stage 4: limited and subnet broadcast, multicast, on-link, off-link. -/
theorem witness_SendTransmitsFrame :
    (∀ ip, (sending ip).Inv ∧ (sending ip).callsReturn ∧ BoundHandle (sending ip)) ∧
      Addressed (sending 0xFFFFFFFF) ⟨0xFF, 0xFF, 0xFF, 0xFF, 0xFF, 0xFF⟩ [] ∧
      Addressed (sending 0xC0A801FF) ⟨0xFF, 0xFF, 0xFF, 0xFF, 0xFF, 0xFF⟩ [] ∧
      Addressed (sending 0xEFFF0001) ⟨0x01, 0x00, 0x5E, 0x7F, 0x00, 0x01⟩ [] ∧
      Addressed (sending 0xC0A80114) ⟨0x02, 0, 0, 0, 0, 0x20⟩ [.arLookup 0xC0A80114] ∧
      Addressed (sending 0x08080808) ⟨0x02, 0, 0, 0, 0, 0x20⟩ [.arLookup 0xC0A80101] := by
  obtain ⟨b1, b2, -, m, ⟨n1, n2⟩, o1, o2⟩ := classes_are_as_the_vectors_say
  exact ⟨fun ip => ⟨args_inv s0_inv _, rfl, sending_bound ip⟩,
    ⟨fun _ => ⟨rfl, rfl⟩, fun h => absurd b1 h.1, fun h => absurd b1 h⟩,
    ⟨fun _ => ⟨rfl, rfl⟩, fun h => absurd b2 h.1, fun h => absurd b2 h⟩,
    ⟨fun h => absurd h m.1, fun _ => ⟨by decide, rfl⟩, fun _ h => absurd m h⟩,
    ⟨fun h => absurd h n1, fun h => absurd h n2, fun _ _ => ⟨rfl, by decide⟩⟩,
    ⟨fun h => absurd h o1, fun h => absurd h o2, fun _ _ => ⟨rfl, by decide⟩⟩⟩

/-- A lookup that never returns, and a transmit that never returns after it and where there is none. -/
theorem witness_stuck_send :
    BoundHandle ((sending 0xC0A80114).withStuck (some 0)) ∧
      ¬ BroadcastDst ((sending 0xC0A80114).withStuck (some 0)) ∧
      ¬ MulticastDst ((sending 0xC0A80114).withStuck (some 0)) ∧
      ((sending 0xC0A80114).withStuck (some 0)).env.stuckAt = some (sending 0xC0A80114).calls.length ∧
      Addressed ((sending 0xC0A80114).withStuck (some 1)) ⟨0x02, 0, 0, 0, 0, 0x20⟩
        [.arLookup 0xC0A80114] ∧
      Addressed ((sending 0xFFFFFFFF).withStuck (some 0)) ⟨0xFF, 0xFF, 0xFF, 0xFF, 0xFF, 0xFF⟩ [] := by
  obtain ⟨b1, -, -, -, ⟨n1, n2⟩, -, -⟩ := classes_are_as_the_vectors_say
  exact ⟨sending_bound 0xC0A80114, n1, n2, rfl,
    ⟨fun h => absurd h n1, fun h => absurd h n2, fun _ _ => ⟨rfl, by decide⟩⟩,
    ⟨fun _ => ⟨rfl, rfl⟩, fun h => absurd b1 h.1, fun h => absurd b1 h⟩⟩

theorem witness_SentHeaderChecksumVerifies :
    (sending 0xC0A80114).Inv ∧
      next (exec .send (sending 0xC0A80114)) (fun t => t.status = .ok ∧
        t.calls = [.arLookup 0xC0A80114] ++ [.fioTransmit (t.txt.take 47)]) = true :=
  ⟨args_inv s0_inv _, by decide⟩

/-- An unbound handle, a transmission, and another operation. -/
theorem witness_IdentifierCountsAttempts :
    (∃ t, exec .send (args s0 [4]) = .next t ∧ t.status = .errUnbound) ∧
      (∃ t, exec .send (sending 0xFFFFFFFF) = .next t ∧ t.status = .ok) ∧
      ∃ t, exec .recv (args s0 [0]) = .next t ∧ t.status = .empty :=
  ⟨ends (by decide), ends (by decide), ends (by decide)⟩

theorem witness_DispatchWithoutFrame : s0.callsReturn ∧ recvAnswer s0 = none := ⟨rfl, rfl⟩

/-- An ignored IPv4 frame, an ARP frame, another Ethertype, and frames of 14 and 13 bytes. -/
theorem witness_DispatchWithoutDelivery :
    (receiving s0 f1 .ignore).callsReturn ∧ recvAnswer (receiving s0 f1 .ignore) = some f1 ∧
      (14 ≤ f1.length ∧ be16 f1 12 = 0x0800) ∧
      iplDelivers ((receiving s0 f1 .ignore).drew 1) f1 = false ∧
      be16 (f1.set 13 0x06) 12 = 0x0806 ∧
      (14 ≤ (f1.take 14).length ∧ be16 ((f1.set 12 0x86).take 14) 12 ≠ 0x0800 ∧
        be16 ((f1.set 12 0x86).take 14) 12 ≠ 0x0806) ∧
      (f1.take 13).length < 14 := ⟨rfl, rfl, by decide, rfl, by decide, by decide, by decide⟩

theorem witness_DispatchDelivers :
    (receiving s0 f1 .reference).callsReturn ∧ recvAnswer (receiving s0 f1 .reference) = some f1 ∧
      14 ≤ f1.length ∧ be16 f1 12 = 0x0800 ∧
      iplDelivers ((receiving s0 f1 .reference).drew 1) f1 = true ∧ preDeliver f1 = true :=
  ⟨rfl, rfl, by decide, by decide, by decide, by decide⟩

theorem witness_BrokenDeliveryPromiseIsRefused :
    (receiving s0 (f1.take 41) .deliver).env.ipl = [.deliver] ∧
      recvAnswer (receiving s0 (f1.take 41) .deliver) = some (f1.take 41) ∧
      14 ≤ (f1.take 41).length ∧ be16 (f1.take 41) 12 = 0x0800 ∧ preDeliver (f1.take 41) = false :=
  ⟨rfl, rfl, by decide, by decide, by decide⟩

end Sys2Proof.Tests
end

section
/-! Proofs about the configuration and the state it resets to (spec/00_scope.md R10, R13;
spec/10_state.md R36 to R44, R50). -/

namespace Sys2Proof

/-! ### Building a configuration (R13) -/

/-- Building either answers the given configuration, and that one is legal, or nothing. -/
theorem Config.build_eq_some_iff {c d : Config} : c.build = some d ↔ c.legal = true ∧ c = d := by
  unfold Config.build
  split <;> simp [*]

theorem Config.build_eq_none_iff {c : Config} : c.build = none ↔ c.legal = false := by
  unfold Config.build
  split <;> simp [*]

theorem Config.legal_eq_false_of_qCap {c : Config} (h : ∀ k, c.qCap ≠ 2 ^ k) : c.legal = false := by
  refine Bool.eq_false_iff.mpr fun hl => ?_
  obtain ⟨k, hk⟩ := Machine.legal_qCap hl
  exact h k hk

end Sys2Proof

namespace Sys2Proof.Machine

/-! ### What reset leaves behind (R50) -/

@[simp] theorem Entry.zero_data_length (c : Config) : (Entry.zero c).data.length = c.qPayloadMax :=
  List.length_replicate

@[simp] theorem Slot.free_ring_length (c : Config) : (Slot.free c).ring.length = c.qCap :=
  List.length_replicate

@[simp] theorem Slot.free_count (c : Config) : (Slot.free c).count c = 0 := by
  simp [Slot.count, Slot.free]

/-- Both pointers of a free slot are 0, so they need only a capacity above 0. -/
theorem Slot.free_ok {c : Config} (h : c.legal = true) : (Slot.free c).Ok c where
  headWidth := Nat.mul_pos Nat.two_pos (legal_qCap_pos h)
  tailWidth := Nat.mul_pos Nat.two_pos (legal_qCap_pos h)
  countLe := by rw [Slot.free_count]; exact Nat.zero_le _
  ringSize := Slot.free_ring_length c
  dataSize e he := by rw [List.eq_of_mem_replicate he, Entry.zero_data_length]
  freeEmpty _ := ⟨rfl, rfl⟩

/-- Uniqueness speaks of bound ports only. -/
theorem portsUnique_replicate {sl : Slot} (h : sl.port = 0) (n : Nat) :
    portsUnique (List.replicate n sl) :=
  List.pairwise_replicate.mpr (.inr fun hne => absurd h hne)

@[simp] theorem resetTemplate_length (c : Config) :
    (resetTemplate c).length = 42 + c.txPayloadMax := by
  rw [resetTemplate, List.length_append, List.length_replicate]; rfl

theorem resetTemplate_constantBytes (c : Config) : ConstantBytes c (resetTemplate c) where
  ethertype := be16_eq_of_bytes rfl rfl
  version := rfl
  tos := rfl
  flagsFrag := be16_eq_of_bytes rfl rfl
  ttl := rfl
  protocol := rfl
  udpChecksum := be16_eq_of_bytes rfl rfl

theorem resetOf_inv {c : Config} (h : c.legal = true) : (State.resetOf c).Inv where
  legal := h
  modeExclusive := fun ⟨hd, _⟩ => Bool.false_ne_true hd
  hostnameFits := Nat.zero_le _
  pendExclusive := (by decide :
    ¬ ((0 : BitVec 5).getLsbD 3 = true ∧ (0 : BitVec 5).getLsbD 4 = true))
  tableSize := List.length_replicate
  slotsOk sl hsl := by rw [List.eq_of_mem_replicate hsl]; exact Slot.free_ok h
  unique := portsUnique_replicate rfl c.nPorts
  templateSize := resetTemplate_length c
  templateConst := resetTemplate_constantBytes c
  memWf := rfl

end Sys2Proof.Machine

namespace Sys2Proof.Proofs

open Sys2Proof.Machine

/-- Settles O2: the reset state meets each invariant by the rule of the part it speaks of, and REFCFG
is a legal configuration. -/
theorem resetMeetsInvariants : Obligations.ResetMeetsInvariants :=
  ⟨fun _ hc => resetOf_inv hc, resetOf_inv (by decide : Config.reference.legal = true)⟩

/-- Settles O5: a legal capacity is a power of two, and building answers the configuration it was
given or nothing. -/
theorem badCapacityIsRejected : Obligations.BadCapacityIsRejected :=
  ⟨fun _ hq => Config.build_eq_none_iff.mpr (Config.legal_eq_false_of_qCap hq),
    fun _ _ hb => (Config.build_eq_some_iff.mp hb).2.symm⟩

end Sys2Proof.Proofs
end

section
/-! What an operation that answers reaches, and every way a step can answer: one inversion lemma per
level, from which the statements over all operations and all steps are derived (spec/10_state.md R23,
R24; spec/60_exceptions.md R283). -/

namespace Sys2Proof.Machine

/-- The state operation `i` reaches from `s` if it answers (`exec_effect`). -/
def effect (i : Instr) (s : State) : State :=
  match i with
  | .init => (initResults (reinit (initNegotiated s))).setStatus .ok
  | .shutdown => (shutdownCalls s).setStatus .ok
  | .setIp => (reinit (s.setNcConfig { s.nc.cfg with ip := s.x 0 })).setStatus .ok
  | .setGateway => (reinit (s.setNcConfig { s.nc.cfg with gw := s.x 0 })).setStatus .ok
  | .setDhcp => ((reinit (negotiate s)).setRes 0 (boolWord (negotiateOk s))).setStatus .ok
  | .setZeroconf => setZeroconfNext s
  | .dispatch => dispatchNext s
  | .queueIp => (s.setPend { s.pend with ip := s.x 0, mask := s.pend.mask ||| pIp }).setStatus .ok
  | .queueNetmask =>
    (s.setPend { s.pend with netmask := s.x 0, mask := s.pend.mask ||| pNetmask }).setStatus .ok
  | .queueGateway =>
    (s.setPend { s.pend with gw := s.x 0, mask := s.pend.mask ||| pGw }).setStatus .ok
  | .queueDhcp => (s.setPend { s.pend with mask := (s.pend.mask ||| pDhcp) &&& ~~~pZc }).setStatus .ok
  | .queueZeroconf =>
    (s.setPend { s.pend with mask := (s.pend.mask ||| pZc) &&& ~~~pDhcp }).setStatus .ok
  | .apply => (applyNext s).setStatus .ok
  | .setIpConfig => (loadTransport s (s.xConfig 0 1 2)).setStatus .ok
  | .bind => bindNext s (s.xPort 0)
  | .unbind => unbindNext s (s.xPort 0)
  | .recv => recvNext s (s.x 0).toNat
  | .recvZc => recvZcNext s (s.x 0).toNat
  | .send => sendNext s (s.x 0).toNat
  | .udpDeliver =>
    match s.held with
    | none => s
    | some h => (udpDeliver s h.frame).setHeld (some { h with delivered := true })

/-- An operation that answers reaches its effect: it either completes or ends at once. -/
theorem exec_effect {i : Instr} {s t : State} (h : exec i s = .next t) : t = effect i s := by
  cases i with
  | init | shutdown | setIp | setGateway | setDhcp | setZeroconf | apply | send =>
    exact complete_next h
  | queueIp | queueNetmask | queueGateway | queueDhcp | queueZeroconf | setIpConfig | bind | unbind
  | recv | recvZc =>
    exact (Host.Outcome.next.inj h).symm
  | dispatch =>
    rw [exec, execDispatch] at h
    split at h
    · cases h
    · exact complete_next h
  | udpDeliver =>
    obtain ⟨hd, hh, -, -, rfl⟩ := udpDeliver_cases h
    simp only [effect, hh]

/-- Every way an action of the host can answer (R23, R63, R65, R66, R91, R95). -/
inductive HostStep (s : State) : State → Prop
  /-- A write to a read-only or reserved offset is ignored. -/
  | ignored : HostStep s s
  /-- A write of `CMD` starts an operation. -/
  | command (w : Word) {i : Instr} {t : State} (h : exec i (s.setCmd w) = .next t) : HostStep s t
  /-- A write of `CMD` with a reserved opcode. -/
  | reserved (w : Word) : HostStep s ((s.setCmd w).raise .errBadOpcode)
  | argument (k : Fin 8) (v : Word) : HostStep s (s.setArg k v)
  /-- A read of a register, or of the window at an entry and byte it has. -/
  | read (v : Word) : HostStep s (s.returns v)
  /-- A read of the window outside it. -/
  | readFree (v : Word) : HostStep s ((s.returns v).drew 1)
  | memory (a : Word) (b : Byte) : HostStep s (s.setMem (s.hostMem.write a b))

theorem startCommand_hostStep {s t : State} {w : Word} (h : startCommand s w = .next t) :
    HostStep s t := by
  unfold startCommand at h
  split at h
  · exact .command w h
  · obtain rfl := Host.Outcome.next.inj h
    exact .reserved w

theorem writeReg_hostStep {s t : State} {o : Nat} {v : Word} (h : writeReg s o v = .next t) :
    HostStep s t := by
  unfold writeReg at h
  split at h
  · exact startCommand_hostStep h
  · split at h
    · obtain rfl := Host.Outcome.next.inj h
      exact .argument _ v
    · obtain rfl := Host.Outcome.next.inj h
      exact .ignored

theorem readWindow_hostStep (s : State) (e j : Nat) : HostStep s (readWindow s e j) := by
  unfold readWindow
  split
  · exact .read _
  · exact .readFree _

/-- An action of the host that answers does one of the things `HostStep` lists. -/
theorem hostStep_cases {s t : State} {a : HostAction} (h : hostStep s a = .next t) :
    HostStep s t := by
  unfold hostStep at h
  split at h
  · cases a with
    | writeReg o _ v => exact writeReg_hostStep h
    | readReg o _ =>
      obtain rfl := Host.Outcome.next.inj h
      exact .read _
    | readQram e j =>
      obtain rfl := Host.Outcome.next.inj h
      exact readWindow_hostStep s e j
    | writeMem addr b =>
      obtain rfl := Host.Outcome.next.inj h
      exact .memory addr b
  · cases h

/-- Every way a step can answer (R24, R283, R310; log 3). -/
inductive StepCase (s : State) : State → Prop
  /-- The IP layer's delivery call of a `DISPATCH` in progress. -/
  | delivery {hd : Held} {t : State} (held : s.held = some hd) (called : hd.called = true)
      (h : exec .udpDeliver (s.setHeld (some { hd with called := false })) = .next t) : StepCase s t
  /-- The end of a `DISPATCH` in progress. -/
  | dispatchEnd {hd : Held} (held : s.held = some hd) (called : hd.called = false) :
      StepCase s (dispatchEnd s)
  | idle (held : s.held = none) (host : s.host = []) : StepCase s s
  /-- The host's next action (`hostStep_cases`). -/
  | host {a : HostAction} {rest : List HostAction} {t : State} (held : s.held = none)
      (host : s.host = a :: rest) (h : hostStep (s.setHost rest) a = .next t) : StepCase s t

theorem dispatchStep_cases {s t : State} {hd : Held} (held : s.held = some hd)
    (h : dispatchStep s hd = .next t) : StepCase s t := by
  have hdec : decodeSelector portSelector = .instr .udpDeliver := by decide
  unfold dispatchStep at h
  rw [hdec] at h
  split at h
  · exact .delivery held ‹_› h
  · next hc =>
    rw [complete_next h]
    exact .dispatchEnd held (Bool.eq_false_iff.mpr hc)

/-- A step that answers does one of the things `StepCase` lists. -/
theorem step_cases {s t : State} (h : step s = .next t) : StepCase s t := by
  unfold step engineStep at h
  split at h
  · exact dispatchStep_cases ‹_› h
  · split at h
    · obtain rfl := Host.Outcome.next.inj h
      exact .idle ‹_› ‹_›
    · exact .host ‹_› ‹_› h

end Sys2Proof.Machine
end

section
/-! Every operation and every action of the host keeps the invariants of Safety.lean (spec/10_state.md
R27, R28, R36 to R44; spec/40_network_core.md R161). -/

namespace Sys2Proof.Machine

theorem initNegotiated_inv {s : State} (h : s.Inv) : (initNegotiated s).Inv := by
  unfold initNegotiated
  split
  · exact negotiate_inv (reinit_inv (initInputs_inv h))
  · exact reinit_inv (initInputs_inv h)

theorem initResults_inv {s : State} (h : s.Inv) : (initResults s).Inv :=
  setRes_inv (setRes_inv (setRes_inv (setRes_inv h _ _) _ _) _ _) _ _

theorem setCmd_inv {s : State} (h : s.Inv) (w : Word) : (s.setCmd w).Inv :=
  h.of_same rfl rfl rfl rfl rfl rfl

theorem setHost_inv {s : State} (h : s.Inv) (acts : List HostAction) : (s.setHost acts).Inv :=
  h.of_same rfl rfl rfl rfl rfl rfl

theorem shutdownCalls_inv {s : State} (h : s.Inv) : (shutdownCalls s).Inv := by
  unfold shutdownCalls
  split
  · exact record_inv (record_inv h _) _
  · exact record_inv h _

theorem setZeroconfNext_inv {s : State} (h : s.Inv) : (setZeroconfNext s).Inv := by
  unfold setZeroconfNext
  split
  · exact setStatus_inv (setRes_inv (takeLinkLocal_inv h _) _ _) _
  · exact setStatus_inv (setRes_inv (afterNegotiate_inv h) _ _) _

/-- Binding a slot leaves its queue alone, so a well-formed slot stays well formed. -/
theorem boundSlot_ok {c : Config} {sl : Slot} (ok : sl.Ok c) {p : Half} (hp : p ≠ 0) :
    Slot.Ok c { sl with port := p } where
  headWidth := ok.headWidth
  tailWidth := ok.tailWidth
  countLe := ok.countLe
  ringSize := ok.ringSize
  dataSize := ok.dataSize
  freeEmpty h0 := absurd h0 hp

theorem bindNext_inv {s : State} (h : s.Inv) (p : Half) : (bindNext s p).Inv := by
  unfold bindNext
  split
  · exact setStatus_inv (setRes_inv h _ _) _
  · rename_i hp
    split
    · exact setStatus_inv (setRes_inv h _ _) _
    · rename_i hnone
      split
      · rename_i i hi
        have ok := boundSlot_ok (slotsOk_get h (findPort_lt hi)) hp
        exact setStatus_inv (setRes_inv (setSlot_inv h ok fun _ j x hx _ =>
          findPort_none hnone x (List.mem_of_getElem? hx)) _ _) _
      · exact setStatus_inv (setRes_inv h _ _) _

theorem unbindNext_inv {s : State} (h : s.Inv) (p : Half) : (unbindNext s p).Inv := by
  unfold unbindNext
  split
  · exact setStatus_inv h _
  · split
    · exact setStatus_inv h _
    · rename_i i hi
      have ok := freeSlot_ok h.legal (slotsOk_get h (findPort_lt hi))
      exact setStatus_inv (setSlot_samePort_inv h ok (findPort_lt hi) (.inr rfl)) _

/-- Staging a value sets neither mode request. -/
theorem stage_inv {s : State} (h : s.Inv) {p : Pending} {b : BitVec 5}
    (hp : p.mask = s.pend.mask ||| b) (h3 : b.getLsbD 3 = false) (h4 : b.getLsbD 4 = false) :
    (s.setPend p).Inv := by
  refine setPend_inv h ?_
  rw [hp, BitVec.getLsbD_or, BitVec.getLsbD_or, h3, h4, Bool.or_false, Bool.or_false]
  exact h.pendExclusive

/-- The later mode request wins, so the two are never both 1 (R161). -/
theorem requestMode_inv {s : State} (h : s.Inv) {p : Pending} {b c : BitVec 5}
    (hp : p.mask = (s.pend.mask ||| b) &&& ~~~c) (hc : c.getLsbD 3 = true ∨ c.getLsbD 4 = true) :
    (s.setPend p).Inv := by
  refine setPend_inv h ?_
  rw [hp, BitVec.getLsbD_and, BitVec.getLsbD_and, BitVec.getLsbD_not, BitVec.getLsbD_not]
  rcases hc with hc | hc <;> simp [hc]

/-- Every operation that answers keeps the invariants. -/
theorem exec_inv {i : Instr} {s t : State} (h : s.Inv) (he : exec i s = .next t) : t.Inv := by
  rw [exec_effect he]
  cases i with
  | init => exact setStatus_inv (initResults_inv (reinit_inv (initNegotiated_inv h))) _
  | shutdown => exact setStatus_inv (shutdownCalls_inv h) _
  | setIp | setGateway => exact setStatus_inv (reinit_inv (setNcConfig_inv h _)) _
  | setDhcp => exact setStatus_inv (setRes_inv (reinit_inv (negotiate_inv h)) _ _) _
  | setZeroconf => exact setZeroconfNext_inv h
  | dispatch => exact dispatchNext_inv h
  | queueIp | queueNetmask | queueGateway =>
    exact setStatus_inv (stage_inv h rfl (by decide) (by decide)) _
  | queueDhcp => exact setStatus_inv (requestMode_inv h rfl (by decide)) _
  | queueZeroconf => exact setStatus_inv (requestMode_inv h rfl (by decide)) _
  | apply => exact setStatus_inv (applyNext_inv h) _
  | setIpConfig => exact setStatus_inv (loadTransport_inv h _) _
  | bind => exact bindNext_inv h _
  | unbind => exact unbindNext_inv h _
  | recv => exact recvNext_inv h _
  | recvZc => exact recvZcNext_inv h _
  | send => exact sendNext_inv h _
  | udpDeliver =>
    unfold effect
    dsimp only
    split
    · exact h
    · exact setHeld_inv (udpDeliver_inv h _) _

/-- No action of the host breaks the invariants. -/
theorem HostStep.inv {s t : State} (hs : HostStep s t) (h : s.Inv) : t.Inv := by
  cases hs with
  | ignored => exact h
  | command w he => exact exec_inv (setCmd_inv h w) he
  | reserved w | argument k v | read v | readFree v => exact h.of_same rfl rfl rfl rfl rfl rfl
  | memory a b => exact setMem_inv h (Memory.wf_write h.memWf a b)

end Sys2Proof.Machine
end

section
/-! What the operations leave alone of the port table and of the sizes of everything: each either
writes one slot, or leaves the table to the collaborators it calls (spec/10_state.md R36, R38, R40, R42;
spec/40_network_core.md R154). -/

namespace Sys2Proof.Machine

/-! ### Sizes (R42) -/

/-- Two slots have storage of the same size, entry for entry. -/
structure Slot.SameSize (c : Config) (a b : Slot) : Prop where
  ring : b.ring.length = a.ring.length
  data : ∀ pos, (b.entry c pos).data.length = (a.entry c pos).data.length

theorem Slot.SameSize.of_ring {c : Config} {a b : Slot} (h : b.ring = a.ring) : a.SameSize c b where
  ring := by rw [h]
  data _ := by rw [Slot.entry, h, Slot.entry]

theorem Slot.SameSize.trans {c : Config} {a b d : Slot} (h1 : a.SameSize c b)
    (h2 : b.SameSize c d) : a.SameSize c d where
  ring := h2.ring.trans h1.ring
  data pos := (h2.data pos).trans (h1.data pos)

theorem Slot.sameSize_storeAt (c : Config) (sl : Slot) (pos : Nat) (payload : List Byte) (ip : Word)
    (p l : Half) : sl.SameSize c (sl.storeAt c pos payload ip p l) where
  ring := List.length_set
  data k := by
    simp only [Slot.entry, Slot.storeAt, List.getD_eq_getElem?_getD, List.getElem?_set]
    split
    · next hk =>
      subst hk
      split
      · simp only [Option.getD_some, store_data_length]
      · next hlt => rw [List.getElem?_eq_none (by omega)]
    · rfl

theorem Slot.makeRoom_port_ring (c : Config) (sl : Slot) :
    (sl.makeRoom c).port = sl.port ∧ (sl.makeRoom c).ring = sl.ring := by
  unfold Slot.makeRoom
  split <;> exact ⟨rfl, rfl⟩

theorem Slot.enqueue_port (c : Config) (sl : Slot) (payload : List Byte) (ip : Word) (p l : Half) :
    (sl.enqueue c payload ip p l).port = sl.port := (sl.makeRoom_port_ring c).1

theorem Slot.sameSize_enqueue (c : Config) (sl : Slot) (payload : List Byte) (ip : Word)
    (p l : Half) : sl.SameSize c (sl.enqueue c payload ip p l) :=
  (Slot.SameSize.of_ring (sl.makeRoom_port_ring c).2).trans
    ((Slot.sameSize_storeAt c _ _ payload ip p l).trans (.of_ring rfl))

/-- The two states have the same parameters, and the template, the port table and every slot's storage
have the same sizes. -/
structure State.SameSize (s t : State) : Prop where
  cfg : t.cfg = s.cfg
  template : t.txt.length = s.txt.length
  table : t.slots.length = s.slots.length
  slot : ∀ i, (s.slot i).SameSize s.cfg (t.slot i)

theorem State.SameSize.of_same {s t : State} (cfg : t.cfg = s.cfg)
    (txt : t.txt.length = s.txt.length) (slots : t.slots = s.slots) : s.SameSize t where
  cfg := cfg
  template := txt
  table := by rw [slots]
  slot i := .of_ring (by rw [slot_congr cfg slots])

theorem State.SameSize.trans {s t u : State} (h1 : s.SameSize t) (h2 : t.SameSize u) :
    s.SameSize u where
  cfg := h2.cfg.trans h1.cfg
  template := h2.template.trans h1.template
  table := h2.table.trans h1.table
  slot i := (h1.slot i).trans (h1.cfg ▸ h2.slot i)

/-! ### One slot written -/

/-- From `s` to `t` at most one slot of the port table is written, its new value `f` of the old one;
parameters and template are as before. -/
structure SlotWritten (f : Slot → Slot) (s t : State) : Prop where
  cfg : t.cfg = s.cfg
  txt : t.txt = s.txt
  table : t.slots = s.slots ∨ ∃ i, t.slots = (s.setSlot i (f (s.slot i))).slots

/-- A relation that `f` keeps for one slot holds between the old and the new slot at every index. -/
theorem SlotWritten.rel_slot {f : Slot → Slot} {s t : State} (h : SlotWritten f s t)
    {R : Slot → Slot → Prop} (hrefl : ∀ sl, R sl sl) (hf : ∀ sl, R sl (f sl)) (j : Nat) :
    R (s.slot j) (t.slot j) := by
  obtain ⟨hc, -, hs | ⟨i, hs⟩⟩ := h
  · rw [slot_congr hc hs]
    exact hrefl _
  · rw [slot_congr (s := s.setSlot i (f (s.slot i))) hc hs, slot_setSlot]
    split
    · next hij => rw [← hij.1]; exact hf _
    · exact hrefl _

theorem SlotWritten.apply_slot {α : Sort*} {f : Slot → Slot} {s t : State} (h : SlotWritten f s t)
    (g : Slot → α) (hg : ∀ sl, g (f sl) = g sl) (j : Nat) : g (t.slot j) = g (s.slot j) :=
  h.rel_slot (R := fun a b => g b = g a) (fun _ => rfl) hg j

theorem SlotWritten.sameSize {f : Slot → Slot} {s t : State} (h : SlotWritten f s t)
    (hf : ∀ sl, Slot.SameSize s.cfg sl (f sl)) : s.SameSize t where
  cfg := h.cfg
  template := by rw [h.txt]
  table := by
    rcases h.table with hs | ⟨i, hs⟩ <;> rw [hs]
    exact List.length_set
  slot := h.rel_slot (fun _ => .of_ring rfl) hf

/-- Taking an entry moves the consumer pointer alone (R214, R218). -/
theorem SlotWritten.advanceTail_slot {c : Config} {s t : State}
    (h : SlotWritten (Slot.advanceTail c) s t) (j : Nat) :
    (t.slot j).port = (s.slot j).port ∧ (t.slot j).head = (s.slot j).head ∧
      (t.slot j).ring = (s.slot j).ring :=
  ⟨h.apply_slot Slot.port (fun _ => rfl) j, h.apply_slot Slot.head (fun _ => rfl) j,
    h.apply_slot Slot.ring (fun _ => rfl) j⟩

theorem bindNext_slotWritten (s : State) (p : Half) :
    SlotWritten (fun sl => { sl with port := p }) s (bindNext s p) := by
  obtain ⟨hc, -, -, -, -, -, -, ht, -⟩ := bindNext_fields s p
  refine ⟨hc, ht, ?_⟩
  unfold bindNext
  split
  · exact .inl rfl
  · split
    · exact .inl rfl
    · split
      · exact .inr ⟨_, rfl⟩
      · exact .inl rfl

theorem unbindNext_slotWritten (s : State) (p : Half) :
    SlotWritten (fun sl => { sl with port := 0, head := 0, tail := 0 }) s (unbindNext s p) := by
  obtain ⟨hc, -, -, -, -, -, -, -, ht, -⟩ := unbindNext_fields s p
  refine ⟨hc, ht, ?_⟩
  unfold unbindNext
  split
  · exact .inl rfl
  · split
    · exact .inl rfl
    · exact .inr ⟨_, rfl⟩

theorem recvNext_slotWritten (s : State) (h : Nat) :
    SlotWritten (Slot.advanceTail s.cfg) s (recvNext s h) := by
  obtain ⟨hc, -, -, -, -, -, -, ht, -⟩ := recvNext_fields s h
  refine ⟨hc, ht, ?_⟩
  unfold recvNext
  split
  · exact .inl rfl
  · split
    · exact .inl rfl
    · exact .inr ⟨h, by simp [recvTake, recvResults]⟩

theorem recvZcNext_slotWritten (s : State) (h : Nat) :
    SlotWritten (Slot.advanceTail s.cfg) s (recvZcNext s h) := by
  obtain ⟨hc, -, -, -, -, -, -, ht, -⟩ := recvZcNext_fields s h
  refine ⟨hc, ht, ?_⟩
  unfold recvZcNext
  split
  · exact .inl rfl
  · split
    · exact .inl rfl
    · exact .inr ⟨h, by simp [recvZcTake, recvResults]⟩

/-- The slot after a frame is queued to it (R202, R207 to R209): `queuedSlot` as a function of the slot. -/
def Slot.queue (c : Config) (f : Frame) (sl : Slot) : Slot :=
  sl.enqueue c (payloadOf c f) (srcIpOf f) (sportOf f) (ulenOf f)

theorem deliverFrame_slots (s : State) (f : Frame) :
    (deliverFrame s f).slots = s.slots ∨
      ∃ i, (deliverFrame s f).slots = (s.setSlot i ((s.slot i).queue s.cfg f)).slots := by
  unfold deliverFrame
  split
  · exact .inl rfl
  · split
    · exact .inl rfl
    · exact .inr ⟨_, rfl⟩

theorem udpDeliver_slotWritten {s t : State} (h : exec .udpDeliver s = .next t) :
    ∃ f, SlotWritten (Slot.queue s.cfg f) s t := by
  obtain ⟨hd, -, -, -, rfl⟩ := udpDeliver_cases h
  exact ⟨hd.frame, by simp [udpDeliver], by simp [udpDeliver], deliverFrame_slots s hd.frame⟩

/-! ### The table left to the collaborators (R154) -/

/-- The port table of `t` is that of `s` but for what collaborators that ran wrote into the storage of
free slots; the parameters and the template's size are as before. -/
structure TableTouched (s t : State) : Prop where
  cfg : t.cfg = s.cfg
  template : t.txt.length = s.txt.length
  table : ∃ ws : List EntryWrite, t.slots = ws.foldl (writeFreeEntry s.cfg) s.slots

theorem TableTouched.of_same {s t : State} (cfg : t.cfg = s.cfg)
    (txt : t.txt.length = s.txt.length) (slots : t.slots = s.slots) : TableTouched s t :=
  ⟨cfg, txt, [], slots⟩

theorem TableTouched.refl (s : State) : TableTouched s s := .of_same rfl rfl rfl

theorem TableTouched.trans {s t u : State} (h1 : TableTouched s t) (h2 : TableTouched t u) :
    TableTouched s u := by
  obtain ⟨hc, ht, ws, hs⟩ := h1
  obtain ⟨hc', ht', ws', hs'⟩ := h2
  exact ⟨hc'.trans hc, ht'.trans ht, ws ++ ws', by rw [hs', hs, hc, List.foldl_append]⟩

theorem TableTouched.boundSlotsKept {s t : State} (h : TableTouched s t) : BoundSlotsKept s t := by
  obtain ⟨hc, -, ws, hs⟩ := h
  exact boundSlotsKept_of_touch { Touch.untouched with entries := ws } hc hs

theorem writeFreeEntry_sameSize (c : Config) (slots : List Slot) (w : EntryWrite) (i : Nat)
    (d : Slot) : (slots.getD i d).SameSize c ((writeFreeEntry c slots w).getD i d) := by
  rw [List.getD_eq_getElem?_getD, List.getD_eq_getElem?_getD, writeFreeEntry_get]
  rcases slots[i]? with _ | sl
  · exact .of_ring rfl
  · rw [Option.map_some, Option.getD_some, Option.getD_some]
    split
    · exact Slot.sameSize_storeAt c sl _ _ _ _ _
    · exact .of_ring rfl

theorem foldl_writeFreeEntry_sameSize (c : Config) (ws : List EntryWrite) (slots : List Slot)
    (i : Nat) (d : Slot) :
    (slots.getD i d).SameSize c ((ws.foldl (writeFreeEntry c) slots).getD i d) := by
  induction ws generalizing slots with
  | nil => exact .of_ring rfl
  | cons w ws ih => exact (writeFreeEntry_sameSize c slots w i d).trans (ih _)

theorem TableTouched.sameSize {s t : State} (h : TableTouched s t) : s.SameSize t := by
  refine ⟨h.cfg, h.template, h.boundSlotsKept.1, fun i => ?_⟩
  obtain ⟨hc, -, ws, hs⟩ := h
  rw [State.slot, State.slot, hs, hc]
  exact foldl_writeFreeEntry_sameSize s.cfg ws s.slots i _

section
variable {s t : State} (h : TableTouched s t)
include h

theorem setRes_touched (k : Fin 4) (v : Word) : TableTouched s (t.setRes k v) :=
  h.trans (.of_same rfl rfl rfl)

theorem setStatus_touched (c : Status) : TableTouched s (t.setStatus c) :=
  h.trans (.of_same rfl rfl rfl)

theorem setNcConfig_touched (c : IpConfig) : TableTouched s (t.setNcConfig c) :=
  h.trans (.of_same rfl rfl rfl)

theorem setMode_touched (d z : Bool) : TableTouched s (t.setMode d z) :=
  h.trans (.of_same rfl rfl rfl)

theorem initInputs_touched : TableTouched s (initInputs t) := h.trans (.of_same rfl rfl rfl)

theorem initResults_touched : TableTouched s (initResults t) :=
  setRes_touched (setRes_touched (setRes_touched (setRes_touched h _ _) _ _) _ _) _ _

theorem applyStaged_touched : TableTouched s (applyStaged t) := h.trans (.of_same rfl rfl rfl)

theorem touch_touched (u : Touch) : TableTouched s (t.touch u) :=
  h.trans ⟨rfl, (touched_template t.txt u).1, u.entries, rfl⟩

theorem afterAcquire_touched : TableTouched s (afterAcquire t) :=
  (touch_touched h (dhcpAnswer t).2).trans (.of_same rfl rfl rfl)

theorem afterNegotiate_touched : TableTouched s (afterNegotiate t) :=
  (touch_touched h (zcAnswer t).2).trans (.of_same rfl rfl rfl)

theorem runTimers_touched : TableTouched s (runTimers t) :=
  (touch_touched h (timerTouch t)).trans (.of_same rfl rfl rfl)

theorem reinit_touched : TableTouched s (reinit t) :=
  h.trans (.of_same (by simp) (by simp) (by simp))

theorem fallBack_touched : TableTouched s (fallBack t) := by
  unfold fallBack
  split
  · exact setMode_touched (setNcConfig_touched (afterNegotiate_touched h) _) _ _
  · exact setMode_touched (afterNegotiate_touched h) _ _

theorem negotiate_touched : TableTouched s (negotiate t) := by
  unfold negotiate
  split
  · exact setMode_touched (setNcConfig_touched (afterAcquire_touched h) _) _ _
  · exact fallBack_touched (setMode_touched (afterAcquire_touched h) _ _)

theorem initNegotiated_touched : TableTouched s (initNegotiated t) := by
  unfold initNegotiated
  split
  · exact negotiate_touched (reinit_touched (initInputs_touched h))
  · exact reinit_touched (initInputs_touched h)

theorem takeLinkLocal_touched (c : IpConfig) : TableTouched s (takeLinkLocal t c) :=
  reinit_touched (setMode_touched (setNcConfig_touched (afterNegotiate_touched h) c) _ _)

theorem setZeroconfNext_touched : TableTouched s (setZeroconfNext t) := by
  unfold setZeroconfNext
  split
  · exact setStatus_touched (setRes_touched (takeLinkLocal_touched h _) _ _) _
  · exact setStatus_touched (setRes_touched (afterNegotiate_touched h) _ _) _

theorem reinitIf_touched (b : Bool) : TableTouched s (reinitIf b t) := by
  unfold reinitIf
  split
  · exact reinit_touched h
  · exact h

theorem applyZeroconf_touched (b : Bool) : TableTouched s (applyZeroconf b t) := by
  unfold applyZeroconf
  split
  · exact takeLinkLocal_touched h _
  · exact reinitIf_touched (afterNegotiate_touched h) b

theorem applyNext_touched : TableTouched s (applyNext t) := by
  have h1 := applyStaged_touched h
  unfold applyNext
  dsimp only
  split
  · exact setRes_touched (reinit_touched (negotiate_touched h1)) _ _
  · split
    · exact setRes_touched (applyZeroconf_touched h1 _) _ _
    · exact setRes_touched (reinitIf_touched h1 _) _ _

end

@[simp] theorem shutdownCalls_fields (s : State) :
    (shutdownCalls s).cfg = s.cfg ∧ (shutdownCalls s).nc = s.nc ∧
    (shutdownCalls s).pend = s.pend ∧ (shutdownCalls s).ut = s.ut ∧
    (shutdownCalls s).ipId = s.ipId ∧ (shutdownCalls s).slots = s.slots ∧
    (shutdownCalls s).txt = s.txt := by
  unfold shutdownCalls
  split <;> simp

theorem sendNext_txt_length (s : State) (h : Nat) : (sendNext s h).txt.length = s.txt.length := by
  unfold sendNext
  split
  · rfl
  · dsimp only
    split <;> simp [transmit, takeId]

theorem sendNext_touched (s : State) (h : Nat) : TableTouched s (sendNext s h) := by
  obtain ⟨hc, -, -, -, -, -, -, hs, -⟩ := sendNext_fields s h
  exact .of_same hc (sendNext_txt_length s h) hs

/-- The operations that write the port table themselves; `DISPATCH` by its nested `UDP_DELIVER`. -/
def tableWriters : List Instr := [.bind, .unbind, .recv, .recvZc, .udpDeliver, .dispatch]

/-- Every other operation leaves the port table to the collaborators it calls (R154). -/
theorem exec_touched {i : Instr} {s t : State} (h : exec i s = .next t) (hi : i ∉ tableWriters) :
    TableTouched s t := by
  have h0 := TableTouched.refl s
  rw [exec_effect h]
  cases i with
  | init =>
    exact setStatus_touched (initResults_touched (reinit_touched (initNegotiated_touched h0))) _
  | shutdown => exact .of_same (by simp [effect]) (by simp [effect]) (by simp [effect])
  | setIp | setGateway => exact setStatus_touched (reinit_touched (setNcConfig_touched h0 _)) _
  | setDhcp => exact setStatus_touched (setRes_touched (reinit_touched (negotiate_touched h0)) _ _) _
  | setZeroconf => exact setZeroconfNext_touched h0
  | queueIp | queueNetmask | queueGateway | queueDhcp | queueZeroconf => exact .of_same rfl rfl rfl
  | apply => exact setStatus_touched (applyNext_touched h0) _
  | setIpConfig => exact .of_same rfl (putBE32_length _ _ _) rfl
  | send => exact sendNext_touched s _
  | bind | unbind | recv | recvZc | udpDeliver | dispatch => exact absurd hi (by decide)

/-- A `DISPATCH` queues at most one frame, and then leaves the table to the timer work. -/
theorem dispatch_slotWritten {s t : State} (h : exec .dispatch s = .next t) :
    ∃ f u, SlotWritten (Slot.queue s.cfg f) s u ∧ TableTouched u t := by
  obtain ⟨u, rfl, hc, -, -, -, ht, -, -, -, -, -, -, -, hs⟩ := dispatch_cases h
  have hu := setStatus_touched (runTimers_touched (.refl u)) .ok
  rcases hs with hs | ⟨f, hs⟩
  · exact ⟨[], u, ⟨hc, ht, .inl hs⟩, hu⟩
  · exact ⟨f, u, ⟨hc, ht, hs ▸ deliverFrame_slots s f⟩, hu⟩

theorem Slot.sameSize_queue (c : Config) (f : Frame) (sl : Slot) : sl.SameSize c (sl.queue c f) :=
  Slot.sameSize_enqueue c sl _ _ _ _

theorem Slot.queue_port (c : Config) (f : Frame) (sl : Slot) : (sl.queue c f).port = sl.port :=
  Slot.enqueue_port c sl _ _ _ _

/-- No operation resizes anything (R42). -/
theorem exec_sameSize {i : Instr} {s t : State} (h : exec i s = .next t) : s.SameSize t := by
  by_cases hi : i ∈ tableWriters
  · cases i with
    | bind =>
      rw [exec_effect h]
      exact (bindNext_slotWritten s _).sameSize fun _ => .of_ring rfl
    | unbind =>
      rw [exec_effect h]
      exact (unbindNext_slotWritten s _).sameSize fun _ => .of_ring rfl
    | recv =>
      rw [exec_effect h]
      exact (recvNext_slotWritten s _).sameSize fun _ => .of_ring rfl
    | recvZc =>
      rw [exec_effect h]
      exact (recvZcNext_slotWritten s _).sameSize fun _ => .of_ring rfl
    | udpDeliver =>
      obtain ⟨f, hw⟩ := udpDeliver_slotWritten h
      exact hw.sameSize (Slot.sameSize_queue s.cfg f)
    | dispatch =>
      obtain ⟨f, u, hw, ht⟩ := dispatch_slotWritten h
      exact (hw.sameSize (Slot.sameSize_queue s.cfg f)).trans ht.sameSize
    | _ => exact absurd hi (by decide)
  · exact (exec_touched h hi).sameSize

theorem setHeld_sameSize (s : State) (h : Option Held) : s.SameSize (s.setHeld h) :=
  .of_same rfl rfl rfl

theorem setHost_sameSize (s : State) (acts : List HostAction) : s.SameSize (s.setHost acts) :=
  .of_same rfl rfl rfl

theorem setCmd_sameSize (s : State) (w : Word) : s.SameSize (s.setCmd w) := .of_same rfl rfl rfl

theorem dispatchEnd_touched (s : State) : TableTouched s (dispatchEnd s) :=
  have h : TableTouched s ((s.setHeld none).record .fioFree) := .of_same rfl rfl rfl
  setStatus_touched (runTimers_touched h) _

theorem HostStep.sameSize {s t : State} (h : HostStep s t) : s.SameSize t := by
  cases h with
  | command w h => exact (setCmd_sameSize s w).trans (exec_sameSize h)
  | ignored | reserved w | argument k v | read v | readFree v | memory a b =>
    exact .of_same rfl rfl rfl

theorem step_sameSize {s t : State} (h : step s = .next t) : s.SameSize t := by
  cases step_cases h with
  | delivery _ _ h => exact (setHeld_sameSize s _).trans (exec_sameSize h)
  | dispatchEnd => exact (dispatchEnd_touched s).sameSize
  | idle => exact .of_same rfl rfl rfl
  | host _ _ h => exact (setHost_sameSize s _).trans (hostStep_cases h).sameSize

end Sys2Proof.Machine
end

section
/-! Who writes what: the host's side while a `DISPATCH` is in progress (spec/10_state.md R24), the Network
Core registers and the pending changes (R25 to R29). -/

namespace Sys2Proof.Machine

/-! ### The host's side while busy (R24) -/

theorem udpDeliver_sameHostSide {s t : State} (h : exec .udpDeliver s = .next t) :
    SameHostSide s t := by
  obtain ⟨hd, -, -, -, rfl⟩ := udpDeliver_cases h
  constructor <;> simp [udpDeliver]

theorem dispatchEnd_sameHostSide (s : State) : SameHostSide s (dispatchEnd s) := by
  constructor <;> simp [dispatchEnd]

/-! ### The Network Core registers (R25 to R29) -/

/-- `NEGOTIATE` leaves the identity and the pending changes alone (R143). -/
@[simp] theorem negotiate_fields (s : State) :
    (negotiate s).nc.mac = s.nc.mac ∧ (negotiate s).nc.hostname = s.nc.hostname ∧
    (negotiate s).pend = s.pend := by
  obtain ⟨hn, -, -, -, -, hp, -⟩ := negotiate_spec s
  rw [hn]
  exact ⟨rfl, rfl, hp⟩

@[simp] theorem initNegotiated_pend (s : State) : (initNegotiated s).pend = s.pend := by
  unfold initNegotiated
  split <;> simp

@[simp] theorem takeLinkLocal_fields (s : State) (c : IpConfig) :
    (takeLinkLocal s c).nc.mac = s.nc.mac ∧ (takeLinkLocal s c).nc.hostname = s.nc.hostname ∧
    (takeLinkLocal s c).pend = s.pend := by
  simp [takeLinkLocal]

@[simp] theorem setZeroconfNext_fields (s : State) :
    (setZeroconfNext s).nc.mac = s.nc.mac ∧ (setZeroconfNext s).nc.hostname = s.nc.hostname ∧
    (setZeroconfNext s).pend = s.pend := by
  unfold setZeroconfNext
  split <;> simp

@[simp] theorem reinitIf_nc (b : Bool) (s : State) : (reinitIf b s).nc = s.nc := by
  unfold reinitIf
  split <;> simp

@[simp] theorem applyZeroconf_identity (b : Bool) (t : State) :
    (applyZeroconf b t).nc.mac = t.nc.mac ∧ (applyZeroconf b t).nc.hostname = t.nc.hostname := by
  unfold applyZeroconf
  split <;> simp

@[simp] theorem applyNext_identity (s : State) :
    (applyNext s).nc.mac = s.nc.mac ∧ (applyNext s).nc.hostname = s.nc.hostname := by
  unfold applyNext
  dsimp only
  split
  · simp
  · split <;> simp

/-- The operations that write the Network Core registers (R25 to R28). -/
def coreWriters : List Instr := [.init, .setIp, .setGateway, .setDhcp, .setZeroconf, .apply]

theorem exec_nc {i : Instr} {s t : State} (h : exec i s = .next t) (hi : i ∉ coreWriters) :
    t.nc = s.nc := by
  cases i with
  | dispatch =>
    obtain ⟨u, rfl, -, hn, -⟩ := dispatch_cases h
    exact hn
  | udpDeliver =>
    obtain ⟨hd, -, -, -, rfl⟩ := udpDeliver_cases h
    simp [udpDeliver]
  | shutdown | queueIp | queueNetmask | queueGateway | queueDhcp | queueZeroconf | setIpConfig =>
    rw [exec_effect h]; simp [effect]
  | bind => rw [exec_effect h]; simp [effect, bindNext_fields]
  | unbind => rw [exec_effect h]; simp [effect, unbindNext_fields]
  | recv => rw [exec_effect h]; simp [effect, recvNext_fields]
  | recvZc => rw [exec_effect h]; simp [effect, recvZcNext_fields]
  | send => rw [exec_effect h]; simp [effect, sendNext_fields]
  | init | setIp | setGateway | setDhcp | setZeroconf | apply => exact absurd hi (by decide)

/-- Only `INIT` writes the identity (R25, R28). -/
theorem exec_identity {i : Instr} {s t : State} (h : exec i s = .next t) (hi : i ≠ .init) :
    t.nc.mac = s.nc.mac ∧ t.nc.hostname = s.nc.hostname := by
  by_cases hw : i ∈ coreWriters
  · rw [exec_effect h]
    cases i with
    | init => exact absurd rfl hi
    | setIp | setGateway | setDhcp | setZeroconf | apply => simp [effect]
    | _ => exact absurd hw (by decide)
  · rw [exec_nc h hw]
    exact ⟨rfl, rfl⟩

/-- The operations that write the pending changes (R29). -/
def pendWriters : List Instr :=
  [.queueIp, .queueNetmask, .queueGateway, .queueDhcp, .queueZeroconf, .apply]

theorem exec_pend {i : Instr} {s t : State} (h : exec i s = .next t) (hi : i ∉ pendWriters) :
    t.pend = s.pend := by
  cases i with
  | dispatch =>
    obtain ⟨u, rfl, -, -, hp, -⟩ := dispatch_cases h
    exact hp
  | udpDeliver =>
    obtain ⟨hd, -, -, -, rfl⟩ := udpDeliver_cases h
    simp [udpDeliver]
  | init => rw [exec_effect h]; simp [effect, initResults]
  | shutdown | setIp | setGateway | setDhcp | setZeroconf | setIpConfig =>
    rw [exec_effect h]; simp [effect]
  | bind => rw [exec_effect h]; simp [effect, bindNext_fields]
  | unbind => rw [exec_effect h]; simp [effect, unbindNext_fields]
  | recv => rw [exec_effect h]; simp [effect, recvNext_fields]
  | recvZc => rw [exec_effect h]; simp [effect, recvZcNext_fields]
  | send => rw [exec_effect h]; simp [effect, sendNext_fields]
  | queueIp | queueNetmask | queueGateway | queueDhcp | queueZeroconf | apply =>
    exact absurd hi (by decide)

/-- `SET_IP` and `SET_GATEWAY` write one configuration register each; the others are written by `INIT` and
the commands that take a configuration from outside (R26, R27). -/
theorem exec_nc_of_not_reconfiguring {i : Instr} {s t : State} (h : exec i s = .next t)
    (hi : i ∉ [.init, .setDhcp, .setZeroconf, .apply]) :
    (i ≠ .setIp → t.nc.cfg.ip = s.nc.cfg.ip) ∧ t.nc.cfg.netmask = s.nc.cfg.netmask ∧
    (i ≠ .setGateway → t.nc.cfg.gw = s.nc.cfg.gw) ∧
    t.nc.dhcpActive = s.nc.dhcpActive ∧ t.nc.zcActive = s.nc.zcActive := by
  cases i with
  | setIp | setGateway => rw [exec_effect h]; simp [effect]
  | init | setDhcp | setZeroconf | apply => exact absurd hi (by decide)
  | _ =>
    rw [exec_nc h (by decide)]
    exact ⟨fun _ => rfl, rfl, fun _ => rfl, rfl, rfl⟩

end Sys2Proof.Machine
end

section
/-! The reset state element by element (spec/10_state.md R50), and the `STATUS` register bit by bit
(R24). -/

namespace Sys2Proof.Machine

/-- Bit `i` of `STATUS` (R24). -/
theorem statusWord_getLsbD (s : State) (i : Nat) :
    s.statusWord.getLsbD i =
      if i < 8 then s.status.code.getLsbD i
      else if i = 8 then s.busy
      else if i = 9 then s.nc.dhcpActive
      else if i = 10 then s.nc.zcActive
      else false := by
  change BitVec.getLsbD (w := 21 + 1 + 1 + 1 + 8) (_ ++ _ ++ _ ++ _ ++ _) i = _
  simp only [BitVec.getLsbD_append, BitVec.getLsbD_ofBool, BitVec.getLsbD_zero]
  grind

theorem resetOf_statusWord (c : Config) : (State.resetOf c).statusWord = 0 :=
  (by decide : (0#21 ++ BitVec.ofBool false ++ BitVec.ofBool false ++ BitVec.ofBool false
    ++ Status.code .ok : BitVec 32) = 0)

@[simp] theorem resetOf_slot (c : Config) (i : Nat) : (State.resetOf c).slot i = Slot.free c := by
  simp [State.slot, State.resetOf]

@[simp] theorem Slot.free_entry (c : Config) (pos : Nat) :
    (Slot.free c).entry c pos = Entry.zero c := by
  simp [Slot.entry, Slot.free]

theorem byteAt_replicate_zero (n o : Nat) : byteAt (List.replicate n 0) o = 0 := by
  simp [byteAt]

/-- The template's bytes that are not constant are 0 at reset (R44, R50). -/
theorem byteAt_resetTemplate_zero (c : Config) {o : Nat}
    (h : o < 12 ∨ (16 ≤ o ∧ o < 20) ∨ (24 ≤ o ∧ o < 40) ∨ 42 ≤ o) :
    byteAt (resetTemplate c) o = 0 := by
  rcases h with h | ⟨h, h'⟩ | ⟨h, h'⟩ | h
  · interval_cases o <;> rfl
  · interval_cases o <;> rfl
  · interval_cases o <;> rfl
  · rw [resetTemplate, byteAt, List.getD_append_right _ _ _ _ h]
    exact byteAt_replicate_zero _ _

theorem resetOf_coherent (c : Config) : Coherent (State.resetOf c) where
  bcastMask := (by decide : (0xFFFFFFFF : Word) = ~~~0)
  onnetMask := BitVec.and_zero.symm
  gw := rfl
  srcIp := (by decide : (0 : Byte) ++ (0 : Byte) ++ (0 : Byte) ++ (0 : Byte) = (0 : Word))
  srcMac := rfl

end Sys2Proof.Machine
end

section
/-! The statements of the family 10_state.md, from the lemmas above. -/

namespace Sys2Proof.Proofs

open Sys2Proof.Machine

/-- Settles O3: each of the ways a step can answer (`StepCase`) keeps the invariants. -/
theorem everyStepKeepsInvariants : Obligations.EveryStepKeepsInvariants := by
  intro s t h hstep
  cases step_cases hstep with
  | delivery _ _ he => exact exec_inv (setHeld_inv h _) he
  | dispatchEnd => exact dispatchEnd_inv h
  | idle => exact h
  | host _ _ hs => exact (hostStep_cases hs).inv (setHost_inv h _)

/-- Settles O4: a step keeps all sizes, because an operation writes at most one slot of the table or
leaves the table to its collaborators; `SHUTDOWN` only calls them. -/
theorem nothingIsCreatedOrResized : Obligations.NothingIsCreatedOrResized := by
  refine ⟨fun s t h => ?_, fun s t h => ?_⟩
  · obtain ⟨hcfg, htxt, htable, hslot⟩ := step_sameSize h
    exact ⟨hcfg, htable, htxt, fun i => ⟨(hslot i).ring, fun pos => hcfg ▸ (hslot i).data pos⟩⟩
  · rw [exec_effect h]
    exact ⟨by simp [effect], by simp [effect], by simp [effect], by simp [effect]⟩

/-- Settles O12: a busy state takes the delivery call or the end of its `DISPATCH`, never an action of the
host. -/
theorem busyHoldsHostOff : Obligations.BusyHoldsHostOff := by
  intro s t hb h
  have hheld : s.held ≠ none := Option.isSome_iff_ne_none.mp hb
  cases step_cases h with
  | delivery _ _ hd =>
    obtain ⟨hcfg, hcmd, harg, hhost, hbus⟩ := udpDeliver_sameHostSide hd
    exact ⟨hcfg, hcmd, harg, hhost, hbus⟩
  | dispatchEnd => exact dispatchEnd_sameHostSide s
  | idle hn _ => exact absurd hn hheld
  | host hn _ _ => exact absurd hn hheld

/-- Settles O31: the identity by `INIT` alone, the pending changes by their own commands, and of the
configuration the rest of the commands write at most the one register they are named after. -/
theorem networkCoreRegisterWriters : Obligations.NetworkCoreRegisterWriters := by
  intro i s t h
  have core := exec_nc_of_not_reconfiguring h
  refine ⟨exec_identity h, fun hi => ?_, fun hi => (core hi).2.1, fun hi => ?_,
    fun hi => (core hi).2.2.2, exec_pend h⟩
  · exact (core fun hm => hi (by simp_all)).1 fun he => hi (by simp [he])
  · exact (core fun hm => hi (by simp_all)).2.2.1 fun he => hi (by simp [he])

/-- Settles O41: an operation of `tableWriters` changes one slot, each in its own fields; any other leaves
the table to its collaborators, who keep the ports, the pointers and the bound slots. -/
theorem portTableWriters : Obligations.PortTableWriters := by
  intro i s t h j
  by_cases hi : i ∈ tableWriters
  · cases i with
    | bind =>
      have hw := bindNext_slotWritten s (s.xPort 0)
      rw [exec_effect h]
      exact ⟨fun hn => absurd hn (by decide), fun _ => hw.apply_slot Slot.head (fun _ => rfl) j,
        fun _ => hw.apply_slot Slot.tail (fun _ => rfl) j,
        fun _ _ => hw.apply_slot Slot.ring (fun _ => rfl) j⟩
    | unbind =>
      have hw := unbindNext_slotWritten s (s.xPort 0)
      rw [exec_effect h]
      exact ⟨fun hn => absurd hn (by decide), fun hn => absurd hn (by decide),
        fun hn => absurd hn (by decide), fun _ _ => hw.apply_slot Slot.ring (fun _ => rfl) j⟩
    | recv =>
      obtain ⟨hp, hh, hr⟩ := (recvNext_slotWritten s (s.x 0).toNat).advanceTail_slot j
      rw [exec_effect h]
      exact ⟨fun _ => hp, fun _ => hh, fun hn => absurd hn (by decide), fun _ _ => hr⟩
    | recvZc =>
      obtain ⟨hp, hh, hr⟩ := (recvZcNext_slotWritten s (s.x 0).toNat).advanceTail_slot j
      rw [exec_effect h]
      exact ⟨fun _ => hp, fun _ => hh, fun hn => absurd hn (by decide), fun _ _ => hr⟩
    | udpDeliver =>
      obtain ⟨f, hw⟩ := udpDeliver_slotWritten h
      exact ⟨fun _ => hw.apply_slot Slot.port (Slot.queue_port _ _) j,
        fun hn => absurd hn (by decide), fun hn => absurd hn (by decide),
        fun hn => absurd hn (by decide)⟩
    | dispatch =>
      obtain ⟨f, u, hw, ht⟩ := dispatch_slotWritten h
      obtain ⟨hport, -⟩ := ht.boundSlotsKept.2 j
      exact ⟨fun _ => hport.trans (hw.apply_slot Slot.port (Slot.queue_port _ _) j),
        fun hn => absurd hn (by decide), fun hn => absurd hn (by decide),
        fun hn => absurd hn (by decide)⟩
    | _ => exact absurd hi (by decide)
  · obtain ⟨hp, hh, ht, hb⟩ := (exec_touched h hi).boundSlotsKept.2 j
    exact ⟨fun _ => hp, fun _ => hh, fun _ => ht, fun _ hne => by rw [hb hne]⟩

/-- Settles O1: the rows by computation, the slots and the template by the lemmas about them. -/
theorem resetMatchesTable : Obligations.ResetMatchesTable := by
  intro c
  refine ⟨rfl, rfl, fun k => Vector.getElem_replicate _, fun k => Vector.getElem_replicate _,
    resetOf_statusWord c, rfl, rfl, rfl, rfl, rfl, rfl, rfl, rfl, List.length_replicate, fun i => ?_,
    resetTemplate_length c, resetTemplate_constantBytes c, fun _ => byteAt_resetTemplate_zero c,
    portsUnique_replicate rfl c.nPorts, resetOf_coherent c, rfl, rfl⟩
  rw [resetOf_slot]
  refine ⟨rfl, rfl, rfl, Slot.free_count c, Slot.free_ring_length c, fun pos => ?_⟩
  rw [Slot.free_entry]
  exact ⟨rfl, rfl, rfl, Entry.zero_data_length c, byteAt_replicate_zero _⟩

/-- Settles O15: each field is read off `statusWord_getLsbD`, bit by bit. -/
theorem statusFields : Obligations.StatusFields := by
  refine ⟨fun s => ⟨?_, statusWord_getLsbD s 8, statusWord_getLsbD s 9, statusWord_getLsbD s 10, ?_⟩,
    rfl⟩
  · ext i hi
    rw [BitVec.getElem_extractLsb', statusWord_getLsbD, Nat.zero_add, if_pos hi]
    exact BitVec.getLsbD_eq_getElem hi
  · ext i hi
    rw [BitVec.getElem_extractLsb', statusWord_getLsbD, if_neg (by omega), if_neg (by omega),
      if_neg (by omega), if_neg (by omega)]
    exact (BitVec.getElem_zero hi).symm

end Sys2Proof.Proofs
end

section
/-! The host's port: what the next action of an idle machine does, one equation per kind of action
(spec/20_memory.md R61, R63, R65), and the register map offset by offset (R66). -/

namespace Sys2Proof.Machine

/-! ### One action of the host -/

/-- From an idle state a step is the host's next action (R23). -/
theorem step_eq_hostStep {s : State} {a : HostAction} {rest : List HostAction}
    (held : s.held = none) (host : s.host = a :: rest) :
    step s = hostStep (s.setHost rest) a := by
  simp only [step, engineStep, held, host]

theorem hostStep_of_not_wf (s : State) {a : HostAction} (h : ¬ a.wf = true) :
    hostStep s a = .refused .unsupportedRegisterAccess := if_neg h

theorem HostAction.writeReg_wf_iff {o width : Nat} {v : Word} :
    (HostAction.writeReg o width v).wf = true ↔ width = 4 ∧ o % 4 = 0 := by
  simp [HostAction.wf]

theorem HostAction.readReg_wf_iff {o width : Nat} :
    (HostAction.readReg o width).wf = true ↔ width = 4 ∧ o % 4 = 0 := by
  simp [HostAction.wf]

theorem hostStep_writeReg (s : State) {o : Nat} (v : Word) (h : o % 4 = 0) :
    hostStep s (.writeReg o 4 v) = writeReg s o v :=
  if_pos (HostAction.writeReg_wf_iff.mpr ⟨rfl, h⟩)

theorem hostStep_readReg (s : State) {o : Nat} (h : o % 4 = 0) :
    hostStep s (.readReg o 4) = .next (s.returns (s.readReg o)) :=
  if_pos (HostAction.readReg_wf_iff.mpr ⟨rfl, h⟩)

theorem hostStep_readQram (s : State) (e j : Nat) :
    hostStep s (.readQram e j) = .next (readWindow s e j) := rfl

theorem hostStep_writeMem (s : State) (addr : Word) (b : Byte) :
    hostStep s (.writeMem addr b) = .next (s.setMem (s.hostMem.write addr b)) := rfl

/-! ### Register writes (R66) -/

theorem writeReg_arg (s : State) (k : Fin 8) (v : Word) :
    writeReg s (0x008 + 4 * k.val) v = .next (s.setArg k v) := by
  have hk : (⟨(0x008 + 4 * k.val - 8) / 4, by omega⟩ : Fin 8) = k := Fin.ext (by simp)
  rw [writeReg, if_neg (by omega), dif_pos (by omega), hk]

/-- The status register, the results and everything above them ignore a write (log 13). -/
theorem writeReg_ignored (s : State) {o : Nat} (v : Word) (h : 0x028 ≤ o ∨ o = 0x004) :
    writeReg s o v = .next s := by
  rw [writeReg, if_neg (by omega), dif_neg (by omega)]

/-! ### Register reads (R66) -/

/-- Zero-extension, written as an append of zeros. -/
theorem setWidth_eq_zero_append {n : Nat} (m : Nat) (x : BitVec n) :
    x.setWidth (m + n) = 0#m ++ x := by
  apply BitVec.eq_of_toNat_eq
  rw [BitVec.toNat_append, BitVec.toNat_setWidth_of_le (Nat.le_add_left n m), BitVec.toNat_ofNat,
    Nat.zero_mod, Nat.zero_shiftLeft, Nat.zero_or]

theorem readReg_arg (s : State) (k : Fin 8) : s.readReg (0x008 + 4 * k.val) = s.x k := by
  have hk : (0x008 + 4 * k.val - 0x008) / 4 = k.val := by omega
  rw [State.readReg, if_neg (by omega), if_neg (by omega), if_pos (by omega), hk,
    Vector.getElem?_eq_getElem k.isLt]
  rfl

theorem readReg_res (s : State) (k : Fin 4) : s.readReg (0x028 + 4 * k.val) = s.res[k.val] := by
  have hk : (0x028 + 4 * k.val - 0x028) / 4 = k.val := by omega
  rw [State.readReg, if_neg (by omega), if_neg (by omega), if_neg (by omega), if_pos (by omega), hk,
    Vector.getElem?_eq_getElem k.isLt]
  rfl

/-- Between the results and the port table stand the single registers. -/
theorem readReg_config (s : State) {o : Nat} (h : 0x038 ≤ o) (h' : o < 0x100) :
    s.readReg o = s.readConfigReg o := by
  rw [State.readReg, if_neg (by omega), if_neg (by omega), if_neg (by omega), if_neg (by omega),
    if_pos h']

theorem readReg_portTable (s : State) (o : Nat) : s.readReg (0x100 + o) = s.readPortReg o := by
  rw [State.readReg, if_neg (by omega), if_neg (by omega), if_neg (by omega), if_neg (by omega),
    if_neg (by omega), Nat.add_sub_cancel_left]

/-- `NC_MAC_HI`: the first two bytes of the address, zero-extended. -/
theorem macHi_eq (s : State) : s.macHi = 0#16 ++ s.nc.mac.m0 ++ s.nc.mac.m1 := by
  rw [State.macHi, BitVec.append_assoc]
  exact setWidth_eq_zero_append 16 (s.nc.mac.m0 ++ s.nc.mac.m1)

theorem readReg_reserved (s : State) {o : Nat}
    (h : (0x038 ≤ o ∧ o < 0x040) ∨ (0x068 ≤ o ∧ o < 0x070) ∨ (0x084 ≤ o ∧ o < 0x100)) :
    s.readReg o = 0 := by
  rw [readReg_config s (by omega) (by omega), State.readConfigReg]
  iterate 15 rw [if_neg (by omega)]

/-- The two registers of slot `i` (R66). -/
theorem readReg_port (s : State) {i : Nat} (h : i < s.cfg.nPorts) :
    s.readReg (0x100 + 8 * i) = (s.slot i).port.setWidth 32 := by
  have hi : 8 * i / 8 = i := by omega
  rw [readReg_portTable, State.readPortReg, hi, if_pos h, if_pos (by omega)]

theorem readReg_pointers (s : State) {i : Nat} (h : i < s.cfg.nPorts) :
    s.readReg (0x104 + 8 * i) = (s.slot i).pointers := by
  have hi : (4 + 8 * i) / 8 = i := by omega
  rw [show 0x104 + 8 * i = 0x100 + (4 + 8 * i) by omega, readReg_portTable, State.readPortReg, hi,
    if_pos h, if_neg (by omega), if_pos (by omega)]

theorem readReg_beyond_table (s : State) {o : Nat} (h : 0x100 + 8 * s.cfg.nPorts ≤ o) :
    s.readReg o = 0 := by
  obtain ⟨p, rfl⟩ : ∃ p, o = 0x100 + p := ⟨o - 0x100, by omega⟩
  rw [readReg_portTable, State.readPortReg, if_neg (by omega)]

/-- The pointer register holds both pointers where they fit its halves (log 17). -/
theorem Slot.pointers_toNat {sl : Slot} (hh : sl.head < 2 ^ 16) (ht : sl.tail < 2 ^ 16) :
    sl.pointers.toNat = sl.head + 2 ^ 16 * sl.tail := by
  have head : (BitVec.ofNat 16 sl.head).toNat = sl.head := Nat.mod_eq_of_lt hh
  have tail : (BitVec.ofNat 16 sl.tail).toNat = sl.tail := Nat.mod_eq_of_lt ht
  rw [Slot.pointers, BitVec.toNat_append, head, tail, ← Nat.shiftLeft_add_eq_or_of_lt hh,
    Nat.shiftLeft_eq]
  omega

/-! ### The `QRAM` window (R63) -/

/-- Entry `i * Q_CAP + pos` of the window is `QENT[i][pos]`. -/
theorem qram_entry (s : State) {i pos : Nat} (j : Nat) (hpos : pos < s.cfg.qCap) :
    s.qram (i * s.cfg.qCap + pos) j = byteAt ((s.slot i).entry s.cfg pos).data j := by
  have hdiv : (i * s.cfg.qCap + pos) / s.cfg.qCap = i := by
    rw [Nat.mul_comm, Nat.mul_add_div (by omega), Nat.div_eq_of_lt hpos, Nat.add_zero]
  rw [State.qram, hdiv, Nat.mul_add_mod_of_lt hpos]

theorem qramInRange_entry (s : State) {i pos j : Nat} (hi : i < s.cfg.nPorts)
    (hpos : pos < s.cfg.qCap) (hj : j < s.cfg.qPayloadMax) :
    s.qramInRange (i * s.cfg.qCap + pos) j = true := by
  have he : i * s.cfg.qCap + pos < s.cfg.nPorts * s.cfg.qCap :=
    calc i * s.cfg.qCap + pos < i * s.cfg.qCap + s.cfg.qCap := by omega
      _ = (i + 1) * s.cfg.qCap := (Nat.succ_mul i s.cfg.qCap).symm
      _ ≤ s.cfg.nPorts * s.cfg.qCap := Nat.mul_le_mul_right _ hi
  simp [State.qramInRange, he, hj]

theorem readWindow_entry (s : State) {i pos j : Nat} (hi : i < s.cfg.nPorts)
    (hpos : pos < s.cfg.qCap) (hj : j < s.cfg.qPayloadMax) :
    readWindow s (i * s.cfg.qCap + pos) j =
      s.returns (0#24 ++ byteAt ((s.slot i).entry s.cfg pos).data j) := by
  rw [readWindow, if_pos (qramInRange_entry s hi hpos hj), qram_entry s j hpos]
  exact congrArg s.returns (setWidth_eq_zero_append 24 _)

/-- A window read, in range or not, returns one byte and may count a draw (U8). -/
theorem readWindow_returns_byte (s : State) (e j : Nat) :
    ∃ (v : Byte) (n : Nat), readWindow s e j = { s.returns (0#24 ++ v) with fresh := n } := by
  unfold readWindow
  split
  · exact ⟨s.qram e j, s.fresh, congrArg s.returns (setWidth_eq_zero_append 24 _)⟩
  · refine ⟨Config.freeByte s.fresh, s.fresh + 1, ?_⟩
    exact congrArg (fun w => (s.returns w).drew 1) (setWidth_eq_zero_append 24 _)

end Sys2Proof.Machine
end

section
/-! Agreement of the transport's copies with the Network Core (spec/20_memory.md R74): an operation that
writes either side ends with `REINIT`, and no other writes the configuration bytes of the template. -/

namespace Sys2Proof.Machine

/-! ### What agreement depends on -/

/-- A range of a buffer depends on its bytes alone. -/
theorem take_drop_congr {a b : List Byte} {o n : Nat} (hl : a.length = b.length)
    (h : ∀ j, j < n → byteAt a (o + j) = byteAt b (o + j)) :
    (a.drop o).take n = (b.drop o).take n := by
  refine List.ext_getElem (by simp [hl]) fun j ha hb => ?_
  simp only [List.length_take, List.length_drop] at ha hb
  have hj := h j (by omega)
  rw [byteAt, byteAt, List.getD_eq_getElem _ _ (by omega), List.getD_eq_getElem _ _ (by omega)] at hj
  simpa using hj

theorem Coherent.of_same {s t : State} (h : Coherent s) (nc : t.nc = s.nc) (ut : t.ut = s.ut)
    (txt : t.txt = s.txt) : Coherent t := h.congr (by rw [nc]) (by rw [nc]) ut txt

/-- Agreement outlives every change of the template outside its configuration bytes (R44). -/
theorem Coherent.of_templateKept {s t : State} {changed : Nat → Prop} (h : Coherent s)
    (nc : t.nc = s.nc) (ut : t.ut = s.ut) (kept : TemplateKeptBut changed s t)
    (outside : ∀ o, changed o → ¬ ConfigOffset o) : Coherent t := by
  obtain ⟨hl, hb⟩ := kept
  have same : ∀ o, ConfigOffset o → byteAt t.txt o = byteAt s.txt o :=
    fun o ho => hb o fun hc => outside o hc ho
  obtain ⟨hbm, hom, hgw, hip, hmac⟩ := h
  refine ⟨?_, ?_, ?_, ?_, ?_⟩
  · rw [nc, ut, hbm]
  · rw [nc, ut, hom]
  · rw [nc, ut, hgw]
  · rw [nc, ← hip, be32, same 26 (.inr (by omega)), same 27 (.inr (by omega)),
      same 28 (.inr (by omega)), same 29 (.inr (by omega)), be32]
  · rw [nc, ← hmac]
    exact take_drop_congr hl fun j hj => same (6 + j) (.inl (by omega))

theorem not_configOffset_of_perSend {o : Nat} (h : perSendOffset o = true) : ¬ ConfigOffset o := by
  simp only [perSendOffset, Bool.or_eq_true, Bool.and_eq_true, decide_eq_true_eq] at h
  simp only [ConfigOffset]
  omega

theorem not_configOffset_of_send {n o : Nat} (h : SendOffset n o) : ¬ ConfigOffset o := by
  simp only [SendOffset] at h
  simp only [ConfigOffset]
  omega

/-! ### Every operation but `SET_IP_CONFIG` -/

/-- A collaborator that ran changed per-send bytes alone (R154). -/
theorem Coherent.of_touch {s t : State} (h : Coherent s) (u : Touch) (nc : t.nc = s.nc)
    (ut : t.ut = s.ut) (txt : t.txt = u.perSend.elim s.txt (mergePerSend 0 s.txt)) :
    Coherent t := by
  obtain ⟨hl, hb⟩ := touched_template s.txt u
  refine h.of_templateKept (changed := fun o => perSendOffset o = true) nc ut ⟨?_, fun o ho => ?_⟩
    fun o => not_configOffset_of_perSend
  · rw [txt, hl]
  · rw [txt, hb o (Bool.eq_false_iff.mpr ho)]

theorem setRes_coherent {s : State} (h : Coherent s) (k : Fin 4) (v : Word) :
    Coherent (s.setRes k v) := h.congr rfl rfl rfl rfl

theorem setStatus_coherent {s : State} (h : Coherent s) (c : Status) : Coherent (s.setStatus c) :=
  h.congr rfl rfl rfl rfl

theorem initResults_coherent {s : State} (h : Coherent s) : Coherent (initResults s) :=
  h.congr rfl rfl rfl rfl

theorem afterNegotiate_coherent {s : State} (h : Coherent s) : Coherent (afterNegotiate s) :=
  h.of_touch (zcAnswer s).2 (by simp) (by simp) (by simp)

theorem runTimers_coherent {s : State} (h : Coherent s) : Coherent (runTimers s) :=
  h.of_touch (timerTouch s) (by simp) (by simp) (by simp)

theorem reinit_coherent {s : State} (h : s.Inv) : Coherent (reinit s) :=
  coherent_reinit (Nat.le_trans (by decide) h.template_le)

theorem takeLinkLocal_coherent {s : State} (h : s.Inv) (c : IpConfig) :
    Coherent (takeLinkLocal s c) :=
  reinit_coherent (setMode_inv (setNcConfig_inv (afterNegotiate_inv h) c) (by simp))

theorem setZeroconfNext_coherent {s : State} (h : s.Inv) (hc : Coherent s) :
    Coherent (setZeroconfNext s) := by
  unfold setZeroconfNext
  split
  · exact setStatus_coherent (setRes_coherent (takeLinkLocal_coherent h _) _ _) _
  · exact setStatus_coherent (setRes_coherent (afterNegotiate_coherent hc) _ _) _

theorem applyStaged_inv {s : State} (h : s.Inv) : (applyStaged s).Inv :=
  setPend_inv (setNcConfig_inv h _) (by simp)

/-- With no value staged, `APPLY` leaves the configuration as it is (R162). -/
theorem stagedConfig_of_not_staged {s : State} (h : valueStaged s = false) :
    stagedConfig s = s.nc.cfg := by
  have hm : s.pend.mask.extractLsb' 0 3 = 0 := by simpa [valueStaged] using h
  have bit : ∀ k, k < 3 → s.pend.mask.getLsbD k = false := fun k hk => by
    simpa [BitVec.getLsbD_extractLsb', hk] using congrArg (fun m => m.getLsbD k) hm
  simp only [stagedConfig, bit 0 (by decide), bit 1 (by decide), bit 2 (by decide),
    Bool.false_eq_true, if_false]

/-- What is staged and not yet re-initialised breaks no agreement: it is nothing. -/
theorem applyStaged_coherent {s : State} (hc : Coherent s) (h : valueStaged s = false) :
    Coherent (applyStaged s) :=
  hc.congr (stagedConfig_of_not_staged h) rfl rfl rfl

/-- Agreement after a `REINIT` that is skipped only where the copies agree already. -/
theorem reinitIf_coherent {b : Bool} {s : State} (h : s.Inv) (hc : b = false → Coherent s) :
    Coherent (reinitIf b s) := by
  cases b with
  | true => exact reinit_coherent h
  | false => exact hc rfl

theorem applyZeroconf_coherent {b : Bool} {s : State} (h : s.Inv) (hc : b = false → Coherent s) :
    Coherent (applyZeroconf b s) := by
  unfold applyZeroconf
  split
  · exact takeLinkLocal_coherent h _
  · exact reinitIf_coherent (afterNegotiate_inv h) fun hb => afterNegotiate_coherent (hc hb)

theorem applyNext_coherent {s : State} (h : s.Inv) (hc : Coherent s) : Coherent (applyNext s) := by
  have hi := applyStaged_inv h
  have staged := applyStaged_coherent hc
  unfold applyNext
  dsimp only
  split
  · exact setRes_coherent (reinit_coherent (negotiate_inv hi)) _ _
  · split
    · exact setRes_coherent (applyZeroconf_coherent hi staged) _ _
    · exact setRes_coherent (reinitIf_coherent hi staged) _ _

/-- `SEND` stamps the per-send bytes of the template, or leaves it alone (R244). -/
theorem sendNext_templateKept (s : State) (h : Nat) :
    TemplateKeptBut (SendOffset (sendLength s)) s (sendNext s h) := by
  refine ⟨sendNext_txt_length s h, fun o ho => ?_⟩
  unfold sendNext
  split
  · rfl
  · dsimp only
    split
    · simp [takeId]
    · next dmac _ =>
      have hn : (sendStamp s h dmac).payload.length = sendLength s := memRead_length _ _ _
      exact stamp_outside s.txt (sendStamp s h dmac) (hn ▸ ho)

theorem sendNext_coherent {s : State} (hc : Coherent s) (h : Nat) : Coherent (sendNext s h) := by
  obtain ⟨-, -, -, -, hn, -, hu, -⟩ := sendNext_fields s h
  exact hc.of_templateKept hn hu (sendNext_templateKept s h) fun _ => not_configOffset_of_send

theorem dispatch_coherent {s t : State} (hc : Coherent s) (h : exec .dispatch s = .next t) :
    Coherent t := by
  obtain ⟨u, rfl, -, hn, -, hu, ht, -⟩ := dispatch_cases h
  have before : Coherent u := hc.of_same hn hu ht
  exact setStatus_coherent (runTimers_coherent before) _

/-- The operations that write the transport's copies or the template (R31 to R33, R43). -/
def copyWriters : List Instr :=
  [.init, .setIp, .setGateway, .setDhcp, .setZeroconf, .dispatch, .apply, .setIpConfig, .send]

theorem exec_copies {i : Instr} {s t : State} (h : exec i s = .next t) (hi : i ∉ copyWriters) :
    t.ut = s.ut ∧ t.txt = s.txt := by
  cases i with
  | udpDeliver =>
    obtain ⟨hd, -, -, -, rfl⟩ := udpDeliver_cases h
    simp [udpDeliver]
  | shutdown | queueIp | queueNetmask | queueGateway | queueDhcp | queueZeroconf =>
    rw [exec_effect h]; simp [effect]
  | bind => rw [exec_effect h]; simp [effect, bindNext_fields]
  | unbind => rw [exec_effect h]; simp [effect, unbindNext_fields]
  | recv => rw [exec_effect h]; simp [effect, recvNext_fields]
  | recvZc => rw [exec_effect h]; simp [effect, recvZcNext_fields]
  | init | setIp | setGateway | setDhcp | setZeroconf | dispatch | apply | setIpConfig | send =>
    exact absurd hi (by decide)

/-- Every operation but `SET_IP_CONFIG` leaves agreeing copies agreeing (R74). -/
theorem exec_coherent {i : Instr} {s t : State} (hs : s.Inv) (hc : Coherent s)
    (hi : i ≠ .setIpConfig) (h : exec i s = .next t) : Coherent t := by
  cases i with
  | init =>
    rw [exec_effect h]
    exact setStatus_coherent (initResults_coherent (reinit_coherent (initNegotiated_inv hs))) _
  | setIp | setGateway =>
    rw [exec_effect h]
    exact setStatus_coherent (reinit_coherent (setNcConfig_inv hs _)) _
  | setDhcp =>
    rw [exec_effect h]
    exact setStatus_coherent (setRes_coherent (reinit_coherent (negotiate_inv hs)) _ _) _
  | setZeroconf => rw [exec_effect h]; exact setZeroconfNext_coherent hs hc
  | apply => rw [exec_effect h]; exact setStatus_coherent (applyNext_coherent hs hc) _
  | send => rw [exec_effect h]; exact sendNext_coherent hc _
  | dispatch => exact dispatch_coherent hc h
  | shutdown | queueIp | queueNetmask | queueGateway | queueDhcp | queueZeroconf | bind | unbind | recv
  | recvZc | udpDeliver =>
    obtain ⟨ut, txt⟩ := exec_copies h (by decide)
    exact hc.of_same (exec_nc h (by decide)) ut txt
  | setIpConfig => exact absurd rfl hi

end Sys2Proof.Machine
end

section
/-! The statements of the family 20_memory.md, from the lemmas above. -/

namespace Sys2Proof.Proofs

open Sys2Proof.Machine

/-- Settles O16: such an access is no well-formed action, whether it reads or writes. -/
theorem unsupportedAccessIsRefused : Obligations.UnsupportedAccessIsRefused := by
  intro s o width v rest held host bad
  rcases host with host | host <;> rw [step_eq_hostStep held host]
  · exact hostStep_of_not_wf _ (mt HostAction.writeReg_wf_iff.mp (by omega))
  · exact hostStep_of_not_wf _ (mt HostAction.readReg_wf_iff.mp (by omega))

/-- Settles O17: the entry index splits into slot and position, and every read returns one byte. -/
theorem qramWindowRead : Obligations.QramWindowRead := by
  refine ⟨fun s i pos j rest held host hi hpos hj => ?_, fun s e j rest held host => ?_⟩
  · rw [step_eq_hostStep held host, hostStep_readQram]
    exact congrArg _ (readWindow_entry (s.setHost rest) hi hpos hj)
  · obtain ⟨v, n, hw⟩ := readWindow_returns_byte (s.setHost rest) e j
    rw [step_eq_hostStep held host, hostStep_readQram]
    exact ⟨v, n, congrArg _ hw⟩

/-- Settles O18: the memory that results is the one `Memory.read_write` speaks of. -/
theorem hostMemoryWrite : Obligations.HostMemoryWrite := by
  intro s addr b rest hs held host
  have read (a : Word) : (s.hostMem.write addr b).read a = if a = addr then b else s.hostMem.read a :=
    Memory.read_write hs.memWf addr a b
  refine ⟨s.hostMem.write addr b, ?_, ?_, fun a ha => ?_, Memory.wf_write hs.memWf addr b⟩
  · rw [step_eq_hostStep held host, hostStep_writeMem]
    rfl
  · rw [read, if_pos rfl]
  · rw [read, if_neg ha]

/-- Settles O14: the single registers by computation at their offsets, the arrays, the port table and the
reserved ranges by the lemmas about them; then one read and one write of an idle machine. -/
theorem registerMap : Obligations.RegisterMap := by
  refine ⟨fun s => ?_, fun s o rest held ho host => ?_, fun s o v rest held ho host => ?_⟩
  · refine ⟨rfl, rfl, readReg_arg s, readReg_res s, rfl, rfl, rfl, rfl, macHi_eq s, rfl,
      setWidth_eq_zero_append 27 s.pend.mask, rfl, rfl, rfl, rfl, rfl, rfl, rfl,
      setWidth_eq_zero_append 16 s.ipId, fun i hi => ⟨?_, fun hh ht => ?_⟩, fun o ho => ?_⟩
    · exact (readReg_port s hi).trans (setWidth_eq_zero_append 16 _)
    · rw [readReg_pointers s hi, Slot.pointers_toNat hh ht]
    · rcases ho with h | h | h | h
      · exact readReg_reserved s (.inl h)
      · exact readReg_reserved s (.inr (.inl h))
      · exact readReg_reserved s (.inr (.inr h))
      · exact readReg_beyond_table s h
  · rw [step_eq_hostStep held host, hostStep_readReg _ ho]
    rfl
  · rw [step_eq_hostStep held host, hostStep_writeReg _ v ho]
    refine ⟨fun k hk => ?_, writeReg_ignored _ v⟩
    rw [hk, writeReg_arg]
    rfl

/-- Settles O33: a command that writes the Network Core's configuration ends with `REINIT` unless nothing
changed, and no other writes a configuration byte of the template (`exec_coherent`). -/
theorem onlySetIpConfigBreaksCoherence : Obligations.OnlySetIpConfigBreaksCoherence :=
  fun _ _ _ => exec_coherent

end Sys2Proof.Proofs
end

section
/-! The decoder of command words: the low byte of a word decides alone, and the bytes no command has are
the reserved opcodes (spec/30_encoding.md R91, R92, R95, R98). -/

namespace Sys2Proof

/-! ### The encoder and the table -/

/-- The laws of the encoding, for every operation. -/
theorem encoding_laws (i : Instr) : Laws.Encoding.Statement i := by
  cases i
  exacts [Laws.Encoding.init, Laws.Encoding.shutdown, Laws.Encoding.setIp, Laws.Encoding.setGateway,
    Laws.Encoding.setDhcp, Laws.Encoding.setZeroconf, Laws.Encoding.dispatch, Laws.Encoding.queueIp,
    Laws.Encoding.queueNetmask, Laws.Encoding.queueGateway, Laws.Encoding.queueDhcp,
    Laws.Encoding.queueZeroconf, Laws.Encoding.apply, Laws.Encoding.setIpConfig, Laws.Encoding.bind,
    Laws.Encoding.unbind, Laws.Encoding.recv, Laws.Encoding.recvZc, Laws.Encoding.send,
    Laws.Encoding.udpDeliver]

@[simp] theorem decodeSelector_encode (i : Instr) : decodeSelector (encode i) = .instr i :=
  (encoding_laws i).1

/-- The selector of a command is a word whose ignored bits are 0. -/
theorem encode_and_mask {i : Instr} (hi : i ≠ .udpDeliver) : encode i &&& 0x000000FF = encode i := by
  cases i with
  | udpDeliver => exact absurd rfl hi
  | _ => rfl

theorem encode_of_mem_opcodeTable {r : OpcodeRow} (h : r ∈ opcodeTable) :
    r.pattern = encode r.instr :=
  (by decide : ∀ r ∈ opcodeTable, r.pattern = encode r.instr) r h

/-- No row looks at fewer bits than the opcode byte. -/
theorem and_mask_of_mem_opcodeTable {r : OpcodeRow} (h : r ∈ opcodeTable) (w : Word) :
    w &&& 0x000000FF &&& r.mask = w &&& 0x000000FF := by
  rw [BitVec.and_assoc, (by decide : ∀ r ∈ opcodeTable, 0x000000FF &&& r.mask = 0x000000FF) r h]

/-! ### The low byte of a word -/

theorem toNat_and_mask (w : Word) : (w &&& 0x000000FF).toNat = (w.extractLsb' 0 8).toNat := by
  rw [BitVec.toNat_and, BitVec.extractLsb'_toNat, Nat.shiftRight_zero]
  exact Nat.and_two_pow_sub_one_eq_mod w.toNat 8

theorem and_mask_eq_iff {v w : Word} :
    v &&& 0x000000FF = w &&& 0x000000FF ↔ v.extractLsb' 0 8 = w.extractLsb' 0 8 := by
  rw [← BitVec.toNat_inj, toNat_and_mask, toNat_and_mask, BitVec.toNat_inj]

/-! ### What a selector decodes to -/

theorem decodeSelector_instr {w : Word} {i : Instr} (h : decodeSelector w = .instr i) :
    ∃ r ∈ opcodeTable, r.instr = i ∧ w &&& r.mask = r.pattern := by
  unfold decodeSelector at h
  split at h
  · next r hr =>
    have matched := List.find?_some (p := fun r : OpcodeRow => w &&& r.mask == r.pattern) hr
    exact ⟨r, List.mem_of_find?_eq_some hr, Decoded.instr.inj h, beq_iff_eq.mp matched⟩
  · cases h

theorem decodeSelector_eq_reserved_iff {w : Word} {op : Byte} :
    decodeSelector w = .reserved op ↔
      op = w.extractLsb' 0 8 ∧ ∀ r ∈ opcodeTable, w &&& r.mask ≠ r.pattern := by
  have none_iff : (opcodeTable.find? fun r => w &&& r.mask == r.pattern) = none ↔
      ∀ r ∈ opcodeTable, w &&& r.mask ≠ r.pattern := by simp
  rw [← none_iff, decodeSelector]
  split
  · next hr => simp [hr]
  · next hr => simp [hr, eq_comm]

/-! ### What a word written to `CMD` decodes to (R91) -/

/-- A word decodes to the command whose opcode is its low byte (R91, R92), and none to `UDP_DELIVER`
(R98). -/
theorem decodeCommand_eq_instr_iff {w : Word} {i : Instr} :
    decodeCommand w = .instr i ↔
      i ≠ .udpDeliver ∧ w.extractLsb' 0 8 = (encode i).extractLsb' 0 8 := by
  rw [← and_mask_eq_iff]
  constructor
  · intro h
    obtain ⟨r, hr, rfl, hw⟩ := decodeSelector_instr h
    rw [and_mask_of_mem_opcodeTable hr, encode_of_mem_opcodeTable hr] at hw
    have masked : encode r.instr &&& 0x000000FF = encode r.instr := by
      rw [← hw, BitVec.and_assoc, BitVec.and_self]
    refine ⟨fun hi => ?_, hw.trans masked.symm⟩
    rw [hi] at masked
    exact absurd masked (by decide)
  · rintro ⟨hi, hw⟩
    rw [decodeCommand, hw, encode_and_mask hi, decodeSelector_encode]

theorem decodeCommand_encode {i : Instr} (hi : i ≠ .udpDeliver) :
    decodeCommand (encode i) = .instr i := decodeCommand_eq_instr_iff.mpr ⟨hi, rfl⟩

theorem decodeCommand_ne_udpDeliver (w : Word) : decodeCommand w ≠ .instr .udpDeliver :=
  fun h => (decodeCommand_eq_instr_iff.mp h).1 rfl

/-- The reserved opcodes (R95). -/
def ReservedOpcode (b : Byte) : Prop := b = 0x00 ∨ b = 0x0E ∨ b = 0x0F ∨ 0x16 ≤ b.toNat

/-- The bytes that are the pattern of no row: the port's pattern is above every byte. -/
theorem reservedOpcode_iff (b : Byte) :
    ReservedOpcode b ↔ ∀ r ∈ opcodeTable, b.toNat ≠ r.pattern.toNat := by
  have hb := b.isLt
  simp [ReservedOpcode, opcodeTable, commandRows, portRow, ← BitVec.toNat_inj]
  omega

theorem decodeCommand_eq_reserved_iff {w : Word} {op : Byte} :
    decodeCommand w = .reserved op ↔ op = w.extractLsb' 0 8 ∧ ReservedOpcode op := by
  have low : (w &&& 0x000000FF).extractLsb' 0 8 = w.extractLsb' 0 8 := by
    rw [← and_mask_eq_iff, BitVec.and_assoc, BitVec.and_self]
  rw [decodeCommand, decodeSelector_eq_reserved_iff, low, reservedOpcode_iff]
  refine and_congr_right fun hop => forall₂_congr fun r hr => not_congr ?_
  rw [and_mask_of_mem_opcodeTable hr, ← BitVec.toNat_inj, toNat_and_mask, hop]

end Sys2Proof
end

section
/-! The register writes of a command line: they load its operands into `ARG`, from which the same command
is assembled again, and then run it (spec/30_encoding.md R93, R94, R120; spec/20_memory.md R66). -/

namespace Sys2Proof

/-! ### Operands in registers (R94) -/

theorem assemblePort_setWidth (p : Half) : assemblePort (p.setWidth 32) = p := by
  rw [assemblePort, BitVec.extractLsb'_setWidth_of_le (by decide), BitVec.extractLsb'_eq_self]

theorem assembleBool_ofBool (b : Bool) : assembleBool ((BitVec.ofBool b).setWidth 32) = b := by
  cases b <;> rfl

/-- A MAC address is read back from the two words it is loaded as. -/
theorem assembleMac_operands (m : Mac) :
    assembleMac ((m.m0 ++ m.m1).setWidth 32) (m.m2 ++ m.m3 ++ m.m4 ++ m.m5) = m := by
  simp (disch := decide) only [assembleMac, BitVec.extractLsb'_setWidth_of_le,
    BitVec.extractLsb'_append_eq_of_add_le, BitVec.extractLsb'_append_eq_of_le,
    BitVec.extractLsb'_eq_self, Nat.sub_self, Nat.reduceSub]

/-! ### Loading `ARG` -/

/-- The operand registers after the values `vs` were written to `ARG[k]`, `ARG[k + 1]` and so on. -/
def loadArgs (arg : Vector Word 8) (k : Nat) (vs : List Word) : Vector Word 8 :=
  Vector.ofFn fun j => if j.val < k then arg[j.val] else vs.getD (j.val - k) arg[j.val]

theorem loadArgs_getElem (arg : Vector Word 8) (k : Nat) (vs : List Word) {j : Nat} (hj : j < 8) :
    (loadArgs arg k vs)[j] = if j < k then arg[j] else vs.getD (j - k) arg[j] :=
  Vector.getElem_ofFn hj

theorem loadArgs_nil (arg : Vector Word 8) (k : Nat) : loadArgs arg k [] = arg := by
  ext j hj
  simp [loadArgs_getElem]

/-- Registers past the values written are as before. -/
theorem loadArgs_getElem_of_length_le {arg : Vector Word 8} {vs : List Word} {j : Nat} (hj : j < 8)
    (h : vs.length ≤ j) : (loadArgs arg 0 vs)[j] = arg[j] := by
  rw [loadArgs_getElem _ _ _ hj, if_neg (Nat.not_lt_zero j), Nat.sub_zero, List.getD_eq_default _ _ h]

/-- Writing one register and loading on from the next is loading from the first. -/
theorem loadArgs_set (arg : Vector Word 8) {k : Nat} (hk : k < 8) (v : Word) (vs : List Word) :
    loadArgs (arg.set k v) (k + 1) vs = loadArgs arg k (v :: vs) := by
  ext1 j hj
  rw [loadArgs_getElem _ _ _ hj, loadArgs_getElem _ _ _ hj, Vector.getElem_set]
  rcases Nat.lt_trichotomy j k with h | rfl | h
  · rw [if_pos (by omega), if_neg (by omega), if_pos h]
  · simp
  · have next : j - k = j - (k + 1) + 1 := by omega
    rw [if_neg (by omega), if_neg (by omega), if_neg (by omega), next, List.getD_cons_succ]

theorem HostCommand.operands_length_le (c : HostCommand) : c.operands.length ≤ 8 := by
  cases c <;> simp [operands]

/-- The operand registers a command line loads assemble to the same command (R93, R94). -/
theorem HostCommand.ofRegs_loadArgs (c : HostCommand) (arg : Vector Word 8) :
    HostCommand.ofRegs c.instr (loadArgs arg 0 c.operands) = some c := by
  cases c with
  | shutdown | setDhcp | setZeroconf | dispatch | queueDhcp | queueZeroconf | apply => rfl
  | setIp | setGateway | queueIp | queueNetmask | queueGateway | setIpConfig | recv | recvZc =>
    simp [ofRegs, instr, operands, loadArgs_getElem]
  | bind | unbind | send =>
    simp [ofRegs, instr, operands, loadArgs_getElem, assemblePort_setWidth]
  | init mac cfg useDhcp a l =>
    simp [ofRegs, instr, operands, loadArgs_getElem, assembleMac_operands, assembleBool_ofBool]

theorem HostCommand.instr_ne_udpDeliver (c : HostCommand) : c.instr ≠ .udpDeliver := by
  cases c <;> nofun

end Sys2Proof

namespace Sys2Proof.Machine

/-! ### The steps of a command line (R120) -/

/-- A write of `CMD` starts the command (R91). -/
theorem step_writeCmd {s : State} {w : Word} {rest : List HostAction} (held : s.held = none)
    (host : s.host = .writeReg 0 4 w :: rest) : step s = startCommand (s.setHost rest) w := by
  rw [step_eq_hostStep held host, hostStep_writeReg _ w (Nat.zero_mod 4), writeReg, if_pos rfl]

theorem startCommand_of_instr {w : Word} {i : Instr} (h : decodeCommand w = .instr i) (s : State) :
    startCommand s w = exec i (s.setCmd w) := by
  rw [startCommand, h]

theorem startCommand_of_reserved {w : Word} {op : Byte} (h : decodeCommand w = .reserved op)
    (s : State) : startCommand s w = .next ((s.setCmd w).raise .errBadOpcode) := by
  rw [startCommand, h]

/-- A write of `ARG[k]` is one step (R66). -/
theorem step_writeArg {s : State} (k : Fin 8) {v : Word} {rest : List HostAction}
    (held : s.held = none) (host : s.host = .writeReg (8 + 4 * k.val) 4 v :: rest) :
    step s = .next ((s.setHost rest).setArg k v) := by
  rw [step_eq_hostStep held host, hostStep_writeReg _ v (by omega), writeReg_arg]

/-- The writes of consecutive operand registers take one step each and load them (R120). -/
theorem afterSteps_argWrites {s : State} {k : Nat} {vs : List Word} {rest : List HostAction}
    (held : s.held = none) (host : s.host = argWrites k vs ++ rest) (fits : k + vs.length ≤ 8) :
    afterSteps vs.length s = some { s with arg := loadArgs s.arg k vs, host := rest } := by
  induction vs generalizing s k with
  | nil =>
    obtain rfl : s.host = rest := host
    rw [loadArgs_nil]
    rfl
  | cons v vs ih =>
    rw [List.length_cons] at fits
    have hk : k < 8 := by omega
    have loaded := ih (s := (s.setHost (argWrites (k + 1) vs ++ rest)).setArg ⟨k, hk⟩ v)
      (k := k + 1) held rfl (by omega)
    rw [List.length_cons, afterSteps, step_writeArg ⟨k, hk⟩ held host]
    refine loaded.trans ?_
    rw [← loadArgs_set s.arg hk]
    rfl

/-- The delivery port's selector decodes to `UDP_DELIVER` (R98), so a pending delivery call runs it. -/
theorem dispatchStep_called {h : Held} (called : h.called = true) (s : State) :
    dispatchStep s h = exec .udpDeliver (s.setHeld (some { h with called := false })) := by
  have port : decodeSelector portSelector = .instr .udpDeliver := decodeSelector_encode .udpDeliver
  rw [dispatchStep, if_pos called, port]

end Sys2Proof.Machine
end

section
/-! The statements of the family 30_encoding.md, from the lemmas above. -/

namespace Sys2Proof.Proofs

open Sys2Proof.Machine

/-- Settles O7: the `ARG` writes load the operands (`afterSteps_argWrites`), these assemble to the command
again (`HostCommand.ofRegs_loadArgs`), and the write of `CMD` starts it. -/
theorem commandLineLoadsAndRuns : Obligations.CommandLineLoadsAndRuns := by
  refine ⟨fun c s rest held host => ?_, decodeSelector_encode⟩
  rw [HostCommand.writes, List.append_assoc] at host
  refine ⟨_, afterSteps_argWrites held host (by simpa using c.operands_length_le),
    c.ofRegs_loadArgs s.arg, fun k hk => loadArgs_getElem_of_length_le k.isLt hk, rfl, ?_⟩
  have decoded := decodeCommand_encode c.instr_ne_udpDeliver
  refine (step_writeCmd ?_ rfl).trans (startCommand_of_instr decoded _)
  exact held

/-- Settles O6: both directions of each by the decoder's two equivalences. -/
theorem commandWordDecodesByLowByte : Obligations.CommandWordDecodesByLowByte :=
  ⟨fun _ _ => decodeCommand_eq_instr_iff, fun _ _ => decodeCommand_eq_reserved_iff⟩

/-- Settles O8: fixed words, decoded by computation. -/
theorem sampleWordsDecode : Obligations.SampleWordsDecode := by
  unfold Obligations.SampleWordsDecode
  decide

/-- Settles O9: a write of `CMD` starts the command its word decodes to. -/
theorem commandWriteRunsDecodedInstruction : Obligations.CommandWriteRunsDecodedInstruction := by
  intro s w i rest held host hw
  rw [step_writeCmd held host, startCommand_of_instr hw]

/-- Settles O10: a word whose low byte is reserved decodes to no operation, and no word to
`UDP_DELIVER`. -/
theorem reservedOpcodeIsReported : Obligations.ReservedOpcodeIsReported := by
  refine ⟨fun s w rest held host reserved => ?_, decodeCommand_ne_udpDeliver⟩
  have hw := decodeCommand_eq_reserved_iff.mpr ⟨rfl, reserved⟩
  rw [step_writeCmd held host, startCommand_of_reserved hw]
  rfl

/-- Settles O11: a held frame makes the step one of its `DISPATCH`, and the pending call is taken first. -/
theorem deliveryPortStepRunsUdpDeliver : Obligations.DeliveryPortStepRunsUdpDeliver := by
  intro s h held called
  rw [step, engineStep, held]
  exact dispatchStep_called called s

end Sys2Proof.Proofs
end

section
/-! When an operation answers at all, and with which status: under the contract of the collaborator ports
every operation the host may invoke reaches its effect, unless the IP layer breaks its promise to a
`DISPATCH` (spec/40_network_core.md R140; spec/60_exceptions.md R288, R291). -/

namespace Sys2Proof.Machine

/-- If every call returns, an operation of the host answers its effect; a `DISPATCH` where the IP layer
keeps its promise (R288, R291 (d)). -/
theorem exec_of_callsReturn {i : Instr} {s : State} (hr : s.callsReturn) (hi : i ≠ .udpDeliver)
    (promise : i = .dispatch → deliveryContractBroken s = false) :
    exec i s = .next (effect i s) := by
  cases i with
  | init | shutdown | setIp | setGateway | setDhcp | setZeroconf | apply | send =>
    exact complete_of_callsReturn hr _
  | queueIp | queueNetmask | queueGateway | queueDhcp | queueZeroconf | setIpConfig | bind | unbind
  | recv | recvZc => rfl
  | dispatch =>
    rw [exec, execDispatch, promise rfl]
    exact complete_of_callsReturn hr _
  | udpDeliver => exact absurd rfl hi

/-- The commands of the Network Core (R140). -/
def networkCoreCommands : List Instr :=
  [.init, .shutdown, .setIp, .setGateway, .setDhcp, .setZeroconf, .dispatch, .queueIp, .queueNetmask,
    .queueGateway, .queueDhcp, .queueZeroconf, .apply]

/-- Those that configure: all but `DISPATCH`, which alone touches the frame held and the labels. -/
def configCommands : List Instr := networkCoreCommands.erase .dispatch

theorem exec_configCommand {i : Instr} {s : State} (hr : s.callsReturn)
    (hi : i ∈ configCommands := by decide) : exec i s = .next (effect i s) := by
  refine exec_of_callsReturn hr ?_ ?_ <;> rintro rfl <;> exact absurd hi (by decide)

theorem setZeroconfNext_status (s : State) : (setZeroconfNext s).status = .ok := by
  unfold setZeroconfNext
  split <;> rfl

theorem dispatchNext_status (s : State) : (dispatchNext s).status = .ok := by
  unfold dispatchNext
  split <;> rfl

/-- Every Network Core command ends with `ST_OK` (R140). -/
theorem effect_status {i : Instr} (hi : i ∈ networkCoreCommands) (s : State) :
    (effect i s).status = .ok := by
  cases i with
  | setZeroconf => exact setZeroconfNext_status s
  | dispatch => exact dispatchNext_status s
  | init | shutdown | setIp | setGateway | setDhcp | queueIp | queueNetmask | queueGateway | queueDhcp
  | queueZeroconf | apply => rfl
  | setIpConfig | bind | unbind | recv | recvZc | send | udpDeliver => exact absurd hi (by decide)

end Sys2Proof.Machine
end

section
/-! What the configuration commands leave alone whichever way they end: the host's side, host memory, the
labels and the frame held (spec/10_state.md R18, R24, R45; spec/20_memory.md R61). -/

namespace Sys2Proof.Machine

/-- What surrounds the Network Core and the transport. -/
structure Surroundings where
  cfg : Config
  cmd : Word
  arg : Vector Word 8
  host : List HostAction
  bus : List Word
  hostMem : Memory
  labels : List Label
  held : Option Held

/-- The surroundings of a state: the host's side with its memory, the labels and the frame held. -/
def State.surroundings (s : State) : Surroundings :=
  ⟨s.cfg, s.cmd, s.arg, s.host, s.bus, s.hostMem, s.labels, s.held⟩

theorem SameMemory.of_eq {s t : State} (h : t.hostMem = s.hostMem) : SameMemory s t :=
  fun a => by rw [h]

/-- Equal surroundings, in the words of the statements. -/
theorem same_of_surroundings {s t : State} (h : t.surroundings = s.surroundings) :
    t.labels = s.labels ∧ t.held = s.held ∧ SameHostSide s t ∧ SameMemory s t := by
  obtain ⟨cfg, cmd, arg, host, bus, hostMem, labels, held⟩ := Surroundings.mk.inj h
  exact ⟨labels, held, ⟨cfg, cmd, arg, host, bus⟩, .of_eq hostMem⟩

section
variable (s : State)

@[simp] theorem setRes_surroundings (k : Fin 4) (v : Word) :
    (s.setRes k v).surroundings = s.surroundings := rfl

@[simp] theorem setStatus_surroundings (c : Status) :
    (s.setStatus c).surroundings = s.surroundings := rfl

@[simp] theorem record_surroundings (c : Call) : (s.record c).surroundings = s.surroundings := rfl

@[simp] theorem setNcConfig_surroundings (c : IpConfig) :
    (s.setNcConfig c).surroundings = s.surroundings := rfl

@[simp] theorem setMode_surroundings (d z : Bool) :
    (s.setMode d z).surroundings = s.surroundings := rfl

@[simp] theorem setPend_surroundings (p : Pending) : (s.setPend p).surroundings = s.surroundings := rfl

@[simp] theorem initInputs_surroundings : (initInputs s).surroundings = s.surroundings := rfl

@[simp] theorem initResults_surroundings : (initResults s).surroundings = s.surroundings := by
  simp [initResults]

@[simp] theorem applyStaged_surroundings : (applyStaged s).surroundings = s.surroundings := rfl

@[simp] theorem afterNegotiate_surroundings : (afterNegotiate s).surroundings = s.surroundings := by
  simp [State.surroundings]

@[simp] theorem reinit_surroundings : (reinit s).surroundings = s.surroundings := by
  simp [State.surroundings]

@[simp] theorem negotiate_surroundings : (negotiate s).surroundings = s.surroundings := by
  obtain ⟨-, -, -, -, -, -, -, labels, held, hostMem, -, -, -, cfg, cmd, arg, host, bus⟩ :=
    negotiate_spec s
  rw [State.surroundings, cfg, cmd, arg, host, bus, hostMem, labels, held, State.surroundings]

@[simp] theorem takeLinkLocal_surroundings (c : IpConfig) :
    (takeLinkLocal s c).surroundings = s.surroundings := by simp [takeLinkLocal]

@[simp] theorem reinitIf_surroundings (b : Bool) : (reinitIf b s).surroundings = s.surroundings := by
  cases b <;> simp [reinitIf]

@[simp] theorem shutdownCalls_surroundings : (shutdownCalls s).surroundings = s.surroundings := by
  unfold shutdownCalls
  split <;> simp

@[simp] theorem setZeroconfNext_surroundings : (setZeroconfNext s).surroundings = s.surroundings := by
  unfold setZeroconfNext
  split <;> simp

@[simp] theorem initNegotiated_surroundings : (initNegotiated s).surroundings = s.surroundings := by
  unfold initNegotiated
  split <;> simp

@[simp] theorem applyZeroconf_surroundings (b : Bool) :
    (applyZeroconf b s).surroundings = s.surroundings := by
  unfold applyZeroconf
  split <;> simp

@[simp] theorem applyNext_surroundings : (applyNext s).surroundings = s.surroundings := by
  unfold applyNext
  dsimp only
  split
  · simp
  · split <;> simp

end

theorem effect_surroundings {i : Instr} (hi : i ∈ configCommands) (s : State) :
    (effect i s).surroundings = s.surroundings := by
  cases i with
  | init | shutdown | setIp | setGateway | setDhcp | setZeroconf | queueIp | queueNetmask
  | queueGateway | queueDhcp | queueZeroconf | apply => simp [effect]
  | dispatch | setIpConfig | bind | unbind | recv | recvZc | send | udpDeliver =>
    exact absurd hi (by decide)

/-- A configuration command leaves its surroundings alone. -/
theorem effect_same {i : Instr} (s : State) (hi : i ∈ configCommands := by decide) :
    (effect i s).labels = s.labels ∧ (effect i s).held = s.held ∧ SameHostSide s (effect i s) ∧
      SameMemory s (effect i s) :=
  same_of_surroundings (effect_surroundings hi s)

end Sys2Proof.Machine
end

section
/-! The effects of the shared configuration steps, field by field: the template, the results, and what a
`REINIT`, a negotiation and a zeroconf answer leave behind (spec/40_network_core.md R141 to R143, R152,
R154). -/

namespace Sys2Proof.Machine

/-! ### Results and template -/

theorem SameResBut.of_eq {s t : State} (h : t.res = s.res) (ks : List (Fin 4)) :
    SameResBut ks s t := fun k _ => by rw [h]

/-- After a write of `RES[0]` it holds the value, and the other results are as before (R22). -/
theorem result_of_set {s t : State} {v : Word} (h : t.res = s.res.set 0 v) :
    t.res[0] = v ∧ SameResBut [0] s t := by
  refine ⟨by simp [h], fun k hk => ?_⟩
  have hne : 0 ≠ k.val := fun h0 => hk (List.mem_singleton.mpr (Fin.ext h0.symm))
  simp only [h, Vector.getElem_set_ne _ _ hne]

theorem TemplateKeptBut.mono {p q : Nat → Prop} {s t : State} (h : TemplateKeptBut p s t)
    (hpq : ∀ o, p o → q o) : TemplateKeptBut q s t :=
  ⟨h.1, fun o ho => h.2 o fun hp => ho (hpq o hp)⟩

theorem TemplateKeptBut.trans {p : Nat → Prop} {s t u : State} (h1 : TemplateKeptBut p s t)
    (h2 : TemplateKeptBut p t u) : TemplateKeptBut p s u :=
  ⟨h2.1.trans h1.1, fun o ho => (h2.2 o ho).trans (h1.2 o ho)⟩

/-- `REINIT` writes the configuration bytes of the template alone (R141, R142). -/
theorem reinit_templateKept {s u : State} (txt : u.txt = s.txt) :
    TemplateKeptBut ConfigOffset s (reinit u) := by
  obtain ⟨hl, hb⟩ := propagated_template s.txt u.nc.mac u.nc.cfg.ip
  simp only [TemplateKeptBut, reinit_fields, txt]
  exact ⟨hl, hb⟩

/-- A collaborator that ran writes the per-send bytes of the template alone (R154). -/
theorem templateKept_of_touch {s t : State} (u : Touch)
    (txt : t.txt = u.perSend.elim s.txt (mergePerSend 0 s.txt)) :
    TemplateKeptBut (fun o => perSendOffset o = true) s t := by
  obtain ⟨hl, hb⟩ := touched_template s.txt u
  simp only [TemplateKeptBut, txt, Bool.not_eq_true]
  exact ⟨hl, hb⟩

/-- A collaborator that ran and then a `REINIT` write bytes of the two kinds alone. -/
theorem reinit_templateKept_of_perSend {s t u : State} (txt : u.txt = t.txt)
    (h : TemplateKeptBut (fun o => perSendOffset o = true) s t) :
    TemplateKeptBut (fun o => ConfigOffset o ∨ perSendOffset o = true) s (reinit u) :=
  (h.mono fun _ => .inr).trans ((reinit_templateKept txt).mono fun _ => .inl)

theorem reinit_calls (s : State) : (reinit s).calls = s.calls ++ reinitCalls s.nc.mac s.nc.cfg := by
  simp [reinitCalls]

/-! ### A new configuration (R148, R149) -/

/-- A command that sets the configuration and re-initialises: its effect and its frame. -/
theorem setConfig_spec {s : State} (h : s.Inv) (c : IpConfig) :
    let t := (reinit (s.setNcConfig c)).setStatus .ok
    t.nc = { s.nc with cfg := c } ∧ t.status = .ok ∧ t.ut = utMasksOf c ∧ Coherent t ∧
      TemplateKeptBut ConfigOffset s t ∧ t.calls = s.calls ++ reinitCalls s.nc.mac t.nc.cfg ∧
      t.pend = s.pend ∧ t.slots = s.slots ∧ t.ipId = s.ipId ∧ t.env = s.env ∧
      t.labels = s.labels ∧ t.held = s.held ∧ SameHostSide s t ∧ SameMemory s t ∧
      SameResBut [] s t := by
  obtain ⟨labels, held, hostSide, memory⟩ :=
    same_of_surroundings (s := s) (t := (reinit (s.setNcConfig c)).setStatus .ok) (by simp)
  have template : TemplateKeptBut ConfigOffset s (reinit (s.setNcConfig c)) :=
    reinit_templateKept (by simp)
  refine ⟨by simp, by simp, by simp, setStatus_coherent (reinit_coherent (setNcConfig_inv h c)) _,
    template, by simp [reinitCalls], by simp, by simp, by simp, by simp, labels, held, hostSide,
    memory, .of_eq (by simp) _⟩

/-! ### A negotiation and the `REINIT` after it (R143, R145 (b), R151) -/

/-- What `NEGOTIATE` and the `REINIT` after it make of `s`, in words of the answers `a` of `DHCP.acquire`
and `z` of `ZC.negotiate`. -/
structure Renegotiated (a z : Option IpConfig × Touch) (s t : State) : Prop where
  nc : t.nc = { s.nc with
    cfg := negotiatedConfig s.nc.cfg a.1 z.1
    dhcpActive := a.1.isSome
    zcActive := negotiatedZc a.1 z.1 }
  calls : t.calls = s.calls ++ (negotiationCalls s.nc.mac s.nc.hostname s.nc.cfg a z ++
    reinitCalls s.nc.mac (negotiatedConfig s.nc.cfg a.1 z.1))
  coherent : Coherent t
  ipId : t.ipId = negotiatedIpId s.ipId a z
  template : TemplateKeptBut (fun o => ConfigOffset o ∨ perSendOffset o = true) s t
  res : t.res = s.res

theorem reinit_negotiate {s : State} (h : s.Inv) {a z : Option IpConfig × Touch}
    (ha : dhcpAnswer s = a) (hz : zcAnswer (s.drew 1) = z) :
    Renegotiated a z s (reinit (negotiate s)) := by
  obtain ⟨nc, calls, ipId, -, template, -, -, -, -, -, res, -⟩ := negotiate_spec s
  subst ha hz
  exact {
    nc := by simp [nc]
    calls := by rw [reinit_calls, calls, nc, List.append_assoc]
    coherent := reinit_coherent (negotiate_inv h)
    ipId := by simp [ipId]
    template := reinit_templateKept_of_perSend rfl template
    res := by simp [res] }

/-! ### A zeroconf answer (R152, R153, R162) -/

theorem afterNegotiate_calls (s : State) : (afterNegotiate s).calls =
    s.calls ++ .zcNegotiate s.nc.cfg :: touchTrace (zcAnswer s).2 := by simp [touchTrace]

theorem afterNegotiate_templateKept (s : State) :
    TemplateKeptBut (fun o => perSendOffset o = true) s (afterNegotiate s) :=
  templateKept_of_touch (zcAnswer s).2 (by simp)

theorem takeLinkLocal_nc (s : State) (c : IpConfig) : (takeLinkLocal s c).nc =
    { s.nc with cfg := c, dhcpActive := false, zcActive := true } := by simp [takeLinkLocal]

theorem takeLinkLocal_calls (s : State) (c : IpConfig) : (takeLinkLocal s c).calls =
    s.calls ++ (.zcNegotiate s.nc.cfg :: touchTrace (zcAnswer s).2 ++ reinitCalls s.nc.mac c) := by
  simp [takeLinkLocal, touchTrace, reinitCalls]

theorem takeLinkLocal_templateKept (s : State) (c : IpConfig) :
    TemplateKeptBut (fun o => ConfigOffset o ∨ perSendOffset o = true) s (takeLinkLocal s c) :=
  reinit_templateKept_of_perSend (by simp) (afterNegotiate_templateKept s)

@[simp] theorem takeLinkLocal_ipId_res (s : State) (c : IpConfig) :
    (takeLinkLocal s c).ipId = (zcAnswer s).2.ipId.getD s.ipId ∧
    (takeLinkLocal s c).res = s.res := by simp [takeLinkLocal]

theorem setZeroconfNext_of_some {s : State} {c : IpConfig} (h : (zcAnswer s).1 = some c) :
    setZeroconfNext s = ((takeLinkLocal s c).setRes 0 1).setStatus .ok := by
  simp only [setZeroconfNext, h]

theorem setZeroconfNext_of_none {s : State} (h : (zcAnswer s).1 = none) :
    setZeroconfNext s = ((afterNegotiate s).setRes 0 0).setStatus .ok := by
  simp only [setZeroconfNext, h]

/-- Whatever zeroconf answers, `SET_ZEROCONF` writes one result and takes `IP_ID` as left to it. -/
theorem setZeroconfNext_ipId_res (s : State) :
    (setZeroconfNext s).ipId = (zcAnswer s).2.ipId.getD s.ipId ∧
    (setZeroconfNext s).res = s.res.set 0 (if (zcAnswer s).1.isSome then 1 else 0) := by
  rcases h : (zcAnswer s).1 with _ | c
  · simp [setZeroconfNext_of_none h]
  · simp [setZeroconfNext_of_some h]

end Sys2Proof.Machine
end

section
/-! `APPLY` by its mode request (spec/40_network_core.md R162). -/

namespace Sys2Proof.Machine

theorem applyNext_dhcp {s : State} (h : s.pend.mask.getLsbD 3 = true) :
    applyNext s = (reinit (negotiate (applyStaged s))).setRes 0
      (applyResult (reinit (negotiate (applyStaged s))).nc.zcActive
        (negotiateOk (applyStaged s))) := by
  simp only [applyNext, h, if_true]

theorem applyNext_zeroconf {s : State} (h3 : s.pend.mask.getLsbD 3 = false)
    (h4 : s.pend.mask.getLsbD 4 = true) :
    applyNext s = (applyZeroconf (valueStaged s) (applyStaged s)).setRes 0
      (applyResult (applyZeroconf (valueStaged s) (applyStaged s)).nc.zcActive false) := by
  simp only [applyNext, h3, h4, if_true, Bool.false_eq_true, if_false]

theorem applyNext_values {s : State} (h3 : s.pend.mask.getLsbD 3 = false)
    (h4 : s.pend.mask.getLsbD 4 = false) :
    applyNext s = (reinitIf (valueStaged s) (applyStaged s)).setRes 0 0 := by
  simp only [applyNext, h3, h4, Bool.false_eq_true, if_false]

theorem valueStaged_iff {s : State} :
    valueStaged s = true ↔ s.pend.mask.extractLsb' 0 3 ≠ 0 := decide_eq_true_iff

/-- Without a mode request, a value is staged exactly when the mask is not 0. -/
theorem extract_values_eq_zero_iff : ∀ m : BitVec 5, m.getLsbD 3 = false → m.getLsbD 4 = false →
    (m.extractLsb' 0 3 = 0 ↔ m = 0) := by decide

theorem applyZeroconf_of_some {b : Bool} {t : State} {c : IpConfig}
    (h : (zcAnswer t).1 = some c) : applyZeroconf b t = takeLinkLocal t c := by
  simp only [applyZeroconf, h]

theorem applyZeroconf_of_none {b : Bool} {t : State} (h : (zcAnswer t).1 = none) :
    applyZeroconf b t = reinitIf b (afterNegotiate t) := by
  simp only [applyZeroconf, h]

@[simp] theorem reinitIf_fields (b : Bool) (s : State) :
    (reinitIf b s).pend = s.pend ∧ (reinitIf b s).res = s.res ∧ (reinitIf b s).ipId = s.ipId ∧
    (reinitIf b s).slots = s.slots ∧ (reinitIf b s).env = s.env := by
  cases b <;> simp [reinitIf]

theorem applyZeroconf_fields (b : Bool) (t : State) :
    (applyZeroconf b t).pend = t.pend ∧ (applyZeroconf b t).res = t.res ∧
    (applyZeroconf b t).ipId = (zcAnswer t).2.ipId.getD t.ipId := by
  rcases h : (zcAnswer t).1 with _ | c
  · simp [applyZeroconf_of_none h]
  · simp [applyZeroconf_of_some h]

theorem applyZeroconf_templateKept (b : Bool) (t : State) :
    TemplateKeptBut (fun o => ConfigOffset o ∨ perSendOffset o = true) t (applyZeroconf b t) := by
  have ran := afterNegotiate_templateKept t
  rcases h : (zcAnswer t).1 with _ | c
  · rw [applyZeroconf_of_none h]
    cases b with
    | true => exact reinit_templateKept_of_perSend rfl ran
    | false => exact ran.mono fun _ => .inr
  · rw [applyZeroconf_of_some h]
    exact takeLinkLocal_templateKept t c

/-- A zeroconf success of `APPLY` takes the link-local configuration. -/
theorem applyZeroconf_success {b : Bool} {t : State} {d : IpConfig} (h : t.Inv)
    (hd : (zcAnswer t).1 = some d) :
    (applyZeroconf b t).nc = { t.nc with cfg := d, dhcpActive := false, zcActive := true } ∧
    Coherent (applyZeroconf b t) ∧ (applyZeroconf b t).calls = t.calls ++
      (.zcNegotiate t.nc.cfg :: touchTrace (zcAnswer t).2 ++ reinitCalls t.nc.mac d) := by
  rw [applyZeroconf_of_some hd]
  exact ⟨takeLinkLocal_nc t d, takeLinkLocal_coherent h d, takeLinkLocal_calls t d⟩

/-- A zeroconf failure of `APPLY` keeps the registers; the layers are re-initialised on request. -/
theorem applyZeroconf_failure {b : Bool} {t : State} (h : t.Inv) (hn : (zcAnswer t).1 = none) :
    (applyZeroconf b t).nc = t.nc ∧
    (b = true → Coherent (applyZeroconf b t) ∧ (applyZeroconf b t).calls = t.calls ++
      (.zcNegotiate t.nc.cfg :: touchTrace (zcAnswer t).2 ++ reinitCalls t.nc.mac t.nc.cfg)) ∧
    (b = false → (applyZeroconf b t).ut = t.ut ∧ (applyZeroconf b t).calls =
      t.calls ++ .zcNegotiate t.nc.cfg :: touchTrace (zcAnswer t).2 ∧
      TemplateKeptBut (fun o => perSendOffset o = true) t (applyZeroconf b t)) := by
  rw [applyZeroconf_of_none hn]
  refine ⟨by simp, ?_, ?_⟩
  · rintro rfl
    refine ⟨reinit_coherent (afterNegotiate_inv h), (reinit_calls _).trans ?_⟩
    rw [afterNegotiate_calls, List.append_assoc]
    rfl
  · rintro rfl
    exact ⟨rfl, afterNegotiate_calls t, afterNegotiate_templateKept t⟩

/-- The oracles answer after the staged values are written as before. -/
@[simp] theorem applyStaged_answers (s : State) :
    dhcpAnswer (applyStaged s) = dhcpAnswer s ∧ zcAnswer (applyStaged s) = zcAnswer s ∧
    zcAnswer ((applyStaged s).drew 1) = zcAnswer (s.drew 1) :=
  ⟨dhcpAnswer_congr rfl rfl, zcAnswer_congr rfl rfl, zcAnswer_congr rfl rfl⟩

end Sys2Proof.Machine
end

section
/-! The addressing mode each operation ends in (spec/10_state.md R27; spec/40_network_core.md R147). -/

namespace Sys2Proof.Machine

/-- The mode is a function of the two flags. -/
theorem mode_congr {s t : State} (dhcp : t.nc.dhcpActive = s.nc.dhcpActive)
    (zc : t.nc.zcActive = s.nc.zcActive) : t.mode = s.mode := by
  rw [State.mode, dhcp, zc, State.mode]

/-- The mode `NEGOTIATE` ends in (R147). -/
theorem negotiate_mode (s : State) : (negotiate s).mode =
    if (dhcpAnswer s).1.isSome then .dhcp
    else if (zcAnswer (s.drew 1)).1.isSome then .zeroconf else .static := by
  obtain ⟨nc, -⟩ := negotiate_spec s
  rw [State.mode, nc]
  cases (dhcpAnswer s).1 <;> cases (zcAnswer (s.drew 1)).1 <;> rfl

theorem takeLinkLocal_mode (s : State) (c : IpConfig) : (takeLinkLocal s c).mode = .zeroconf := by
  rw [State.mode, takeLinkLocal_nc]
  rfl

/-- The mode `SET_ZEROCONF` ends in (R147). -/
theorem setZeroconfNext_mode (s : State) :
    (setZeroconfNext s).mode = if (zcAnswer s).1.isSome then .zeroconf else s.mode := by
  rcases h : (zcAnswer s).1 with _ | c
  · rw [setZeroconfNext_of_none h]
    exact mode_congr (by simp) (by simp)
  · rw [setZeroconfNext_of_some h]
    exact takeLinkLocal_mode s c

theorem applyZeroconf_mode (b : Bool) (t : State) :
    (applyZeroconf b t).mode = if (zcAnswer t).1.isSome then .zeroconf else t.mode := by
  rcases h : (zcAnswer t).1 with _ | c
  · rw [applyZeroconf_of_none h]
    exact mode_congr (by simp) (by simp)
  · rw [applyZeroconf_of_some h]
    exact takeLinkLocal_mode t c

/-- The oracles answer after the inputs of `INIT` are copied and the layers first initialised as
before. -/
@[simp] theorem reinit_initInputs_answers (s : State) :
    dhcpAnswer (reinit (initInputs s)) = dhcpAnswer s ∧
    zcAnswer ((reinit (initInputs s)).drew 1) = zcAnswer (s.drew 1) :=
  ⟨dhcpAnswer_congr (by simp) (by simp), zcAnswer_congr (by simp) (by simp)⟩

theorem initNegotiated_static {s : State} (h : (s.x 5).getLsbD 0 = false) :
    initNegotiated s = reinit (initInputs s) := by
  simp only [initNegotiated, show s.xBool 5 = false from h, Bool.false_eq_true, if_false]

theorem initNegotiated_dhcp {s : State} (h : (s.x 5).getLsbD 0 = true) :
    initNegotiated s = negotiate (reinit (initInputs s)) := by
  simp only [initNegotiated, show s.xBool 5 = true from h, if_true]

/-- The four results of `INIT` (R144). -/
theorem initResults_res (s : State) :
    (initResults s).res[0] = s.nc.cfg.ip ∧ (initResults s).res[1] = s.nc.cfg.netmask ∧
    (initResults s).res[2] = s.nc.cfg.gw ∧ (initResults s).res[3] = boolWord s.nc.zcActive := by
  simp [initResults]

@[simp] theorem initResults_fields (s : State) :
    (initResults s).nc = s.nc ∧ (initResults s).ipId = s.ipId ∧ (initResults s).slots = s.slots ∧
    (initResults s).txt = s.txt ∧ (initResults s).env = s.env ∧ (initResults s).calls = s.calls := by
  simp [initResults]

/-- The registers as `INIT` copies its inputs into them (R144). -/
theorem initInputs_nc (s : State) : (initInputs s).nc =
    { mac := s.xMac, cfg := ⟨s.x 2, s.x 3, s.x 4⟩, dhcpActive := (s.x 5).getLsbD 0, zcActive := false,
      hostname := memRead s.hostMem (s.x 6) (min (s.x 7).toNat s.cfg.hostnameMax) } := rfl

/-- The mode `INIT` ends in (R145, R147). -/
theorem initNegotiated_mode (s : State) : (initNegotiated s).mode =
    if (s.x 5).getLsbD 0 then
      if (dhcpAnswer s).1.isSome then .dhcp
      else if (zcAnswer (s.drew 1)).1.isSome then .zeroconf else .static
    else .static := by
  rcases h : (s.x 5).getLsbD 0 with _ | _
  · simp [initNegotiated_static h, State.mode, show s.xBool 5 = false from h]
  · simp [initNegotiated_dhcp h, negotiate_mode]

/-- The mode `APPLY` ends in (R147, R162). -/
theorem applyNext_mode (s : State) : (applyNext s).mode =
    if s.pend.mask.getLsbD 3 then
      if (dhcpAnswer s).1.isSome then .dhcp
      else if (zcAnswer (s.drew 1)).1.isSome then .zeroconf else .static
    else if s.pend.mask.getLsbD 4 then if (zcAnswer s).1.isSome then .zeroconf else s.mode
    else s.mode := by
  rcases h3 : s.pend.mask.getLsbD 3 with _ | _
  · rcases h4 : s.pend.mask.getLsbD 4 with _ | _
    · rw [applyNext_values h3 h4]
      exact mode_congr (by simp) (by simp)
    · rw [applyNext_zeroconf h3 h4]
      refine (applyZeroconf_mode _ _).trans ?_
      simp [mode_congr (s := s) (t := applyStaged s)]
  · rw [applyNext_dhcp h3]
    refine (mode_congr (s := negotiate (applyStaged s)) (by simp) (by simp)).trans ?_
    simp [negotiate_mode]

end Sys2Proof.Machine
end

section
/-! The end of a `DISPATCH` and the hand-over of its frame (spec/40_network_core.md R156 to R158;
spec/60_exceptions.md R283). -/

namespace Sys2Proof.Machine

/-! ### The timer work, last (R157) -/

/-- From `s` to `t` at most the port table, the frame held and the histories have changed: what a
`DISPATCH` does before its timer work. -/
structure SameBesideQueues (s t : State) : Prop where
  hostSide : SameHostSide s t
  config : SameConfig s t
  hostMem : t.hostMem = s.hostMem
  res : t.res = s.res
  ipId : t.ipId = s.ipId
  txt : t.txt = s.txt

theorem SameBesideQueues.refl (s : State) : SameBesideQueues s s :=
  ⟨⟨rfl, rfl, rfl, rfl, rfl⟩, ⟨rfl, rfl, rfl⟩, rfl, rfl, rfl, rfl⟩

theorem afterRecv_sameBesideQueues (s : State) (l : Label) :
    SameBesideQueues s ((afterRecv s).mark l) where
  hostSide := by constructor <;> simp
  config := by constructor <;> simp
  hostMem := by simp
  res := by simp
  ipId := by simp
  txt := by simp

/-- The end of a `DISPATCH` as its timer work left it, in words of what that did (R283 (e)). -/
theorem runTimers_spec {s t : State} {u : Touch} (h : SameBesideQueues s t)
    (hu : timerTouch t = u) :
    ((runTimers t).setStatus .ok).ipId = u.ipId.getD s.ipId ∧
    TemplateKeptBut (fun o => perSendOffset o = true) s ((runTimers t).setStatus .ok) ∧
    SameConfig s ((runTimers t).setStatus .ok) ∧ SameHostSide s ((runTimers t).setStatus .ok) ∧
    SameMemory s ((runTimers t).setStatus .ok) ∧ SameResBut [] s ((runTimers t).setStatus .ok) := by
  obtain ⟨⟨cfg, cmd, arg, host, bus⟩, ⟨nc, pend, ut⟩, hostMem, res, ipId, txt⟩ := h
  subst hu
  refine ⟨by simp [ipId], templateKept_of_touch (timerTouch t) (by simp [txt]), ?_, ?_,
    .of_eq (by simp [hostMem]), .of_eq (by simp [res]) _⟩
  · constructor <;> simp [nc, pend, ut]
  · constructor <;> simp [cfg, cmd, arg, host, bus]

theorem runTimers_calls (s : State) :
    (runTimers s).calls = s.calls ++ .tmrRun :: touchTrace (timerTouch s) := by simp [touchTrace]

theorem runTimers_boundSlotsKept {s t : State} (cfg : t.cfg = s.cfg) (slots : t.slots = s.slots) :
    BoundSlotsKept s ((runTimers t).setStatus .ok) :=
  (boundSlotsKept_of_eq cfg slots).trans
    (setStatus_touched (runTimers_touched (.refl t)) .ok).boundSlotsKept

/-- What comes of the frame's release and the timer work, where a `DISPATCH` was in progress. -/
theorem dispatchEnd_fields (s : State) :
    (dispatchEnd s).status = .ok ∧ (dispatchEnd s).held = none ∧
    (dispatchEnd s).labels = s.labels ∧
    (dispatchEnd s).calls = s.calls ++ .fioFree :: .tmrRun :: touchTrace (timerTouch s) := by
  have hu : timerTouch ((s.setHeld none).record .fioFree) = timerTouch s := timerTouch_congr rfl rfl
  refine ⟨by simp [dispatchEnd], by simp [dispatchEnd], by simp [dispatchEnd], ?_⟩
  exact (runTimers_calls _).trans (by simp [hu])

/-- The frame lemma of the end of a `DISPATCH`, from a state that held what `s` holds. -/
theorem dispatchEnd_spec {s t : State} {u : Touch} (h : SameBesideQueues s t)
    (hu : timerTouch t = u) :
    (dispatchEnd t).ipId = u.ipId.getD s.ipId ∧
    TemplateKeptBut (fun o => perSendOffset o = true) s (dispatchEnd t) ∧
    SameConfig s (dispatchEnd t) ∧ SameHostSide s (dispatchEnd t) ∧ SameMemory s (dispatchEnd t) ∧
    SameResBut [] s (dispatchEnd t) := by
  obtain ⟨hostSide, config, hostMem, res, ipId, txt⟩ := h
  exact runTimers_spec (t := (t.setHeld none).record .fioFree)
    ⟨⟨hostSide.cfg, hostSide.cmd, hostSide.arg, hostSide.host, hostSide.bus⟩,
      ⟨config.nc, config.pend, config.ut⟩, hostMem, res, ipId, txt⟩
    ((timerTouch_congr rfl rfl).trans hu)

/-! ### A `DISPATCH` in progress (log 3) -/

/-- With no delivery call pending the step ends the `DISPATCH`, if its calls return. -/
theorem step_dispatchEnd {s : State} {h : Held} (held : s.held = some h)
    (called : h.called = false) (hr : s.callsReturn) : step s = .next (dispatchEnd s) := by
  rw [step, engineStep, held]
  refine Eq.trans ?_ (complete_of_callsReturn hr _)
  simp only [dispatchStep, called, Bool.false_eq_true, if_false]

/-! ### The hand-over (R104, R156, R158) -/

theorem etherClass_ipv4_iff (f : Frame) :
    etherClass f = .ipv4 ↔ 14 ≤ f.length ∧ be16 f 12 = 0x0800 := by
  unfold etherClass
  split
  · next h => simpa using h
  · next h => split <;> simpa using h

theorem etherClass_arp_iff (f : Frame) :
    etherClass f = .arp ↔ 14 ≤ f.length ∧ be16 f 12 = 0x0806 := by
  unfold etherClass
  split
  · next h => simp [h.2]
  · split <;> next h => simpa using h

theorem etherClass_other_iff (f : Frame) : etherClass f = .other ↔
    ¬ (14 ≤ f.length ∧ be16 f 12 = 0x0800) ∧ ¬ (14 ≤ f.length ∧ be16 f 12 = 0x0806) := by
  rw [← etherClass_ipv4_iff, ← etherClass_arp_iff]
  cases etherClass f <;> decide

/-- The call by which a frame that is not delivered is handed over or logged. -/
def handedCall (f : Frame) : Call :=
  match etherClass f with
  | .ipv4 => .iplHandle f
  | .arp => .arplHandle f
  | .other => .logDropEthertype (loggedEthertype f)

/-- The label of a frame's class (R18). -/
def handedLabel (f : Frame) : Label :=
  match etherClass f with
  | .ipv4 => .toIp
  | .arp => .toArp
  | .other => .dropEthertype

/-- A frame that is not delivered leaves one call, one label and, from the IP layer, one answer used. -/
theorem handOver_undelivered {s : State} {f : Frame}
    (hd : etherClass f = .ipv4 → iplDelivers s f = false) :
    (handOver s f).calls = s.calls ++ [handedCall f] ∧
    (handOver s f).labels = s.labels ++ [handedLabel f] ∧ (handOver s f).slots = s.slots ∧
    (handOver s f).fresh = s.fresh + (if etherClass f = .ipv4 then 1 else 0) ∧
    (handOver s f).env.tmr = s.env.tmr := by
  rcases hc : etherClass f with _ | _ | _
  · simp [handOver, handedCall, handedLabel, hc, hd hc]
  · simp [handOver, handedCall, handedLabel, hc]
  · simp [handOver, handedCall, handedLabel, hc]

@[simp] theorem handOver_fields (s : State) (f : Frame) :
    (handOver s f).cfg = s.cfg ∧ (handOver s f).cmd = s.cmd ∧ (handOver s f).arg = s.arg ∧
    (handOver s f).res = s.res ∧ (handOver s f).nc = s.nc ∧ (handOver s f).pend = s.pend ∧
    (handOver s f).ut = s.ut ∧ (handOver s f).ipId = s.ipId ∧ (handOver s f).txt = s.txt ∧
    (handOver s f).hostMem = s.hostMem ∧ (handOver s f).host = s.host ∧
    (handOver s f).bus = s.bus := by
  unfold handOver
  split
  · dsimp only
    split <;> simp [udpDeliver]
  · simp
  · simp

/-- Whatever becomes of the frame, its hand-over touches the queues, the frame held and the histories
alone. -/
theorem handOver_sameBesideQueues (s : State) (f : Frame) :
    SameBesideQueues s (handOver (holdFrame s f) f) where
  hostSide := by constructor <;> simp [holdFrame]
  config := by constructor <;> simp [holdFrame]
  hostMem := by simp [holdFrame]
  res := by simp [holdFrame]
  ipId := by simp [holdFrame]
  txt := by simp [holdFrame]

/-- What a delivery makes of the port table, and its label, depend on the table and the parameters
alone. -/
theorem deliver_congr {s t : State} (cfg : t.cfg = s.cfg) (slots : t.slots = s.slots) (f : Frame) :
    (deliverFrame t f).slots = (deliverFrame s f).slots ∧ deliverLabel t f = deliverLabel s f := by
  have slot := slot_congr cfg slots
  refine ⟨?_, by simp only [deliverLabel, cfg, slots, slot]⟩
  simp only [deliverFrame, cfg, slots]
  split
  · exact slots
  · split
    · exact slots
    · simp [queuedSlot, cfg, slots, slot]

/-- A frame that is delivered leaves two labels and in the table what its delivery makes of it. -/
theorem handOver_delivered {s : State} {f : Frame} (hf : etherClass f = .ipv4)
    (hd : iplDelivers s f = true) :
    (handOver s f).calls = s.calls ++ [.iplHandle f] ∧
    (handOver s f).labels = s.labels ++ [.toIp, deliverLabel s f] ∧
    (handOver s f).slots = (deliverFrame s f).slots ∧ (handOver s f).fresh = s.fresh + 1 ∧
    (handOver s f).env.tmr = s.env.tmr := by
  obtain ⟨slots, label⟩ :=
    deliver_congr (s := s) (t := (afterIplHandle s f).mark .toIp) (by simp) (by simp) f
  simp [handOver, hf, hd, udpDeliver, slots, label]

/-- A delivery with its contract kept answers (R202). -/
theorem exec_udpDeliver_of_preDeliver {s : State} {h : Held} (held : s.held = some h)
    (delivered : h.delivered = false) (pre : preDeliver h.frame = true) :
    exec .udpDeliver s =
      .next ((udpDeliver s h.frame).setHeld (some { h with delivered := true })) := by
  simp only [exec, execUdpDeliver, held, delivered, pre, Bool.false_eq_true, if_false, if_true]

/-! ### The IP layer's promise (R201, R291 (d)) -/

/-- The promise is broken only on an IPv4 frame that the IP layer delivers with a precondition false. -/
theorem deliveryContractBroken_elim {s : State} (h : deliveryContractBroken s = true) :
    ∃ f, recvAnswer s = some f ∧ etherClass f = .ipv4 ∧ preDeliver f = false ∧
      ∀ n, iplDelivers (s.drew n) f = true := by
  unfold deliveryContractBroken at h
  split at h
  · next rest hl =>
    split at h
    · cases h
    · next f hf =>
      simp only [Bool.and_eq_true, decide_eq_true_eq, Bool.not_eq_true'] at h
      exact ⟨f, hf, h.1, h.2, fun n => by simp [iplDelivers, hl]⟩
  all_goals cases h

/-- A `DISPATCH` answers, if every call returns and the IP layer delivers only what it may. -/
theorem exec_dispatch {s : State} (hr : s.callsReturn)
    (promise : ∀ f, recvAnswer s = some f → etherClass f = .ipv4 →
      preDeliver f = true ∨ iplDelivers (s.drew 1) f = false) :
    exec .dispatch s = .next (dispatchNext s) := by
  refine exec_of_callsReturn hr (by decide) fun _ => Bool.eq_false_iff.mpr fun broken => ?_
  obtain ⟨f, hf, hc, hpre, hdel⟩ := deliveryContractBroken_elim broken
  rcases promise f hf hc with h | h
  · exact Bool.false_ne_true (hpre.symm.trans h)
  · exact Bool.false_ne_true (h.symm.trans (hdel 1))

theorem dispatchNext_of_none {s : State} (h : recvAnswer s = none) :
    dispatchNext s = (runTimers ((afterRecv s).mark .noFrame)).setStatus .ok := by
  simp only [dispatchNext, h]

theorem dispatchNext_of_some {s : State} {f : Frame} (h : recvAnswer s = some f) :
    dispatchNext s = dispatchEnd (handOver (holdFrame s f) f) := by
  simp only [dispatchNext, h]

end Sys2Proof.Machine
end

section
/-! The statements of the family 40_network_core.md, from the lemmas above. -/

namespace Sys2Proof.Proofs

open Sys2Proof.Machine

/-! ### The configuration commands -/

/-- Settles O21: the calls of `SHUTDOWN` by whether DHCP is active. -/
theorem shutdownReleasesLease : Obligations.ShutdownReleasesLease := by
  intro s hr
  rw [exec_configCommand hr, effect, shutdownCalls]
  rcases hd : s.nc.dhcpActive with _ | _ <;> simp [State.record, State.setStatus]

/-- Settles O22: a new address, then `REINIT` (`setConfig_spec`). -/
theorem setIpReinitialises : Obligations.SetIpReinitialises :=
  fun _ hs hr => ⟨_, exec_configCommand hr, setConfig_spec hs _⟩

/-- Settles O23: a new gateway, then `REINIT` (`setConfig_spec`). -/
theorem setGatewayReinitialises : Obligations.SetGatewayReinitialises :=
  fun _ hs hr => ⟨_, exec_configCommand hr, setConfig_spec hs _⟩

/-- Settles O26: each is its effect, written out. -/
theorem queueValueStages : Obligations.QueueValueStages := fun _ => ⟨rfl, rfl, rfl⟩

/-- Settles O27: the two masks by computation over all five-bit masks. -/
theorem queueModeRequestsExclude : Obligations.QueueModeRequestsExclude := by
  have dhcp : ∀ m : BitVec 5, ((m ||| pDhcp) &&& ~~~pZc).getLsbD 3 = true ∧
      ((m ||| pDhcp) &&& ~~~pZc).getLsbD 4 = false ∧
      ((m ||| pDhcp) &&& ~~~pZc).extractLsb' 0 3 = m.extractLsb' 0 3 := by decide
  have zeroconf : ∀ m : BitVec 5, ((m ||| pZc) &&& ~~~pDhcp).getLsbD 4 = true ∧
      ((m ||| pZc) &&& ~~~pDhcp).getLsbD 3 = false ∧
      ((m ||| pZc) &&& ~~~pDhcp).extractLsb' 0 3 = m.extractLsb' 0 3 := by decide
  exact fun s => ⟨⟨_, rfl, dhcp s.pend.mask⟩, ⟨_, rfl, zeroconf s.pend.mask⟩⟩

/-- Settles O34: each command reaches its effect, which ends `ST_OK`. -/
theorem networkCoreCommandsNeverFail : Obligations.NetworkCoreCommandsNeverFail := by
  intro i s hr promise hi
  refine ⟨_, exec_of_callsReturn hr ?_ fun _ => promise, effect_status hi s⟩
  rintro rfl
  exact absurd hi (by decide)

/-- Settles O24: what `NEGOTIATE` and `REINIT` make of the state (`reinit_negotiate`), and one result. -/
theorem setDhcpNegotiates : Obligations.SetDhcpNegotiates := by
  intro s hs hr a z final
  have renegotiated := reinit_negotiate (a := a) (z := z) hs rfl rfl
  have same := effect_same s (i := .setDhcp)
  have ends := exec_configCommand hr (i := .setDhcp)
  have pend := exec_pend ends (by decide)
  have bound := (exec_touched ends (by decide)).boundSlotsKept
  simp only [effect, show negotiateOk s = a.1.isSome from rfl] at same ends pend bound
  generalize reinit (negotiate s) = u at *
  obtain ⟨nc, calls, coherent, ipId, template, res⟩ := renegotiated
  obtain ⟨value, others⟩ := result_of_set (s := s) (v := boolWord a.1.isSome)
    (t := (u.setRes 0 (boolWord a.1.isSome)).setStatus .ok) (by simp [res])
  exact ⟨_, ends, nc, value, others, rfl, calls,
    setStatus_coherent (setRes_coherent coherent _ _) _, ipId, bound, template, pend, same⟩

/-- Settles O25: by the answer of `ZC.negotiate`. -/
theorem setZeroconfNegotiates : Obligations.SetZeroconfNegotiates := by
  intro s hs hr z
  have ends := exec_configCommand hr (i := .setZeroconf)
  obtain ⟨ipId, res⟩ := setZeroconfNext_ipId_res s
  obtain ⟨value, others⟩ := result_of_set res
  refine ⟨_, ends, setZeroconfNext_status s, others, fun c hc => ?_, fun hn => ?_, ipId,
    (exec_touched ends (by decide)).boundSlotsKept, exec_pend ends (by decide), effect_same s⟩
  · have one : (setZeroconfNext s).res[0] = 1 := value.trans (if_pos (by rw [hc]; rfl))
    rw [effect]
    rw [setZeroconfNext_of_some hc] at one ⊢
    exact ⟨takeLinkLocal_nc s c, one, takeLinkLocal_calls s c,
      setStatus_coherent (setRes_coherent (takeLinkLocal_coherent hs c) _ _) _,
      takeLinkLocal_templateKept s c⟩
  · have zero : (setZeroconfNext s).res[0] = 0 :=
      value.trans (if_neg (by rw [hn]; exact Bool.false_ne_true))
    rw [effect]
    rw [setZeroconfNext_of_none hn] at zero ⊢
    exact ⟨rfl, rfl, zero, afterNegotiate_calls s, afterNegotiate_templateKept s⟩

/-- Settles O28: the staged values as one configuration; a `REINIT` exactly if the mask was not 0. -/
theorem applyStagedValues : Obligations.ApplyStagedValues := by
  intro s hs hr h3 h4 m c
  have staged : valueStaged s = true ↔ m ≠ 0 :=
    valueStaged_iff.trans (not_congr (extract_values_eq_zero_iff m h3 h4))
  obtain ⟨labels, held, hostSide, memory⟩ := effect_same s (i := .apply)
  have ends := exec_configCommand hr (i := .apply)
  simp only [effect, applyNext_values h3 h4] at labels held hostSide memory ends
  obtain ⟨value, others⟩ := result_of_set (s := s) (v := 0)
    (t := ((reinitIf (valueStaged s) (applyStaged s)).setRes 0 0).setStatus .ok) (by simp)
  refine ⟨_, ends, by simp [c, stagedConfig, m], by simp, value, rfl, fun hm => ?_, fun hm => ?_,
    by simp, by simp, by simp, labels, held, hostSide, memory, others⟩
  · rw [staged.mpr hm]
    exact ⟨reinit_calls (applyStaged s),
      setStatus_coherent (setRes_coherent (reinit_coherent (applyStaged_inv hs)) _ _) _,
      reinit_templateKept (u := applyStaged s) rfl⟩
  · rw [Bool.eq_false_iff.mpr fun hv => staged.mp hv hm]
    exact ⟨rfl, rfl, rfl⟩

/-- Settles O29: the staged values, then what `NEGOTIATE` and `REINIT` make of that state. -/
theorem applyQueuedDhcp : Obligations.ApplyQueuedDhcp := by
  intro s hs hr h3 m c a z final
  obtain ⟨answerDhcp, -, answerZc⟩ := applyStaged_answers s
  have pend : (reinit (negotiate (applyStaged s))).pend = { s.pend with mask := 0 } := by simp
  have ok : negotiateOk (applyStaged s) = a.1.isSome := by rw [negotiateOk, answerDhcp]
  have renegotiated := reinit_negotiate (applyStaged_inv hs) answerDhcp answerZc
  have same := effect_same s (i := .apply)
  have ends := exec_configCommand hr (i := .apply)
  have bound := (exec_touched ends (by decide)).boundSlotsKept
  simp only [effect, applyNext_dhcp h3, ok] at same ends bound
  generalize reinit (negotiate (applyStaged s)) = u at *
  obtain ⟨nc, calls, coherent, ipId, template, res⟩ := renegotiated
  rw [nc] at same ends bound
  obtain ⟨value, others⟩ := result_of_set (s := s) (v := applyResult (negotiatedZc a.1 z.1) a.1.isSome)
    (t := (u.setRes 0 (applyResult (negotiatedZc a.1 z.1) a.1.isSome)).setStatus .ok) (by simp [res])
  exact ⟨_, ends, nc, pend, rfl, others, value, calls,
    setStatus_coherent (setRes_coherent coherent _ _) _, ipId, bound, template, same⟩

/-- Settles O30: the staged values, then the answer of `ZC.negotiate`; on failure a `REINIT` only if a
value was staged. -/
theorem applyQueuedZeroconf : Obligations.ApplyQueuedZeroconf := by
  intro s hs hr h3 h4 m c z
  have inv := applyStaged_inv hs
  obtain ⟨-, answer, -⟩ := applyStaged_answers s
  obtain ⟨pend, res, ipId⟩ := applyZeroconf_fields (valueStaged s) (applyStaged s)
  have template := applyZeroconf_templateKept (valueStaged s) (applyStaged s)
  have success := fun d => applyZeroconf_success (b := valueStaged s) (d := d) inv
  have failure := applyZeroconf_failure (b := valueStaged s) inv
  have same := effect_same s (i := .apply)
  have ends := exec_configCommand hr (i := .apply)
  have bound := (exec_touched ends (by decide)).boundSlotsKept
  simp only [effect, applyNext_zeroconf h3 h4] at same ends bound
  rw [answer] at ipId success failure
  generalize applyZeroconf (valueStaged s) (applyStaged s) = u at *
  obtain ⟨value, others⟩ := result_of_set (s := s) (v := applyResult u.nc.zcActive false)
    (t := (u.setRes 0 (applyResult u.nc.zcActive false)).setStatus .ok) (by simp [res])
  refine ⟨_, ends, pend, rfl, others, value, fun d hd => ?_, fun hn => ?_, template, ipId, bound, same⟩
  · obtain ⟨nc, coherent, calls⟩ := success d hd
    exact ⟨nc, setStatus_coherent (setRes_coherent coherent _ _) _, calls⟩
  · obtain ⟨nc, reinitialised, untouched⟩ := failure hn
    refine ⟨nc, fun hv => ?_, fun hv => ?_⟩
    · obtain ⟨coherent, calls⟩ := reinitialised (valueStaged_iff.mpr hv)
      exact ⟨setStatus_coherent (setRes_coherent coherent _ _) _, calls⟩
    · exact untouched (Bool.eq_false_iff.mpr fun staged => valueStaged_iff.mp staged hv)

/-- Settles O32: the flags by command; the operations that are no writers of them keep the mode. -/
theorem modeTransitions : Obligations.ModeTransitions := by
  intro i s t h
  cases i with
  | init =>
    rw [exec_effect h]
    exact (mode_congr (s := initNegotiated s) (by simp [effect, initResults])
      (by simp [effect, initResults])).trans (initNegotiated_mode s)
  | setDhcp =>
    rw [exec_effect h]
    exact (mode_congr (s := negotiate s) (by simp [effect]) (by simp [effect])).trans
      (negotiate_mode s)
  | setZeroconf => rw [exec_effect h]; exact setZeroconfNext_mode s
  | apply => rw [exec_effect h]; exact applyNext_mode s
  | setIp | setGateway => rw [exec_effect h]; exact mode_congr (by simp [effect]) (by simp [effect])
  | shutdown | dispatch | queueIp | queueNetmask | queueGateway | queueDhcp | queueZeroconf
  | setIpConfig | bind | unbind | recv | recvZc | send | udpDeliver =>
    exact mode_congr (by rw [exec_nc h (by decide)]) (by rw [exec_nc h (by decide)])

/-- Settles O19: inputs copied, then two `REINIT`s on the same configuration. -/
theorem initStatic : Obligations.InitStatic := by
  intro s hs hr h5
  have nc := initInputs_nc s
  rw [h5] at nc
  have coherent := reinit_coherent (reinit_inv (initInputs_inv hs))
  have template : TemplateKeptBut ConfigOffset s (reinit (reinit (initInputs s))) :=
    (reinit_templateKept (u := initInputs s) rfl).trans (reinit_templateKept rfl)
  have fields : (reinit (reinit (initInputs s))).nc = (initInputs s).nc ∧
      (reinit (reinit (initInputs s))).calls = s.calls ++
        (reinitCalls (initInputs s).nc.mac (initInputs s).nc.cfg ++
          reinitCalls (initInputs s).nc.mac (initInputs s).nc.cfg) ∧
      (reinit (reinit (initInputs s))).slots = s.slots ∧
      (reinit (reinit (initInputs s))).ipId = s.ipId ∧
      (reinit (reinit (initInputs s))).env = s.env := by simp [reinitCalls]
  have same := effect_same s (i := .init)
  have ends := exec_configCommand hr (i := .init)
  have pend := exec_pend ends (by decide)
  simp only [effect, initNegotiated_static h5] at same ends pend
  generalize reinit (reinit (initInputs s)) = u at *
  obtain ⟨ncEq, calls, slots, ipId, env⟩ := fields
  rw [nc] at ncEq calls
  obtain ⟨res0, res1, res2, res3⟩ := initResults_res u
  rw [ncEq] at res0 res1 res2 res3
  refine ⟨_, ends, ncEq, res0, res1, res2, res3, rfl, ?_,
    setStatus_coherent (initResults_coherent coherent) _, template, pend, slots, ipId, env, same⟩
  simp [calls, ncEq]

/-- Settles O20: inputs copied and the layers initialised, then what `NEGOTIATE` and `REINIT` make of that
state. -/
theorem initNegotiated : Obligations.InitNegotiated := by
  intro s hs hr h5 requested hostname a z final
  obtain ⟨answerDhcp, answerZc⟩ := reinit_initInputs_answers s
  have copied : (reinit (initInputs s)).nc = (initInputs s).nc ∧
      (reinit (initInputs s)).calls = s.calls ++ reinitCalls s.xMac requested ∧
      (reinit (initInputs s)).ipId = s.ipId ∧
      TemplateKeptBut ConfigOffset s (reinit (initInputs s)) :=
    ⟨by simp, by rw [reinit_calls]; rfl, by simp, reinit_templateKept rfl⟩
  have renegotiated := reinit_negotiate (reinit_inv (initInputs_inv hs)) answerDhcp answerZc
  have same := effect_same s (i := .init)
  have ends := exec_configCommand hr (i := .init)
  have pend := exec_pend ends (by decide)
  have bound := (exec_touched ends (by decide)).boundSlotsKept
  simp only [effect, initNegotiated_dhcp h5] at same ends pend bound
  generalize reinit (initInputs s) = r at *
  generalize reinit (negotiate r) = u at *
  obtain ⟨ncFirst, callsFirst, ipIdFirst, templateFirst⟩ := copied
  obtain ⟨nc, calls, coherent, ipId, template, -⟩ := renegotiated
  rw [ncFirst, initInputs_nc] at nc calls
  rw [callsFirst, List.append_assoc] at calls
  rw [ipIdFirst] at ipId
  obtain ⟨res0, res1, res2, res3⟩ := initResults_res u
  rw [nc] at res0 res1 res2 res3
  exact ⟨_, ends, nc, res0, res1, res2, res3, rfl, calls,
    setStatus_coherent (initResults_coherent coherent) _, ipId, bound,
    (templateFirst.mono fun _ => .inl).trans template, pend, same⟩

/-! ### `DISPATCH` -/

/-- Settles O13: the step ends the `DISPATCH` (`step_dispatchEnd`). -/
theorem suspendedDispatchEnds : Obligations.SuspendedDispatchEnds := by
  intro s h hh called hr
  obtain ⟨status, held, labels, calls⟩ := dispatchEnd_fields s
  obtain ⟨ipId, template, config, hostSide, memory, results⟩ :=
    dispatchEnd_spec (.refl s) (rfl : timerTouch s = _)
  exact ⟨_, step_dispatchEnd hh called hr, held, by rw [State.busy, held]; rfl, status, calls, labels,
    hostSide, config, memory, results, (dispatchEnd_touched s).boundSlotsKept, ipId, template⟩

/-- Settles O56: with no frame only the timers run. -/
theorem dispatchWithoutFrame : Obligations.DispatchWithoutFrame := by
  intro s hr hn
  have ends := exec_dispatch hr fun f hf => by rw [hn] at hf; cases hf
  rw [dispatchNext_of_none hn] at ends
  have hu : timerTouch ((afterRecv s).mark .noFrame) = timerTouch (s.drew 1) :=
    timerTouch_congr rfl rfl
  have before := afterRecv_sameBesideQueues s .noFrame
  have fields : ((afterRecv s).mark .noFrame).calls = s.calls ++ [.fioRecv] ∧
      ((afterRecv s).mark .noFrame).labels = s.labels ++ [.noFrame] ∧
      ((afterRecv s).mark .noFrame).held = s.held ∧
      ((afterRecv s).mark .noFrame).slots = s.slots := by simp
  generalize (afterRecv s).mark .noFrame = v at *
  obtain ⟨received, labels, held, slots⟩ := fields
  have calls := runTimers_calls v
  rw [received, hu, List.append_assoc] at calls
  obtain ⟨ipId, template, config, hostSide, memory, results⟩ := runTimers_spec before hu
  exact ⟨_, ends, rfl, labels, calls, held, runTimers_boundSlotsKept before.hostSide.cfg slots, ipId,
    template, config, hostSide, memory, results⟩

/-- Settles O57: a frame that is not delivered leaves one call and one label by its class
(`handOver_undelivered`), then it is released and the timers run. -/
theorem dispatchWithoutDelivery : Obligations.DispatchWithoutDelivery := by
  intro s f hr hf ipv4 arp u ignored
  have undelivered : etherClass f = .ipv4 → iplDelivers (holdFrame s f) f = false :=
    fun h => ignored ((etherClass_ipv4_iff f).mp h)
  have ends := exec_dispatch hr fun g hg hc => by
    rw [hf] at hg
    cases hg
    exact .inr (undelivered hc)
  rw [dispatchNext_of_some hf] at ends
  obtain ⟨handed, label, slots, fresh, tmr⟩ := handOver_undelivered undelivered
  have hu : timerTouch (handOver (holdFrame s f) f) = u := by
    refine timerTouch_congr tmr (fresh.trans ?_)
    simp only [etherClass_ipv4_iff]
    split <;> rfl
  have before := handOver_sameBesideQueues s f
  generalize handOver (holdFrame s f) f = v at *
  obtain ⟨status, held, labels, calls⟩ := dispatchEnd_fields v
  obtain ⟨ipId, template, config, hostSide, memory, results⟩ := dispatchEnd_spec before hu
  have bound : BoundSlotsKept s (dispatchEnd v) :=
    (boundSlotsKept_of_eq before.hostSide.cfg slots).trans (dispatchEnd_touched v).boundSlotsKept
  rw [handed, hu] at calls
  rw [label] at labels
  refine ⟨_, handedCall f, ends, status, calls.trans (by simp [holdFrame]), fun h => ?_, fun h => ?_,
    fun h14 h4 ha => ?_, fun h => ?_, held, bound, ipId, template, config, hostSide, memory, results⟩
  · have class4 : etherClass f = .ipv4 := (etherClass_ipv4_iff f).mpr h
    rw [labels, handedCall, handedLabel, class4]
    exact ⟨rfl, rfl⟩
  · have classArp : etherClass f = .arp := (etherClass_arp_iff f).mpr h
    rw [labels, handedCall, handedLabel, classArp]
    exact ⟨rfl, rfl⟩
  · have other : etherClass f = .other := (etherClass_other_iff f).mpr ⟨h4, ha⟩
    rw [labels, handedCall, handedLabel, other, loggedEthertype, if_pos h14]
    exact ⟨congrArg _ (setWidth_eq_zero_append 16 _), rfl⟩
  · have other : etherClass f = .other := (etherClass_other_iff f).mpr ⟨by omega, by omega⟩
    rw [labels, handedCall, handedLabel, other, loggedEthertype, if_neg (by omega)]
    exact ⟨rfl, rfl⟩

/-- Settles O58: the delivery nested in the `DISPATCH` and the one on its own queue the same frame into the
same table (`deliver_congr`). -/
theorem dispatchDelivers : Obligations.DispatchDelivers := by
  intro s f hr hf h14 h4 delivers pre u
  have class4 : etherClass f = .ipv4 := (etherClass_ipv4_iff f).mpr ⟨h14, h4⟩
  have ends := exec_dispatch hr fun g hg _ => by
    rw [hf] at hg
    cases hg
    exact .inl pre
  rw [dispatchNext_of_some hf] at ends
  obtain ⟨handed, label, slots, fresh, tmr⟩ := handOver_delivered (s := holdFrame s f) class4 delivers
  obtain ⟨slotsHeld, labelHeld⟩ := deliver_congr (s := s) (t := holdFrame s f) rfl rfl f
  have hu : timerTouch (handOver (holdFrame s f) f) = u := timerTouch_congr tmr fresh
  have before := handOver_sameBesideQueues s f
  rw [slotsHeld] at slots
  rw [labelHeld] at label
  generalize handOver (holdFrame s f) f = v at *
  obtain ⟨status, held, labels, calls⟩ := dispatchEnd_fields v
  obtain ⟨ipId, template, config, hostSide, memory, results⟩ := dispatchEnd_spec before hu
  rw [handed, hu] at calls
  have alone : exec .udpDeliver (s.setHeld (some ⟨f, false, false⟩)) = _ :=
    exec_udpDeliver_of_preDeliver rfl rfl pre
  obtain ⟨slotsAlone, labelAlone⟩ :=
    deliver_congr (s := s) (t := s.setHeld (some ⟨f, false, false⟩)) rfl rfl f
  refine ⟨_, _, deliverLabel s f, alone, ?_, ends, status, labels.trans label,
    calls.trans (by simp [holdFrame]), ?_, held, ipId, template, config, hostSide, memory, results⟩
  · simp [udpDeliver, labelAlone]
  · refine (boundSlotsKept_of_eq ?_ ?_).trans (dispatchEnd_touched v).boundSlotsKept
    · simp [udpDeliver, before.hostSide.cfg]
    · simp [udpDeliver, slots, slotsAlone]

end Sys2Proof.Proofs
end

section
/-! `BIND` and `UNBIND`: what they leave alone, one equation per case, and what the scan finds in the
table after them; the template after `SET_IP_CONFIG` (spec/41_udp_config_bind.md R181, R184, R187,
R190). -/

namespace Sys2Proof.Machine

/-! ### The template after `SET_IP_CONFIG` (R181) -/

/-- `SET_IP_CONFIG` writes the source address of the template alone. -/
theorem loadTransport_templateKept (s : State) (c : IpConfig) :
    TemplateKeptBut (fun o => 26 ≤ o ∧ o < 30) s (loadTransport s c) := by
  simp only [TemplateKeptBut, loadTransport_fields, putBE32_length, true_and]
  intro o ho
  rw [putBE32, byteAt_putBytes_outside (by rw [bytes32_length]; omega)]

theorem loadTransport_srcIp {s : State} (h : s.Inv) (c : IpConfig) :
    be32 (loadTransport s c).txt 26 = c.ip := by
  have := h.template_le
  simp only [loadTransport_fields]
  exact be32_putBE32_same _ (by omega)

/-! ### What `BIND` and `UNBIND` leave alone (R190) -/

/-- Everything but the port table, the results and the status is as before. -/
def SameBesideTable (s t : State) : Prop :=
  t.ipId = s.ipId ∧ t.txt = s.txt ∧
    SameConfig s t ∧ SameOutside s t ∧ SameHostSide s t ∧ SameMemory s t

theorem bindNext_sameBesideTable (s : State) (p : Half) : SameBesideTable s (bindNext s p) := by
  obtain ⟨cfg, cmd, arg, nc, pend, ut, ipId, txt, held, mem, host, bus, env, calls, labels, -⟩ :=
    bindNext_fields s p
  exact ⟨ipId, txt, ⟨nc, pend, ut⟩, ⟨env, calls, labels, held⟩, ⟨cfg, cmd, arg, host, bus⟩,
    .of_eq mem⟩

theorem unbindNext_sameBesideTable (s : State) (p : Half) : SameBesideTable s (unbindNext s p) := by
  obtain ⟨cfg, cmd, arg, -, nc, pend, ut, ipId, txt, held, mem, host, bus, env, calls, labels, -⟩ :=
    unbindNext_fields s p
  exact ⟨ipId, txt, ⟨nc, pend, ut⟩, ⟨env, calls, labels, held⟩, ⟨cfg, cmd, arg, host, bus⟩,
    .of_eq mem⟩

theorem unbindNext_res (s : State) (p : Half) : (unbindNext s p).res = s.res := by
  obtain ⟨-, -, -, res, -⟩ := unbindNext_fields s p
  exact res

/-- An operand reads as before where the host's side is as before. -/
theorem SameHostSide.xPort {s t : State} (h : SameHostSide s t) (k : Fin 8) :
    t.xPort k = s.xPort k := by rw [State.xPort, State.x, h.arg, State.xPort, State.x]

theorem bindNext_xPort (s : State) (p : Half) (k : Fin 8) : (bindNext s p).xPort k = s.xPort k := by
  obtain ⟨-, -, -, -, hostSide, -⟩ := bindNext_sameBesideTable s p
  exact hostSide.xPort k

theorem unbindNext_xPort (s : State) (p : Half) (k : Fin 8) :
    (unbindNext s p).xPort k = s.xPort k := by
  obtain ⟨-, -, -, -, hostSide, -⟩ := unbindNext_sameBesideTable s p
  exact hostSide.xPort k

/-! ### `BIND` case by case (R184) -/

section
variable {s : State} {p : Half} {i : Nat}

theorem exec_bind (h : s.xPort 0 = p) : exec .bind s = .next (bindNext s p) := by
  rw [exec, execBind, h]

/-- The slot just written reads as written. -/
theorem slot_setSlot_same (h : i < s.slots.length) (sl : Slot) : (s.setSlot i sl).slot i = sl := by
  rw [slot_setSlot, if_pos ⟨rfl, h⟩]

theorem bindNext_zero (s : State) : bindNext s 0 = (s.setRes 0 noHandle).raise .errBadPort :=
  if_pos rfl

theorem bindNext_of_bound (hp : p ≠ 0) (hi : findPort s.slots p = some i) :
    bindNext s p = (s.setRes 0 (handleOf i)).setStatus .ok := by
  rw [bindNext, if_neg hp, hi]

theorem bindNext_of_free (hp : p ≠ 0) (hn : findPort s.slots p = none)
    (hi : findPort s.slots 0 = some i) :
    bindNext s p =
      ((s.setSlot i { s.slot i with port := p }).setRes 0 (handleOf i)).setStatus .ok := by
  rw [bindNext, if_neg hp, hn, hi]

theorem bindNext_of_full (hp : p ≠ 0) (hn : findPort s.slots p = none)
    (hf : findPort s.slots 0 = none) :
    bindNext s p = (s.setRes 0 noHandle).raise .errTableFull := by
  rw [bindNext, if_neg hp, hn, hf]

/-- `BIND` writes `RES[0]` alone of the results, whichever way it ends. -/
theorem bindNext_res (s : State) (p : Half) : ∃ v, (bindNext s p).res = s.res.set 0 v := by
  unfold bindNext
  split
  · exact ⟨_, rfl⟩
  · split
    · exact ⟨_, rfl⟩
    · split <;> exact ⟨_, rfl⟩

/-- After the lowest free slot was given the port, the scan finds it there. -/
theorem findPort_setSlot_free (hn : findPort s.slots p = none) (hi : findPort s.slots 0 = some i) :
    findPort (s.setSlot i { s.slot i with port := p }).slots p = some i := by
  have hlt := findPort_lt hi
  refine findPort_eq_some (by simpa using hlt) ?_ fun j hj => ?_
  · rw [slot_setSlot_same hlt]
  · rw [slot_setSlot, if_neg (by omega)]
    exact findPort_none hn _ (slot_mem (by omega))

/-- A `BIND` that ends `ST_OK` answers the slot the scan finds from then on. -/
theorem bindNext_ok (h : (bindNext s p).status = .ok) :
    p ≠ 0 ∧ ∃ i, findPort (bindNext s p).slots p = some i ∧ (bindNext s p).res[0] = handleOf i := by
  by_cases hp : p = 0
  · rw [hp, bindNext_zero] at h
    cases h
  · refine ⟨hp, ?_⟩
    rcases hb : findPort s.slots p with _ | i
    · rcases hf : findPort s.slots 0 with _ | i
      · rw [bindNext_of_full hp hb hf] at h
        cases h
      · rw [bindNext_of_free hp hb hf]
        exact ⟨i, findPort_setSlot_free hb hf, by simp⟩
    · rw [bindNext_of_bound hp hb]
      exact ⟨i, hb, by simp⟩

/-- A free slot's queue is empty (R41), so it still is when the slot is bound: `BIND` moves no pointer
(R185). -/
theorem bindNext_free_slot (hs : s.Inv) (hp : p ≠ 0) (hn : findPort s.slots p = none)
    (hi : findPort s.slots 0 = some i) :
    ((bindNext s p).slot i).port = p ∧ Slot.count s.cfg ((bindNext s p).slot i) = 0 := by
  obtain ⟨hlt, hfree⟩ := findPort_slot hi
  obtain ⟨head, tail⟩ := (slotsOk_get hs hlt).freeEmpty hfree
  have bound : (bindNext s p).slot i = { s.slot i with port := p } := by
    rw [bindNext_of_free hp hn hi]
    exact slot_setSlot_same hlt _
  rw [bound]
  exact ⟨rfl, by simp [Slot.count, head, tail]⟩

/-! ### `UNBIND` case by case (R187) -/

theorem exec_unbind (h : s.xPort 0 = p) : exec .unbind s = .next (unbindNext s p) := by
  rw [exec, execUnbind, h]

theorem unbindNext_zero (s : State) : unbindNext s 0 = s.raise .errBadPort := if_pos rfl

theorem unbindNext_of_unbound (hp : p ≠ 0) (hn : findPort s.slots p = none) :
    unbindNext s p = s.raise .errNotBound := by
  rw [unbindNext, if_neg hp, hn]

theorem unbindNext_of_bound (hp : p ≠ 0) (hi : findPort s.slots p = some i) :
    unbindNext s p =
      (s.setSlot i { s.slot i with port := 0, head := 0, tail := 0 }).setStatus .ok := by
  rw [unbindNext, if_neg hp, hi]

/-- Ports are unique (R37): once the slot with the port is freed the scan finds the port no more, and it
finds a free slot. -/
theorem findPort_setSlot_freed (hs : s.Inv) (hp : p ≠ 0) (hi : findPort s.slots p = some i) {sl : Slot}
    (free : sl.port = 0) :
    findPort (s.setSlot i sl).slots p = none ∧ ∃ k, findPort (s.setSlot i sl).slots 0 = some k := by
  obtain ⟨hlt, hport⟩ := findPort_slot hi
  have freed : ((s.setSlot i sl).slot i).port = 0 := by rw [slot_setSlot_same hlt, free]
  have size : (s.setSlot i sl).slots.length = s.slots.length := List.length_set
  constructor
  · refine findPort_eq_none fun j hj hpj => ?_
    rcases eq_or_ne i j with rfl | hij
    · exact hp (hpj.symm.trans freed)
    · rw [slot_setSlot, if_neg fun hc => hij hc.1] at hpj
      exact hij (port_unique hs hlt (size ▸ hj) (hport ▸ hp) (hpj.trans hport.symm)).symm
  · rcases hf : findPort (s.setSlot i sl).slots 0 with _ | k
    · exact absurd freed (findPort_none hf _ (slot_mem (size ▸ hlt)))
    · exact ⟨k, rfl⟩

/-- After an `UNBIND` that ends `ST_OK` no slot holds the port, and some slot is free. -/
theorem unbindNext_ok (hs : s.Inv) (h : (unbindNext s p).status = .ok) :
    p ≠ 0 ∧ findPort (unbindNext s p).slots p = none ∧
      ∃ k, findPort (unbindNext s p).slots 0 = some k := by
  by_cases hp : p = 0
  · rw [hp, unbindNext_zero] at h
    cases h
  · rcases hb : findPort s.slots p with _ | i
    · rw [unbindNext_of_unbound hp hb] at h
      cases h
    · rw [unbindNext_of_bound hp hb]
      exact ⟨hp, findPort_setSlot_freed hs hp hb rfl⟩

end

end Sys2Proof.Machine
end

section
/-! The statements of the family 41_udp_config_bind.md, from the lemmas above. -/

namespace Sys2Proof.Proofs

open Sys2Proof.Machine

/-- Settles O36: the copies and the source address that `loadTransport` writes, and its frame. -/
theorem setIpConfigLoadsTransport : Obligations.SetIpConfigLoadsTransport := fun s hs =>
  ⟨_, rfl, rfl, loadTransport_srcIp hs _, rfl, loadTransport_templateKept s _, rfl, rfl, rfl, rfl,
    ⟨rfl, rfl, rfl, rfl⟩, ⟨rfl, rfl, rfl, rfl, rfl⟩, .of_eq rfl, .of_eq rfl _⟩

/-- Settles O37: each case is one outcome of the two scans of the table (R183), for the port and for a
free slot. -/
theorem bindFirstFit : Obligations.BindFirstFit := by
  intro s p hs hp
  have ends : exec .bind s = .next (bindNext s p) := exec_bind hp.symm
  obtain ⟨v, hv⟩ := bindNext_res s p
  simp only [← hs.tableSize]
  refine ⟨_, ends, ?_, fun i h0 hi hport least => ?_, fun i h0 unbound hi hfree least => ?_,
    fun h0 full => ?_, (result_of_set hv).2, bindNext_sameBesideTable s p⟩
  · rintro rfl
    rw [bindNext_zero]
    exact ⟨rfl, by simp [noHandle], rfl⟩
  · rw [bindNext_of_bound h0 (findPort_eq_some hi hport least)]
    exact ⟨rfl, by simp [handleOf], rfl⟩
  · rw [bindNext_of_free h0 (findPort_eq_none unbound) (findPort_eq_some hi hfree least)]
    exact ⟨rfl, by simp [handleOf], rfl⟩
  · rw [bindNext_of_full h0 (findPort_eq_none fun j hj => (full j hj).1)
      (findPort_eq_none fun j hj => (full j hj).2)]
    exact ⟨rfl, by simp [noHandle], rfl⟩

/-- Settles O38: each case is one outcome of the scan; ports are unique (R37), so it finds the slot the
statement names (`findPort_bound`). -/
theorem unbindFreesSlot : Obligations.UnbindFreesSlot := by
  intro s p hs hp
  have ends : exec .unbind s = .next (unbindNext s p) := exec_unbind hp.symm
  simp only [← hs.tableSize]
  refine ⟨_, ends, ?_, fun h0 unbound => ?_, ?_, .of_eq (unbindNext_res s p) _,
    unbindNext_sameBesideTable s p⟩
  · rintro rfl
    rw [unbindNext_zero]
    exact ⟨rfl, rfl⟩
  · rw [unbindNext_of_unbound h0 (findPort_eq_none unbound)]
    exact ⟨rfl, rfl⟩
  · rintro i h0 hi rfl
    rw [unbindNext_of_bound h0 (findPort_bound hs hi h0)]
    exact ⟨rfl, rfl⟩

/-- Settles O39: the second `BIND` finds the slot the first one answered (`bindNext_ok`). -/
theorem bindIsIdempotent : Obligations.BindIsIdempotent := by
  intro s t _ first ok
  obtain rfl : t = bindNext s (s.xPort 0) := exec_effect first
  obtain ⟨hp, i, found, handle⟩ := bindNext_ok ok
  have second := exec_bind (bindNext_xPort s (s.xPort 0) 0)
  rw [bindNext_of_bound hp found] at second
  exact ⟨_, second, rfl, by simp [handle], rfl⟩

/-- Settles O40: `UNBIND` leaves the port unbound and a slot free (`unbindNext_ok`), so `BIND` takes a free
slot, whose queue is empty (`bindNext_free_slot`). -/
theorem unbindThenBindGivesEmptyQueue : Obligations.UnbindThenBindGivesEmptyQueue := by
  intro s t hs freed ok
  have ht : t.Inv := exec_inv hs freed
  obtain rfl : t = unbindNext s (s.xPort 0) := exec_effect freed
  obtain ⟨hp, unbound, k, free⟩ := unbindNext_ok hs ok
  have ends := exec_bind (unbindNext_xPort s (s.xPort 0) 0)
  obtain ⟨port, empty⟩ := bindNext_free_slot ht hp unbound free
  rw [bindNext_of_free hp unbound free] at ends port empty
  exact ⟨_, k, ends, rfl, ht.tableSize ▸ findPort_lt free, by simp [handleOf], port, empty⟩

end Sys2Proof.Proofs
end

section
/-! `UDP_DELIVER`: the fate of a frame by its destination port, and what queueing it does to the slot
field by field (spec/42_udp_receive.md R202, R205, R207 to R209). -/

namespace Sys2Proof.Machine

/-! ### One entry queued -/

section
variable (c : Config) (sl : Slot) (payload : List Byte) (ip : Word) (p l : Half)

theorem Slot.enqueue_head : (sl.enqueue c payload ip p l).head = advance c sl.head := by
  rw [Slot.enqueue, Slot.makeRoom]
  split <;> rfl

/-- Only a full queue loses its oldest entry (R209). -/
theorem Slot.enqueue_tail : (sl.enqueue c payload ip p l).tail =
    if sl.count c = c.qCap then advance c sl.tail else sl.tail := by
  change (sl.makeRoom c).tail = _
  simp only [Slot.makeRoom, Slot.full, beq_iff_eq]
  split <;> rfl

/-- Making room moves a pointer alone: the ring changes where the entry is stored. -/
theorem Slot.enqueue_ring : (sl.enqueue c payload ip p l).ring =
    sl.ring.set (slotOf c sl.head) ((sl.entry c (slotOf c sl.head)).store payload ip p l) := by
  rw [Slot.enqueue, Slot.makeRoom]
  split <;> rfl

variable {c sl}

theorem Slot.enqueue_entry_head (h : slotOf c sl.head < sl.ring.length) :
    (sl.enqueue c payload ip p l).entry c (slotOf c sl.head) =
      (sl.entry c (slotOf c sl.head)).store payload ip p l := by
  rw [Slot.entry, Slot.enqueue_ring, List.getD_eq_getElem?_getD, List.getElem?_set_self h,
    Option.getD_some]

theorem Slot.enqueue_entry_other {pos : Nat} (h : pos ≠ slotOf c sl.head) :
    (sl.enqueue c payload ip p l).entry c pos = sl.entry c pos := by
  rw [Slot.entry, Slot.enqueue_ring, List.getD_eq_getElem?_getD, List.getElem?_set_ne h.symm,
    ← List.getD_eq_getElem?_getD, Slot.entry]

end

/-- The bytes of an entry after a frame was stored: its payload, then what stood there before (R207). -/
theorem byteAt_store {c : Config} {f : Frame} (pre : preDeliver f = true) {e : Entry}
    (size : e.data.length = c.qPayloadMax) (ip : Word) (p l : Half) (j : Nat) :
    byteAt (e.store (payloadOf c f) ip p l).data j =
      if j < min (ulenOf f).toNat c.qPayloadMax then byteAt f (42 + j) else byteAt e.data j := by
  have len := payloadOf_length (c := c) pre
  change byteAt (putBytes e.data 0 (payloadOf c f)) j = _
  split
  · next hj =>
    have inside := byteAt_putBytes_inside (b := e.data) (o := 0) (vs := payloadOf c f) (j := j)
      (by omega) (by omega)
    rw [Nat.zero_add] at inside
    rw [inside, payloadOf_getD hj]
  · exact byteAt_putBytes_outside (by omega)

/-! ### The fate of a frame (R204, R205, R207) -/

theorem disallowedLowPort_eq_false_iff (c : Config) (p : Half) :
    disallowedLowPort c p = false ↔ 1024 ≤ p.toNat ∨ p ∈ c.sysPorts := by
  rw [← Bool.not_eq_true, disallowedLowPort_iff, not_and_or, Nat.not_lt, not_not]

section
variable {s : State} {f : Frame} {i : Nat}

theorem udpDeliver_of_low (low : disallowedLowPort s.cfg (dportOf f) = true) :
    udpDeliver s f = s.mark .dropLowPort := by
  simp only [udpDeliver, deliverFrame, deliverLabel, low, if_true]

theorem udpDeliver_of_unbound (eligible : disallowedLowPort s.cfg (dportOf f) = false)
    (unbound : findPort s.slots (dportOf f) = none) : udpDeliver s f = s.mark .dropNoPort := by
  simp only [udpDeliver, deliverFrame, deliverLabel, eligible, unbound, Bool.false_eq_true,
    if_false]

theorem udpDeliver_of_bound (eligible : disallowedLowPort s.cfg (dportOf f) = false)
    (found : findPort s.slots (dportOf f) = some i) :
    udpDeliver s f = (s.setSlot i ((s.slot i).queue s.cfg f)).mark
      (.queued ((s.slot i).full s.cfg) (decide (s.cfg.qPayloadMax < (ulenOf f).toNat))) := by
  simp only [udpDeliver, deliverFrame, deliverLabel, eligible, found, Bool.false_eq_true, if_false]
  rfl

/-- Ports are unique and an eligible one is not 0, so the scan finds the slot that holds it (R37). -/
theorem udpDeliver_to_slot (hs : s.Inv) (hi : i < s.cfg.nPorts) (port : (s.slot i).port = dportOf f)
    (eligible : disallowedLowPort s.cfg (dportOf f) = false) :
    udpDeliver s f = (s.setSlot i ((s.slot i).queue s.cfg f)).mark
      (.queued ((s.slot i).full s.cfg) (decide (s.cfg.qPayloadMax < (ulenOf f).toNat))) :=
  udpDeliver_of_bound eligible (port ▸ findPort_bound hs (hs.tableSize ▸ hi)
    (port ▸ eligible_ne_zero hs.legal eligible))

end

/-! ### A `UDP_DELIVER` that answers -/

section
variable {s t : State} {h : Held} {i : Nat}

/-- A delivery touches the port table, the mark on the frame and the labels alone (R211). -/
theorem delivered_frame (held : s.held = some h) (ends : exec .udpDeliver s = .next t) :
    t.held = some { h with delivered := true } ∧ t.status = s.status ∧ t.env = s.env ∧
      t.calls = s.calls ∧ t.ipId = s.ipId ∧ t.txt = s.txt ∧ SameConfig s t ∧ SameHostSide s t ∧
      SameMemory s t ∧ SameResBut [] s t := by
  have hostSide := udpDeliver_sameHostSide ends
  obtain ⟨h', held', -, -, rfl⟩ := udpDeliver_cases ends
  obtain rfl : h = h' := Option.some.inj (held.symm.trans held')
  have config : SameConfig s (udpDeliver s h.frame) := by constructor <;> simp [udpDeliver]
  exact ⟨rfl, by simp [udpDeliver], by simp [udpDeliver], by simp [udpDeliver],
    by simp [udpDeliver], by simp [udpDeliver], ⟨config.nc, config.pend, config.ut⟩, hostSide,
    .of_eq (by simp [udpDeliver]), .of_eq (by simp [udpDeliver]) _⟩

/-- A delivery to the port of slot `i` queues the frame in that slot alone. -/
theorem delivered_slot (hs : s.Inv) (held : s.held = some h) (hi : i < s.cfg.nPorts)
    (port : (s.slot i).port = dportOf h.frame)
    (eligible : disallowedLowPort s.cfg (dportOf h.frame) = false)
    (ends : exec .udpDeliver s = .next t) :
    t.slot i = (s.slot i).queue s.cfg h.frame ∧ (∀ j, j ≠ i → t.slot j = s.slot j) ∧
      t.labels = s.labels ++ [.queued ((s.slot i).full s.cfg)
        (decide (s.cfg.qPayloadMax < (ulenOf h.frame).toNat))] := by
  obtain ⟨h', held', -, -, rfl⟩ := udpDeliver_cases ends
  obtain rfl : h = h' := Option.some.inj (held.symm.trans held')
  rw [udpDeliver_to_slot hs hi port eligible]
  refine ⟨slot_setSlot_same (hs.tableSize ▸ hi) _, fun j hj => ?_, rfl⟩
  exact (slot_setSlot s i j _).trans (if_neg fun h => hj h.1.symm)

/-- In words of datagrams: slot `i` has it appended, the others are as before (R202, R220). -/
theorem delivered_datagrams (hs : s.Inv) (held : s.held = some h) (hi : i < s.cfg.nPorts)
    (port : (s.slot i).port = dportOf h.frame)
    (eligible : disallowedLowPort s.cfg (dportOf h.frame) = false)
    (ends : exec .udpDeliver s = .next t) :
    (t.slot i).datagrams t.cfg =
      (if (s.slot i).count s.cfg = s.cfg.qCap then ((s.slot i).datagrams s.cfg).tail
        else (s.slot i).datagrams s.cfg) ++ [datagramOf s.cfg h.frame] ∧
      ∀ j, j ≠ i → t.slot j = s.slot j := by
  obtain ⟨queued, others, -⟩ := delivered_slot hs held hi port eligible ends
  obtain ⟨h', held', -, pre, -⟩ := udpDeliver_cases ends
  obtain rfl : h = h' := Option.some.inj (held.symm.trans held')
  rw [(udpDeliver_sameHostSide ends).cfg, queued]
  exact ⟨datagrams_enqueue hs.legal (slotsOk_get hs (hs.tableSize ▸ hi)) pre, others⟩

end

/-! ### A list of frames to one queue (R210) -/

section
variable {α : Type}

/-- Appending to a bounded list, losing its first element when it is full, keeps the last `n`. -/
theorem append_bounded_eq_rtake {l : List α} {n : Nat} (hn : 0 < n) (hl : l.length ≤ n) (x : α) :
    (if l.length = n then l.tail else l) ++ [x] = (l ++ [x]).rtake n := by
  rw [List.rtake, List.length_append, List.length_singleton]
  split
  · next full =>
    rw [show l.length + 1 - n = 1 by omega, List.drop_append_of_le_length (by omega), List.drop_one]
  · rw [show l.length + 1 - n = 0 by omega, List.drop_zero]

theorem rtake_rtake_append (n : Nat) (l r : List α) :
    (l.rtake n ++ r).rtake n = (l ++ r).rtake n := by
  simp [List.rtake_eq_reverse_take_reverse, List.take_append, List.take_take]

end

theorem datagrams_length (c : Config) (sl : Slot) : (sl.datagrams c).length = sl.count c := by
  simp [Slot.datagrams, Slot.unread]

/-- A delivery that may be made from a state answers one, with the frame's datagram behind those in the
queue, of which the last `Q_CAP` stay. -/
theorem deliver_eligible {s : State} {f : Frame} {i : Nat} (hs : s.Inv) (hi : i < s.cfg.nPorts)
    (pre : preDeliver f = true) (port : (s.slot i).port = dportOf f)
    (eligible : disallowedLowPort s.cfg (dportOf f) = false) :
    ∃ t, exec .udpDeliver (s.setHeld (some ⟨f, false, false⟩)) = .next t ∧ t.Inv ∧
      t.cfg = s.cfg ∧ (t.slot i).port = (s.slot i).port ∧
      (t.slot i).datagrams t.cfg =
        ((s.slot i).datagrams s.cfg ++ [datagramOf s.cfg f]).rtake s.cfg.qCap ∧
      ∀ j, j ≠ i → t.slot j = s.slot j := by
  have hs' := setHeld_inv hs (some ⟨f, false, false⟩)
  have ends := exec_udpDeliver_of_preDeliver (s := s.setHeld (some ⟨f, false, false⟩)) rfl rfl pre
  obtain ⟨g, written⟩ := udpDeliver_slotWritten ends
  obtain ⟨datagrams, others⟩ := delivered_datagrams hs' rfl hi port eligible ends
  refine ⟨_, ends, exec_inv hs' ends, (udpDeliver_sameHostSide ends).cfg,
    written.apply_slot Slot.port (Slot.queue_port _ g) i, datagrams.trans ?_, others⟩
  have fits := (slotsOk_get hs (hs.tableSize ▸ hi)).countLe
  rw [← datagrams_length] at fits
  rw [← append_bounded_eq_rtake (legal_qCap_pos hs.legal) fits, datagrams_length]
  rfl

/-- The capacity law from any content of the queue (R210). -/
theorem deliverAll_datagrams {s : State} {i : Nat} {fs : List Frame} (hs : s.Inv)
    (hi : i < s.cfg.nPorts) (frames : ∀ f ∈ fs, preDeliver f = true ∧ dportOf f = (s.slot i).port)
    (eligible : disallowedLowPort s.cfg (s.slot i).port = false) :
    ∃ t, deliverAll s fs = some t ∧
      (t.slot i).datagrams t.cfg =
        ((s.slot i).datagrams s.cfg ++ fs.map (datagramOf s.cfg)).rtake s.cfg.qCap ∧
      ∀ j, j ≠ i → t.slot j = s.slot j := by
  induction fs generalizing s with
  | nil =>
    have fits := (slotsOk_get hs (hs.tableSize ▸ hi)).countLe
    rw [← datagrams_length] at fits
    refine ⟨s, rfl, ?_, fun _ _ => rfl⟩
    rw [List.map_nil, List.append_nil, List.rtake, Nat.sub_eq_zero_of_le fits, List.drop_zero]
  | cons f fs ih =>
    obtain ⟨⟨pre, port⟩, rest⟩ := List.forall_mem_cons.mp frames
    obtain ⟨t, ends, ht, cfg, portKept, datagrams, others⟩ :=
      deliver_eligible hs hi pre port.symm (port ▸ eligible)
    obtain ⟨u, all, last, kept⟩ := ih ht (cfg ▸ hi) (portKept ▸ rest)
      (by rw [cfg, portKept, eligible])
    refine ⟨u, by rw [deliverAll, ends]; exact all, ?_, fun j hj => (kept j hj).trans (others j hj)⟩
    rw [last, datagrams, cfg, rtake_rtake_append, List.map_cons, List.append_assoc,
      List.singleton_append]

end Sys2Proof.Machine
end

section
/-! `RECV` and `RECV_ZC`: one equation per case, and what both do when they take an entry
(spec/42_udp_receive.md R214 to R218, R220). -/

namespace Sys2Proof.Machine

section
variable {s t : State} {h : Nat}

/-! ### Case by case (R214, R215, R217) -/

theorem exec_recv (hh : h = (s.x 0).toNat) : exec .recv s = .next (recvNext s h) := by
  rw [exec, execRecv, hh]

theorem exec_recvZc (hh : h = (s.x 0).toNat) : exec .recvZc s = .next (recvZcNext s h) := by
  rw [exec, execRecvZc, hh]

theorem recvNext_of_badHandle (hh : s.cfg.nPorts ≤ h) : recvNext s h = s.raise .errBadHandle :=
  if_pos hh

theorem recvNext_of_empty (hh : h < s.cfg.nPorts) (empty : (s.slot h).isEmpty = true) :
    recvNext s h = (recvEmpty s).drew 2 := by
  rw [recvNext, if_neg (by omega), if_pos empty]

theorem recvNext_of_nonempty (hh : h < s.cfg.nPorts) (ne : (s.slot h).isEmpty = false) :
    recvNext s h = recvTake s h ((s.slot h).oldest s.cfg) := by
  rw [recvNext, if_neg (by omega), if_neg (by simp [ne])]

theorem recvZcNext_of_badHandle (hh : s.cfg.nPorts ≤ h) : recvZcNext s h = s.raise .errBadHandle :=
  if_pos hh

theorem recvZcNext_of_empty (hh : h < s.cfg.nPorts) (empty : (s.slot h).isEmpty = true) :
    recvZcNext s h = ((recvEmpty s).setRes 3 (Config.freeWord (s.fresh + 2))).drew 3 := by
  rw [recvZcNext, if_neg (by omega), if_pos empty]

theorem recvZcNext_of_nonempty (hh : h < s.cfg.nPorts) (ne : (s.slot h).isEmpty = false) :
    recvZcNext s h = recvZcTake s h ((s.slot h).oldest s.cfg) := by
  rw [recvZcNext, if_neg (by omega), if_neg (by simp [ne])]

/-- A `RECV` that ends `ST_OK` took an entry. -/
theorem recvNext_ok (ok : (recvNext s h).status = .ok) :
    h < s.cfg.nPorts ∧ (s.slot h).isEmpty = false := by
  rcases Nat.lt_or_ge h s.cfg.nPorts with hh | hh
  · rcases he : (s.slot h).isEmpty
    · exact ⟨hh, rfl⟩
    · rw [recvNext_of_empty hh he] at ok
      cases ok
  · rw [recvNext_of_badHandle hh] at ok
    cases ok

/-- A `RECV_ZC` that ends `ST_OK` took an entry. -/
theorem recvZcNext_ok (ok : (recvZcNext s h).status = .ok) :
    h < s.cfg.nPorts ∧ (s.slot h).isEmpty = false := by
  rcases Nat.lt_or_ge h s.cfg.nPorts with hh | hh
  · rcases he : (s.slot h).isEmpty
    · exact ⟨hh, rfl⟩
    · rw [recvZcNext_of_empty hh he] at ok
      cases ok
  · rw [recvZcNext_of_badHandle hh] at ok
    cases ok

theorem isEmpty_eq_true (hs : s.Inv) (hh : h < s.cfg.nPorts) (hc : (s.slot h).count s.cfg = 0) :
    (s.slot h).isEmpty = true :=
  (isEmpty_iff (slotsOk_get hs (hs.tableSize ▸ hh))).mpr hc

theorem isEmpty_eq_false (hs : s.Inv) (hh : h < s.cfg.nPorts) (hc : (s.slot h).count s.cfg ≠ 0) :
    (s.slot h).isEmpty = false :=
  Bool.eq_false_iff.mpr fun he => hc ((isEmpty_iff (slotsOk_get hs (hs.tableSize ▸ hh))).mp he)

/-! ### An entry taken, by either receive (R216, R218) -/

/-- From `s` to `t` the oldest entry of slot `h` was taken, whichever receive took it. -/
structure Taken (s t : State) (h : Nat) : Prop where
  status : t.status = .ok
  srcIp : t.res[1] = ((s.slot h).oldest s.cfg).srcIp
  srcPort : t.res[2] = 0#16 ++ ((s.slot h).oldest s.cfg).srcPort
  cfg : t.cfg = s.cfg
  slots : t.slots = (s.setSlot h ((s.slot h).advanceTail s.cfg)).slots

theorem recvTake_taken (s : State) (h : Nat) :
    Taken s (recvTake s h ((s.slot h).oldest s.cfg)) h where
  status := rfl
  srcIp := by simp [recvTake, recvResults]
  srcPort := by simpa [recvTake, recvResults] using setWidth_eq_zero_append 16 _
  cfg := by simp [recvTake, recvResults]
  slots := by simp [recvTake, recvResults]

theorem recvZcTake_taken (s : State) (h : Nat) :
    Taken s (recvZcTake s h ((s.slot h).oldest s.cfg)) h where
  status := rfl
  srcIp := by simp [recvZcTake, recvResults]
  srcPort := by simpa [recvZcTake, recvResults] using setWidth_eq_zero_append 16 _
  cfg := rfl
  slots := rfl

/-- A receive that ends `ST_OK` took the oldest entry of its handle's slot. -/
theorem taken_of_ok {k : Instr} (hk : k ∈ [.recv, .recvZc]) (ends : exec k s = .next t)
    (ok : t.status = .ok) :
    (s.x 0).toNat < s.cfg.nPorts ∧ (s.slot (s.x 0).toNat).isEmpty = false ∧
      Taken s t (s.x 0).toNat := by
  simp only [List.mem_cons, List.not_mem_nil, or_false] at hk
  rcases hk with rfl | rfl
  · obtain rfl : t = recvNext s (s.x 0).toNat := exec_effect ends
    obtain ⟨hh, ne⟩ := recvNext_ok ok
    rw [recvNext_of_nonempty hh ne]
    exact ⟨hh, ne, recvTake_taken s _⟩
  · obtain rfl : t = recvZcNext s (s.x 0).toNat := exec_effect ends
    obtain ⟨hh, ne⟩ := recvZcNext_ok ok
    rw [recvZcNext_of_nonempty hh ne]
    exact ⟨hh, ne, recvZcTake_taken s _⟩

theorem Taken.slot_same (taken : Taken s t h) (hs : s.Inv) (hh : h < s.cfg.nPorts) :
    t.slot h = (s.slot h).advanceTail s.cfg := by
  rw [slot_congr (s := s.setSlot h _) taken.cfg taken.slots, slot_setSlot_same (hs.tableSize ▸ hh)]

theorem Taken.slot_other (taken : Taken s t h) {j : Nat} (hj : j ≠ h) : t.slot j = s.slot j := by
  rw [slot_congr (s := s.setSlot h _) taken.cfg taken.slots, slot_setSlot,
    if_neg fun he => hj he.1.symm]

/-- The host's coming actions are no part of it. -/
theorem Taken.setHost (taken : Taken s t h) (acts : List HostAction) : Taken s (t.setHost acts) h :=
  ⟨taken.status, taken.srcIp, taken.srcPort, taken.cfg, taken.slots⟩

/-- The datagrams of a queue that is not empty: the oldest, then those a receive leaves (R220). -/
theorem datagrams_eq_oldest_cons {c : Config} {sl : Slot} (legal : c.legal = true) (ok : sl.Ok c)
    (ne : sl.isEmpty = false) :
    sl.datagrams c = (sl.oldest c).datagram c :: (sl.advanceTail c).datagrams c := by
  rw [Slot.datagrams, unread_advanceTail legal ok ne, List.map_cons, Slot.datagrams]

theorem Taken.datagrams (taken : Taken s t h) (hs : s.Inv) (hh : h < s.cfg.nPorts)
    (ne : (s.slot h).isEmpty = false) :
    (s.slot h).datagrams s.cfg =
      ((s.slot h).oldest s.cfg).datagram s.cfg :: (t.slot h).datagrams t.cfg := by
  rw [taken.slot_same hs hh, taken.cfg]
  exact datagrams_eq_oldest_cons hs.legal (slotsOk_get hs (hs.tableSize ▸ hh)) ne

/-! ### What a receive leaves alone -/

theorem recvNext_frame (s : State) (h : Nat) :
    (recvNext s h).ipId = s.ipId ∧ (recvNext s h).txt = s.txt ∧ SameConfig s (recvNext s h) ∧
      SameOutside s (recvNext s h) ∧ SameHostSide s (recvNext s h) := by
  obtain ⟨cfg, cmd, arg, nc, pend, ut, ipId, txt, held, host, bus, env, calls, labels⟩ :=
    recvNext_fields s h
  exact ⟨ipId, txt, ⟨nc, pend, ut⟩, ⟨env, calls, labels, held⟩, ⟨cfg, cmd, arg, host, bus⟩⟩

theorem recvZcNext_sameBesideTable (s : State) (h : Nat) : SameBesideTable s (recvZcNext s h) := by
  obtain ⟨cfg, cmd, arg, nc, pend, ut, ipId, txt, held, mem, host, bus, env, calls, labels⟩ :=
    recvZcNext_fields s h
  exact ⟨ipId, txt, ⟨nc, pend, ut⟩, ⟨env, calls, labels, held⟩, ⟨cfg, cmd, arg, host, bus⟩,
    .of_eq mem⟩

/-! ### The bytes `RECV` copies (R216, U2) -/

/-- The number of bytes fits its result register, for `LEN` is a halfword. -/
theorem recvLength_lt (s : State) (e : Entry) : recvLength s e < 2 ^ 16 :=
  (Nat.min_le_right _ _).trans_lt e.len.isLt

theorem recvTake_res (s : State) (h : Nat) (e : Entry) :
    (recvTake s h e).res[0].toNat = recvLength s e ∧ SameResBut [0, 1, 2] s (recvTake s h e) := by
  have fits := recvLength_lt s e
  constructor
  · have count : (recvTake s h e).res[0] = BitVec.ofNat 32 (recvLength s e) := by
      simp [recvTake, recvResults]
    rw [count, BitVec.toNat_ofNat, Nat.mod_eq_of_lt (by omega)]
  · intro k hk
    simp only [List.mem_cons, List.not_mem_nil, or_false, not_or, Fin.ext_iff] at hk
    obtain ⟨h0, h1, h2⟩ := hk
    simp only [recvTake, recvResults, setStatus_fields, setRes_fields]
    rw [Vector.getElem_set_ne _ _ (Ne.symm h2), Vector.getElem_set_ne _ _ (Ne.symm h1),
      Vector.getElem_set_ne _ _ (Ne.symm h0)]
    rfl

theorem recvTake_hostMem (s : State) (h : Nat) (e : Entry) :
    (recvTake s h e).hostMem =
      memWrite s.hostMem (s.x 1) (entryBytes s.cfg e s.fresh (recvLength s e)) := rfl

theorem entryBytes_length (c : Config) (e : Entry) (k n : Nat) :
    (entryBytes c e k n).length = n := by
  simp [entryBytes]

theorem recvTake_read_stored (hs : s.Inv) (h : Nat) {e : Entry} {j : Nat} (hj : j < recvLength s e)
    (stored : j < s.cfg.qPayloadMax) :
    (recvTake s h e).hostMem.read (s.x 1 + BitVec.ofNat 32 j) = byteAt e.data j := by
  have fits := recvLength_lt s e
  have len := entryBytes_length s.cfg e s.fresh (recvLength s e)
  rw [recvTake_hostMem, read_memWrite_inside hs.memWf _ _ (by omega) j (by omega)]
  simp [entryBytes, stored]

theorem recvTake_read_outside (hs : s.Inv) (h : Nat) {e : Entry} {a : Word}
    (ha : ∀ j, j < recvLength s e → a ≠ s.x 1 + BitVec.ofNat 32 j) :
    (recvTake s h e).hostMem.read a = s.hostMem.read a :=
  read_memWrite_outside hs.memWf _ _ _ fun j hj =>
    ha j (by rwa [entryBytes_length] at hj)

/-! ### The results of `RECV_ZC` (R218) -/

theorem toNat_zero_append {m n : Nat} (x : BitVec n) : (0#m ++ x).toNat = x.toNat := by
  rw [← setWidth_eq_zero_append, BitVec.toNat_setWidth_of_le (Nat.le_add_left n m)]

theorem recvZcTake_res (s : State) (h : Nat) (e : Entry) :
    (recvZcTake s h e).res[0] = 0#16 ++ e.len ∧
      (recvZcTake s h e).res[3] = BitVec.ofNat 32 (oldestIndex s h) := by
  constructor
  · simpa [recvZcTake, recvResults] using setWidth_eq_zero_append 16 _
  · simp [recvZcTake, recvResults]

/-! ### The window on the entry taken (R218, R63) -/

theorem oldestIndex_lt (hs : s.Inv) (hh : h < s.cfg.nPorts) :
    oldestIndex s h < s.cfg.nPorts * s.cfg.qCap :=
  calc oldestIndex s h < h * s.cfg.qCap + s.cfg.qCap :=
        Nat.add_lt_add_left (slotOf_lt hs.legal (s.slot h).tail) _
    _ = (h + 1) * s.cfg.qCap := (Nat.succ_mul h s.cfg.qCap).symm
    _ ≤ s.cfg.nPorts * s.cfg.qCap := Nat.mul_le_mul_right _ hh

/-- Taking an entry moves a pointer and leaves the storage, so the window still shows the entry. -/
theorem Taken.readWindow_oldest (taken : Taken s t h) (hs : s.Inv) (hh : h < s.cfg.nPorts) {j : Nat}
    (hj : j < s.cfg.qPayloadMax) :
    readWindow t (oldestIndex s h) j =
      t.returns (0#24 ++ byteAt ((s.slot h).oldest s.cfg).data j) := by
  have cfg := taken.cfg
  have window := readWindow_entry t (i := h) (pos := slotOf s.cfg (s.slot h).tail) (j := j)
    (by rwa [cfg]) (cfg ▸ slotOf_lt hs.legal _) (by rwa [cfg])
  rw [taken.slot_same hs hh, cfg] at window
  exact window

/-- From an idle state the step takes the window read. -/
theorem step_readQram (held : s.held = none) (e j : Nat) (rest : List HostAction) :
    step (s.setHost (.readQram e j :: rest)) = .next (readWindow (s.setHost rest) e j) :=
  step_eq_hostStep (s := s.setHost (.readQram e j :: rest)) held rfl

theorem byteAt_datagram_payload {c : Config} {e : Entry} {j : Nat}
    (hj : j < min e.len.toNat c.qPayloadMax) : byteAt (e.datagram c).payload j = byteAt e.data j :=
  byteAt_take hj

end

end Sys2Proof.Machine
end

section
/-! The statements of the family 42_udp_receive.md, from the lemmas above. -/

namespace Sys2Proof.Proofs

open Sys2Proof.Machine

/-- Settles O42: the low-port test comes first (`udpDeliver_of_low`), then the scan that finds no slot
(`udpDeliver_of_unbound`); port 0 is no exception, for it is always low. -/
theorem undeliverableDatagramIsDropped : Obligations.UndeliverableDatagramIsDropped := by
  intro s h hs held delivered pre low dropped
  have ends := exec_udpDeliver_of_preDeliver held delivered pre
  have low_iff : disallowedLowPort s.cfg (dportOf h.frame) = true ↔ low := disallowedLowPort_iff _ _
  rcases isLow : disallowedLowPort s.cfg (dportOf h.frame)
  · have notLow : ¬ low := fun hl => Bool.false_ne_true (isLow.symm.trans (low_iff.mpr hl))
    have unbound := dropped.resolve_left notLow
    rw [← hs.tableSize] at unbound
    rw [udpDeliver_of_unbound isLow (findPort_eq_none unbound)] at ends
    exact ⟨.dropNoPort, ends, fun hl => absurd hl notLow, fun _ => rfl⟩
  · rw [udpDeliver_of_low isLow] at ends
    exact ⟨.dropLowPort, ends, fun _ => rfl, fun notLow => absurd (low_iff.mp isLow) notLow⟩

/-- Settles O43: the slot that holds the port has the frame queued (`delivered_slot`), whose pointers and
entries are those of one entry queued. -/
theorem datagramIsQueued : Obligations.DatagramIsQueued := by
  intro s h i hs held delivered pre eligiblePort hi port f q old ulen pos
  have eligible := (disallowedLowPort_eq_false_iff s.cfg (dportOf f)).mpr eligiblePort
  have ok : old.Ok s.cfg := slotsOk_get hs (hs.tableSize ▸ hi)
  have inRing : pos < old.ring.length := ok.ringSize ▸ slotOf_lt hs.legal old.head
  have len : (ulenOf f).toNat = ulen := ulenOf_toNat pre
  obtain ⟨t, ends⟩ : ∃ t, exec .udpDeliver s = .next t :=
    ⟨_, exec_udpDeliver_of_preDeliver held delivered pre⟩
  obtain ⟨queued, others, label⟩ := delivered_slot hs held hi port eligible ends
  have stored : (t.slot i).entry s.cfg pos =
      (old.entry s.cfg pos).store (payloadOf s.cfg f) (srcIpOf f) (sportOf f) (ulenOf f) :=
    queued ▸ Slot.enqueue_entry_head _ _ _ _ inRing
  refine ⟨t, ends, ?_⟩
  rw [stored, queued]
  refine ⟨Slot.enqueue_port .., Slot.enqueue_head .., Slot.enqueue_tail .., rfl, rfl, len,
    fun j => ?_, fun p hp => Slot.enqueue_entry_other _ _ _ _ hp, others, len ▸ label,
    delivered_frame held ends⟩
  rw [byteAt_store pre (entry_data_length ok pos), len]

/-- Settles O44: each is one branch of the delivery port's checks. -/
theorem deliveryOutsideContractIsRefused : Obligations.DeliveryOutsideContractIsRefused := by
  refine ⟨fun s held => ?_, fun s h held delivered => ?_, fun s h held delivered broken => ?_⟩
  · simp only [exec, execUdpDeliver, held]
  · simp only [exec, execUdpDeliver, held, delivered, if_true]
  · have pre : preDeliver h.frame = false :=
      Bool.eq_false_iff.mpr fun pre => broken ((preDeliver_iff _).mp pre)
    simp only [exec, execUdpDeliver, held, delivered, pre, Bool.false_eq_true, if_false]

/-- Settles O45: each delivery keeps the last `Q_CAP` of the datagrams before it and its own
(`deliverAll_datagrams`), from an empty queue. -/
theorem queueKeepsLastCapacityDatagrams : Obligations.QueueKeepsLastCapacityDatagrams := by
  intro s i fs hs hi _ empty frames eligiblePort
  obtain ⟨t, all, datagrams, others⟩ := deliverAll_datagrams hs hi frames
    ((disallowedLowPort_eq_false_iff _ _).mpr eligiblePort)
  have none : (s.slot i).datagrams s.cfg = [] :=
    List.length_eq_zero_iff.mp ((datagrams_length _ _).trans empty)
  refine ⟨t, all, datagrams.trans ?_, others⟩
  rw [none, List.nil_append, List.rtake, List.length_map]
  congr 1
  omega

/-- Settles O46: the queue is not empty, so the oldest entry is taken (`recvTake_taken`), and the bytes
copied are those of `recvTake_read_stored`. -/
theorem recvCopiesOldest : Obligations.RecvCopiesOldest := by
  intro s h hs hh hlt hc e n
  have ne := isEmpty_eq_false hs hlt hc
  have taken := recvTake_taken s h
  have frame := recvNext_frame s h
  have ends := exec_recv hh
  rw [recvNext_of_nonempty hlt ne] at frame ends
  obtain ⟨count, results⟩ := recvTake_res s h e
  exact ⟨_, ends, taken.status, count, taken.srcIp, taken.srcPort, results,
    fun j hj stored => recvTake_read_stored hs h hj stored,
    fun a ha => recvTake_read_outside hs h ha, taken.slots, frame⟩

/-- Settles O47: the oldest entry is taken (`recvZcTake_taken`); length and index are its own results. -/
theorem recvZcReturnsSlotReference : Obligations.RecvZcReturnsSlotReference := by
  intro s h hs hh hlt hc pos e
  have ne := isEmpty_eq_false hs hlt hc
  have taken := recvZcTake_taken s h
  have frame := recvZcNext_sameBesideTable s h
  have ends := exec_recvZc hh
  rw [recvZcNext_of_nonempty hlt ne] at frame ends
  obtain ⟨len, index⟩ := recvZcTake_res s h e
  exact ⟨_, ends, taken.status, len, taken.srcIp, taken.srcPort, index, taken.slots, frame⟩

/-- Settles O48: the handle test comes first, then that of the queue. -/
theorem badHandleOrEmptyQueue : Obligations.BadHandleOrEmptyQueue := by
  refine ⟨fun s hh => ⟨?_, ?_⟩, fun s hs hh hc => ?_⟩
  · rw [exec_recv rfl, recvNext_of_badHandle hh]
    rfl
  · rw [exec_recvZc rfl, recvZcNext_of_badHandle hh]
    rfl
  · have empty := isEmpty_eq_true hs hh hc
    have recv := exec_recv (s := s) rfl
    have recvZc := exec_recvZc (s := s) rfl
    rw [recvNext_of_empty hh empty] at recv
    rw [recvZcNext_of_empty hh empty] at recvZc
    exact ⟨⟨_, recv, rfl, by simp [recvEmpty], by simp [recvEmpty], rfl⟩,
      _, recvZc, rfl, by simp [recvEmpty], rfl⟩

/-- Settles O49: the index returned, which fits its register, is that of the entry taken, and the window
still shows that entry (`Taken.readWindow_oldest`). -/
theorem windowShowsZeroCopyPayload : Obligations.WindowShowsZeroCopyPayload := by
  intro s t h j rest hs fits hh hlt ends ok held hj
  obtain rfl : t = recvZcNext s h := Host.Outcome.next.inj (ends.symm.trans (exec_recvZc hh))
  obtain ⟨-, ne⟩ := recvZcNext_ok ok
  rw [recvZcNext_of_nonempty hlt ne] at held hj ⊢
  have taken := recvZcTake_taken s h
  obtain ⟨len, index⟩ := recvZcTake_res s h ((s.slot h).oldest s.cfg)
  have entry : (BitVec.ofNat 32 (oldestIndex s h)).toNat = oldestIndex s h :=
    Nat.mod_eq_of_lt ((oldestIndex_lt hs hlt).trans_le fits)
  rw [len, toNat_zero_append] at hj
  rw [index, entry, step_readQram held]
  refine ⟨_, _, _, taken.datagrams hs hlt ne,
    congrArg _ ((taken.setHost rest).readWindow_oldest hs hlt (by omega)), ?_⟩
  rw [byteAt_datagram_payload hj]
  rfl

/-- Settles O50: a delivery queues at the end (`delivered_datagrams`), a receive takes from the front
(`Taken.datagrams`). -/
theorem queuesAreFifo : Obligations.QueuesAreFifo := by
  refine ⟨fun s t h i hs held hi port eligible ends =>
    delivered_datagrams hs held hi port ((disallowedLowPort_eq_false_iff _ _).mpr eligible) ends,
    fun k s t hk hs ends ok => ?_⟩
  obtain ⟨hh, ne, taken⟩ := taken_of_ok hk ends ok
  exact ⟨⟨_, taken.datagrams hs hh ne, taken.srcIp, taken.srcPort⟩, fun j hj => taken.slot_other hj⟩

/-- Settles O59: the next listed answer breaks the IP layer's promise. -/
theorem brokenDeliveryPromiseIsRefused : Obligations.BrokenDeliveryPromiseIsRefused := by
  intro s f rest listed received h14 h4 pre
  have class4 : etherClass f = .ipv4 := (etherClass_ipv4_iff f).mpr ⟨h14, h4⟩
  have broken : deliveryContractBroken s = true := by
    simp [deliveryContractBroken, listed, received, class4, pre]
  rw [exec, execDispatch, if_pos broken]

end Sys2Proof.Proofs
end

section
/-! `SEND`: one equation per case, what every case leaves alone, and the identifier each takes
(spec/43_udp_send.md R231 to R234, R243, R252). -/

namespace Sys2Proof.Machine

/-! ### Case by case (R232, R243, R244 to R251) -/

section
variable {s : State} {h : Nat}

/-- The handle check passes for a bound slot of the table only (R232). -/
theorem unboundHandle_eq_false_iff :
    unboundHandle s h = false ↔ h < s.cfg.nPorts ∧ (s.slot h).port ≠ 0 := by
  simp [unboundHandle]

theorem exec_send (hr : s.callsReturn) : exec .send s = .next (sendNext s (s.x 0).toNat) :=
  exec_of_callsReturn hr (by decide) nofun

theorem sendNext_of_unbound (unbound : unboundHandle s h = true) :
    sendNext s h = s.raise .errUnbound := if_pos unbound

theorem sendNext_of_unresolved (bound : unboundHandle s h = false)
    (unanswered : destinationMac (takeId s) (s.x 3) = none) :
    sendNext s h = (afterAddressing (takeId s) (s.x 3)).raise .errArp := by
  rw [sendNext, if_neg (by simp [bound]), unanswered]

theorem sendNext_of_addressed (bound : unboundHandle s h = false) {dmac : Mac}
    (answered : destinationMac (takeId s) (s.x 3) = some dmac) :
    sendNext s h = transmit s (afterAddressing (takeId s) (s.x 3)) h dmac := by
  rw [sendNext, if_neg (by simp [bound]), answered]

/-- Every way a `SEND` ends. -/
theorem sendNext_cases (s : State) (h : Nat) :
    (unboundHandle s h = true ∧ sendNext s h = s.raise .errUnbound) ∨
    (unboundHandle s h = false ∧ destinationMac (takeId s) (s.x 3) = none ∧
      sendNext s h = (afterAddressing (takeId s) (s.x 3)).raise .errArp) ∨
    (unboundHandle s h = false ∧ ∃ dmac, destinationMac (takeId s) (s.x 3) = some dmac ∧
      sendNext s h = transmit s (afterAddressing (takeId s) (s.x 3)) h dmac) := by
  cases bound : unboundHandle s h with
  | true => exact .inl ⟨rfl, sendNext_of_unbound bound⟩
  | false =>
    cases mac : destinationMac (takeId s) (s.x 3) with
    | none => exact .inr (.inl ⟨rfl, rfl, sendNext_of_unresolved bound mac⟩)
    | some dmac => exact .inr (.inr ⟨rfl, dmac, rfl, sendNext_of_addressed bound mac⟩)

end

/-! ### What a `SEND` leaves alone (R252) -/

theorem sendNext_same (s : State) (h : Nat) :
    (sendNext s h).slots = s.slots ∧ (sendNext s h).labels = s.labels ∧
      (sendNext s h).held = s.held ∧ SameConfig s (sendNext s h) ∧ SameHostSide s (sendNext s h) ∧
      SameMemory s (sendNext s h) ∧ SameResBut [] s (sendNext s h) := by
  obtain ⟨cfg, cmd, arg, res, nc, pend, ut, slots, held, mem, host, bus, labels⟩ :=
    sendNext_fields s h
  exact ⟨slots, labels, held, ⟨nc, pend, ut⟩, ⟨cfg, cmd, arg, host, bus⟩, .of_eq mem, .of_eq res _⟩

/-! ### The identifier (R234, R35) -/

@[simp] theorem takeId_ipId (s : State) : (takeId s).ipId = s.ipId + 1 := rfl

/-- The identifier is taken exactly where the handle check passes. -/
theorem sendNext_ipId (s : State) (h : Nat) :
    ((sendNext s h).status = .errUnbound ∧ (sendNext s h).ipId = s.ipId) ∨
      ((sendNext s h).status ≠ .errUnbound ∧ (sendNext s h).ipId = s.ipId + 1) := by
  obtain ⟨-, e⟩ | ⟨-, -, e⟩ | ⟨-, dmac, -, e⟩ := sendNext_cases s h <;> rw [e]
  · exact .inl ⟨rfl, rfl⟩
  · exact .inr ⟨by simp, by simp⟩
  · exact .inr ⟨by simp [transmit], by simp [transmit]⟩

/-- The operations that may write `IP_ID`: `SEND`, and those that call a collaborator which may itself
send (R154). -/
def ipIdWriters : List Instr := [.send, .init, .setDhcp, .setZeroconf, .apply, .dispatch]

theorem exec_ipId {i : Instr} {s t : State} (h : exec i s = .next t) (hi : i ∉ ipIdWriters) :
    t.ipId = s.ipId := by
  cases i with
  | udpDeliver =>
    obtain ⟨hd, -, -, -, rfl⟩ := udpDeliver_cases h
    simp [udpDeliver]
  | shutdown | setIp | setGateway | queueIp | queueNetmask | queueGateway | queueDhcp
  | queueZeroconf | setIpConfig =>
    rw [exec_effect h]; simp [effect]
  | bind => rw [exec_effect h]; simp [effect, bindNext_fields]
  | unbind => rw [exec_effect h]; simp [effect, unbindNext_fields]
  | recv => rw [exec_effect h]; simp [effect, recvNext_fields]
  | recvZc => rw [exec_effect h]; simp [effect, recvZcNext_fields]
  | send | init | setDhcp | setZeroconf | apply | dispatch => exact absurd hi (by decide)

/-! ### The lookup of a unicast destination (R240 to R243) -/

/-- Taking the identifier changes nothing that stage 4 reads. -/
theorem unicast_lookup {s : State} (nb : ¬ BroadcastDst s) (nm : ¬ MulticastDst s) :
    destinationMac (takeId s) (s.x 3) = arpAnswer s ∧
      afterAddressing (takeId s) (s.x 3) = afterLookup (takeId s) (unicastTarget s) := by
  have target : lookupTarget (takeId s).ut (s.x 3) = some (unicastTarget s) := classify_unicast nb nm
  rw [destinationMac, afterAddressing, target]
  exact ⟨rfl, rfl⟩

end Sys2Proof.Machine
end

section
/-! The frame a `SEND` hands to Frame I/O: its fields, the template it leaves, and the checksum a receiver
verifies (spec/43_udp_send.md R235, R244 to R251). -/

namespace Sys2Proof.Machine

/-! ### The configuration bytes of the template (R44, R244) -/

/-- Stage 5 writes none of the configuration bytes. -/
theorem stamp_configByte (t : List Byte) (p : Stamp) {o : Nat} (ho : ConfigOffset o) :
    byteAt (stamp t p) o = byteAt t o :=
  stamp_outside t p fun sent => not_configOffset_of_send sent ho

theorem stamp_smac (t : List Byte) (p : Stamp) :
    ((stamp t p).drop 6).take 6 = (t.drop 6).take 6 :=
  take_drop_congr (stamp_length t p) fun j hj => stamp_configByte t p (.inl (by omega))

theorem stamp_srcIp (t : List Byte) (p : Stamp) : be32 (stamp t p) 26 = be32 t 26 := by
  have same := fun o ho => stamp_configByte t p (o := o) (.inr ho)
  rw [be32, same 26 (by omega), same 27 (by omega), same 28 (by omega), same 29 (by omega), be32]

/-! ### The frame field by field -/

/-- An IPv4 datagram of the longest payload fits its length field (R10, R235). -/
theorem sendLength_le {s : State} (hs : s.Inv) :
    sendLength s ≤ s.cfg.txPayloadMax ∧ sendLength s ≤ 65507 := by
  have legal := hs.legal
  simp only [Config.legal, Bool.and_eq_true, decide_eq_true_eq] at legal
  obtain ⟨⟨⟨⟨-, tx⟩, -⟩, -⟩, -⟩ := legal
  have le : sendLength s ≤ s.cfg.txPayloadMax := Nat.min_le_right _ _
  exact ⟨le, le.trans tx⟩

@[simp] theorem sendStamp_payload_length (s : State) (h : Nat) (dmac : Mac) :
    (sendStamp s h dmac).payload.length = sendLength s := memRead_length _ _ _

/-- The template as the `SEND` leaves it: the constant and the configuration bytes, and the unused payload
bytes, are as before (R244). -/
theorem transmit_templateKept (s t : State) (h : Nat) (dmac : Mac) :
    TemplateKeptBut (SendOffset (sendLength s)) s (transmit s t h dmac) :=
  ⟨stamp_length _ _, fun o ho => stamp_outside _ _ (by rwa [sendStamp_payload_length])⟩

section
variable {s : State} (hs : s.Inv) (h : Nat) (dmac : Mac)
include hs

theorem sentFrame_length : (sentFrame s h dmac).length = 42 + sendLength s := by
  have fits := (sendLength_le hs).1
  simp only [sentFrame, List.length_take, stamp_length, hs.templateSize]
  omega

/-- The header checksum is that of the frame itself (R247). -/
theorem sentFrame_headerChecksum :
    (be16 (sentFrame s h dmac) 24).toNat =
      0xFFFF - foldCarry 16 (halfSum (sentFrame s h dmac) 14 5 + halfSum (sentFrame s h dmac) 26 4) := by
  have taken : ∀ o, o + 1 < 42 →
      be16 (sentFrame s h dmac) o = be16 (stamp s.txt (sendStamp s h dmac)) o :=
    fun o ho => be16_take (by omega)
  rw [taken 24 (by decide), stamp_headerChecksum _ _ hs.template_le,
    halfSum_congr (o := 14) (n := 5) fun k hk => taken _ (by omega),
    halfSum_congr (o := 26) (n := 4) fun k hk => taken _ (by omega)]

theorem sentFrame_payload {j : Nat} (hj : j < sendLength s) :
    byteAt (sentFrame s h dmac) (42 + j) = s.hostMem.read (s.x 1 + BitVec.ofNat 32 j) := by
  have fits := (sendLength_le hs).1
  have len := sendStamp_payload_length s h dmac
  rw [sentFrame, byteAt_take (by omega), stamp_payload _ _ (by rw [hs.templateSize]; omega) (by omega),
    List.getD_eq_getElem _ _ (by omega)]
  exact memRead_getElem _ _ _ _ _

/-- A transmitted frame has every header field and payload byte the rules give it (R245 to R250): those
stage 5 stamps, and the template's for the others. -/
theorem sentFrame_fields : FrameFields s h (sendLength s) dmac (sentFrame s h dmac) := by
  have fits := (sendLength_le hs).2
  have kept := stamp_const hs.templateConst (sendStamp s h dmac)
  obtain ⟨totalLength, identification, dstIp⟩ := stamp_ip s.txt (sendStamp s h dmac) hs.template_le
  obtain ⟨sport, dport, udpLength⟩ := stamp_udp s.txt (sendStamp s h dmac) hs.template_le
  rw [sendStamp_payload_length] at totalLength udpLength
  exact {
    length := sentFrame_length hs h dmac
    dmac := by
      rw [sentFrame, List.take_take, Nat.min_eq_left (by omega)]
      exact stamp_dmac _ _ hs.template_le
    smac := by
      rw [sentFrame, List.drop_take, List.take_take, Nat.min_eq_left (by omega)]
      exact stamp_smac _ _
    ethertype := (be16_take (by omega)).trans kept.ethertype
    version := (byteAt_take (by omega)).trans kept.version
    tos := (byteAt_take (by omega)).trans kept.tos
    totalLength := by
      rw [sentFrame, be16_take (by omega), totalLength, BitVec.toNat_ofNat,
        Nat.mod_eq_of_lt (by omega)]
    identification := (be16_take (by omega)).trans identification
    flagsFrag := (be16_take (by omega)).trans kept.flagsFrag
    ttl := (byteAt_take (by omega)).trans kept.ttl
    protocol := (byteAt_take (by omega)).trans kept.protocol
    headerChecksum := sentFrame_headerChecksum hs h dmac
    srcIp := (be32_take (by omega)).trans (stamp_srcIp _ _)
    dstIp := (be32_take (by omega)).trans dstIp
    sport := (be16_take (by omega)).trans sport
    dport := (be16_take (by omega)).trans dport
    udpLength := by
      rw [sentFrame, be16_take (by omega), udpLength, BitVec.toNat_ofNat,
        Nat.mod_eq_of_lt (by omega)]
    udpChecksum := (be16_take (by omega)).trans kept.udpChecksum
    payload := fun j hj => sentFrame_payload hs h dmac hj }

end

/-! ### What a receiver checks (R247, R253) -/

/-- The sum of the nine halfwords beside the checksum folds to a halfword. -/
theorem foldCarry_header_le (f : Frame) :
    foldCarry 16 (halfSum f 14 5 + halfSum f 26 4) ≤ 0xFFFF := by
  have front := halfSum_le f 14 5
  have back := halfSum_le f 26 4
  exact foldCarry_le 14 (by omega)

/-- A header whose checksum complements the folded sum of the others verifies: the sum of all ten is
positive and a multiple of 0xFFFF, and folding keeps both. -/
theorem headerSum_of_checksum {f : Frame} (stored : (be16 f 24).toNat =
    0xFFFF - foldCarry 16 (halfSum f 14 5 + halfSum f 26 4)) : headerSum f = 0xFFFF := by
  have le := foldCarry_header_le f
  have mod := foldCarry_mod 16 (halfSum f 14 5 + halfSum f 26 4)
  have positive : 0 < halfSum f 14 10 := by
    rw [halfSum_header, stored]
    rcases Nat.eq_zero_or_pos (halfSum f 14 5 + halfSum f 26 4) with zero | pos
    · rw [zero, show foldCarry 16 0 = 0 from rfl]
      omega
    · omega
  have multiple : headerSum f % 0xFFFF = 0 := by
    rw [headerSum, foldCarry_mod, halfSum_header, stored]
    omega
  have folded : 0 < headerSum f := foldCarry_pos 16 positive
  have folded_le := headerSum_le f
  omega

end Sys2Proof.Machine
end

section
/-! The statements of the family 43_udp_send.md, from the lemmas above. -/

namespace Sys2Proof.Proofs

open Sys2Proof.Machine

/-- Settles O51: the handle check comes before everything else a `SEND` does. -/
theorem sendUnboundFails : Obligations.SendUnboundFails := by
  intro s hr unbound
  have check : unboundHandle s (s.x 0).toNat = true := by
    by_contra bound
    obtain ⟨hh, hp⟩ := unboundHandle_eq_false_iff.mp (Bool.eq_false_iff.mpr bound)
    exact hp (unbound hh)
  rw [exec_send hr, sendNext_of_unbound check]
  rfl

/-- Settles O52: stage 4 of a unicast destination is one lookup (`unicast_lookup`), and without an answer
nothing follows it. -/
theorem sendUnresolvedFails : Obligations.SendUnresolvedFails := by
  intro s hr bound nb nm unanswered
  obtain ⟨mac, looked⟩ := unicast_lookup nb nm
  obtain ⟨slots, labels, held, same⟩ := sendNext_same s (s.x 0).toNat
  have ends := sendNext_of_unresolved (unboundHandle_eq_false_iff.mpr bound) (mac.trans unanswered)
  rw [looked] at ends
  refine ⟨_, exec_send hr, ?_, ?_, ?_, ?_, slots, labels, held, same⟩ <;> rw [ends] <;> rfl

/-- Settles O53: what stage 4 gives is what `Addressed` says (`addressed_spec`), and the frame handed off
has its fields (`sentFrame_fields`). -/
theorem sendTransmitsFrame : Obligations.SendTransmitsFrame := by
  intro s dmac lookups hs hr bound addressed n
  obtain ⟨mac, calls⟩ := addressed_spec addressed
  obtain ⟨slots, labels, held, same⟩ := sendNext_same s (s.x 0).toNat
  have ends := sendNext_of_addressed (unboundHandle_eq_false_iff.mpr bound) mac
  refine ⟨_, sentFrame s (s.x 0).toNat dmac, exec_send hr, ?_, ?_, ?_, sentFrame_fields hs _ _, ?_, ?_,
    slots, labels, held, same⟩ <;> rw [ends]
  · rfl
  · simp [transmit]
  · simp [transmit, calls]
  · rfl
  · exact transmit_templateKept s _ _ dmac

/-- Settles O54: a `SEND` that ends `ST_OK` transmitted its frame last, whose checksum verifies
(`headerSum_of_checksum`). -/
theorem sentHeaderChecksumVerifies : Obligations.SentHeaderChecksumVerifies := by
  rintro s t f hs ends ok ⟨front, last⟩
  obtain rfl : t = sendNext s (s.x 0).toNat := exec_effect ends
  obtain ⟨-, e⟩ | ⟨-, -, e⟩ | ⟨-, dmac, -, e⟩ := sendNext_cases s (s.x 0).toNat <;> rw [e] at ok last
  · cases ok
  · cases ok
  · obtain rfl : sentFrame s (s.x 0).toNat dmac = f :=
      Call.fioTransmit.inj (List.head_eq_of_cons_eq (List.append_inj' last rfl).2)
    have stored := sentFrame_headerChecksum hs (s.x 0).toNat dmac
    exact ⟨foldCarry_header_le _, stored, headerSum_of_checksum stored⟩

/-- Settles O55: a `SEND` takes the identifier where the handle check passes (`sendNext_ipId`); the other
operations named call collaborators, and none besides writes it (`exec_ipId`). -/
theorem identifierCountsAttempts : Obligations.IdentifierCountsAttempts := by
  refine ⟨fun s t ends => ?_, fun i s t ends hi => exec_ipId ends hi⟩
  obtain rfl : t = sendNext s (s.x 0).toNat := exec_effect ends
  obtain ⟨status, kept⟩ | ⟨status, taken⟩ := sendNext_ipId s (s.x 0).toNat
  · exact ⟨fun _ => kept, fun ne => absurd status ne⟩
  · refine ⟨fun unbound => absurd unbound status, fun _ => ?_⟩
    rw [taken, BitVec.toNat_add]
    rfl

end Sys2Proof.Proofs
end

section
/-! A collaborator call that never returns (spec/60_exceptions.md R288; spec/93_implementation_defined.md
U11; log 11): whether a call returns decides nothing but where an operation or a step ends. -/

namespace Sys2Proof.Machine

/-! ### No effect reads whether a call returns -/

/-- Every operation's effect commutes with `State.withStuck`. -/
theorem effect_withStuck (i : Instr) (s : State) (l : Option Nat) :
    effect i (s.withStuck l) = (effect i s).withStuck l := by
  cases i with
  | init =>
    simp only [effect, initNegotiated_withStuck, reinit_withStuck, initResults_withStuck]
    rfl
  | shutdown => simp only [effect, shutdownCalls_withStuck]; rfl
  | setDhcp =>
    have answered : negotiateOk (s.withStuck l) = negotiateOk s := rfl
    simp only [effect, negotiate_withStuck, reinit_withStuck, answered]
    rfl
  | setZeroconf => exact setZeroconfNext_withStuck s l
  | dispatch => exact dispatchNext_withStuck s l
  | apply => simp only [effect, applyNext_withStuck]; rfl
  | bind => exact bindNext_withStuck s _ l
  | unbind => exact unbindNext_withStuck s _ l
  | recv => exact recvNext_withStuck s _ l
  | recvZc => exact recvZcNext_withStuck s _ l
  | send => exact sendNext_withStuck s _ l
  | udpDeliver =>
    have held : (s.withStuck l).held = s.held := rfl
    simp only [effect, held, udpDeliver_withStuck]
    split <;> rfl
  | setIp | setGateway | queueIp | queueNetmask | queueGateway | queueDhcp | queueZeroconf
  | setIpConfig => rfl

/-! ### Outcomes that the calls alone decide -/

/-- The outcome `o l`, where `l` says which call never returns and the history holds `n` calls before: a
refusal whatever `l` is, or the state with `l` in it, unless its history holds that call. -/
def StoppedByCallAlone (n : Nat) (o : Option Nat → Host.Outcome State Fault Refusal) : Prop :=
  (∃ r, ∀ l, o l = .refused r) ∨
    ∃ u : State, ∀ l : Option Nat, (∀ k ∈ l, n ≤ k) → o l = complete (u.withStuck l) (u.withStuck l)

section
variable {n : Nat} {o : Option Nat → Host.Outcome State Fault Refusal}

/-- An operation that calls collaborators and ends by `complete`. -/
theorem StoppedByCallAlone.of_complete (s u : State)
    (h : ∀ l, o l = complete (s.withStuck l) (u.withStuck l)) : StoppedByCallAlone n o :=
  .inr ⟨u, fun l _ => h l⟩

/-- An operation that makes no call ends whichever call never returns. -/
theorem StoppedByCallAlone.of_next (u : State) (calls : u.calls.length = n)
    (h : ∀ l, o l = .next (u.withStuck l)) : StoppedByCallAlone n o := by
  refine .inr ⟨u, fun l hl => ?_⟩
  rw [h]
  cases l with
  | none => exact (complete_of_callsReturn (s := u.withStuck none) rfl _).symm
  | some k =>
    have unmade : ¬ k < u.calls.length := by
      have := hl k rfl
      omega
    exact ((complete_withStuck u (u.withStuck (some k)) k).trans (if_neg unmade)).symm

theorem StoppedByCallAlone.of_refused (r : Refusal) (h : ∀ l, o l = .refused r) :
    StoppedByCallAlone n o := .inl ⟨r, h⟩

/-- Where the outcome is `t` if every call returns, the call that never returns stops it exactly if `t`'s
history holds that call (U11). -/
theorem StoppedByCallAlone.stuck {t : State} {k : Nat} (h : StoppedByCallAlone n o) (hk : n ≤ k)
    (ends : o none = .next t) :
    (k < t.calls.length → o (some k) = .fault .collaboratorNeverReturns) ∧
      (t.calls.length ≤ k → o (some k) = .next (t.withStuck (some k))) := by
  obtain ⟨r, refused⟩ | ⟨u, completes⟩ := h
  · rw [refused] at ends
    cases ends
  · rw [completes none nofun] at ends
    rw [completes (some k) fun j hj => Option.mem_some.mp hj ▸ hk]
    exact complete_stuck (s := u) (u := u.withStuck none) ends

end

/-- No outcome is a state whose history is past the call that never returns (U11). -/
theorem StoppedByCallAlone.not_past {f : State → Host.Outcome State Fault Refusal} {s t : State}
    {k : Nat} (h : StoppedByCallAlone s.calls.length fun l => f (s.withStuck l))
    (hs : s.env.stuckAt = some k) (hk : s.calls.length ≤ k) (ends : f s = .next t) :
    t.env.stuckAt = some k ∧ t.calls.length ≤ k := by
  rw [← withStuck_self hs] at ends
  obtain ⟨r, refused⟩ | ⟨u, completes⟩ := h
  · cases (refused (some k)).symm.trans ends
  · have completed := (completes (some k) fun j hj => Option.mem_some.mp hj ▸ hk).symm.trans ends
    refine ⟨?_, calls_le_of_complete rfl completed⟩
    rw [complete_next completed]
    rfl

/-! ### Every operation -/

/-- A delivery makes no call; its refusals are about the frame held (R201, R283). -/
theorem udpDeliver_stoppedByCallAlone (s : State) :
    StoppedByCallAlone s.calls.length fun l => exec .udpDeliver (s.withStuck l) := by
  cases held : s.held with
  | none =>
    exact .of_refused .deliverOutsideDispatch fun l => by
      simp only [exec, execUdpDeliver, State.withStuck, held]
  | some h =>
    cases delivered : h.delivered with
    | true =>
      exact .of_refused .deliverOutsideDispatch fun l => by
        simp only [exec, execUdpDeliver, State.withStuck, held, delivered, if_true]
    | false =>
      cases pre : preDeliver h.frame with
      | true =>
        refine .of_next ((udpDeliver s h.frame).setHeld (some { h with delivered := true }))
          (by simp [udpDeliver]) fun l => ?_
        rw [exec_udpDeliver_of_preDeliver (s := s.withStuck l) held delivered pre,
          udpDeliver_withStuck]
        rfl
      | false =>
        exact .of_refused .deliverPreconditionFalse fun l => by
          simp only [exec, execUdpDeliver, State.withStuck, held, delivered, pre,
            Bool.false_eq_true, if_false]

/-- A `DISPATCH` ends by `complete` where the IP layer keeps its promise (R291 (d)). -/
theorem exec_dispatch_eq_complete {s : State} (promise : deliveryContractBroken s = false) :
    exec .dispatch s = complete s (dispatchNext s) := by
  rw [exec, execDispatch, promise]
  exact if_neg Bool.false_ne_true

/-- `DISPATCH` is refused where the IP layer breaks its promise, whatever its calls do (U3). -/
theorem dispatch_stoppedByCallAlone (s : State) :
    StoppedByCallAlone s.calls.length fun l => exec .dispatch (s.withStuck l) := by
  have promise : ∀ l, deliveryContractBroken (s.withStuck l) = deliveryContractBroken s :=
    fun _ => rfl
  cases broken : deliveryContractBroken s with
  | true =>
    exact .of_refused .deliverPreconditionFalse fun l => by
      rw [exec, execDispatch, promise, broken, if_pos rfl]
  | false =>
    exact .of_complete s (dispatchNext s) fun l => by
      rw [exec_dispatch_eq_complete ((promise l).trans broken), dispatchNext_withStuck]

theorem exec_stoppedByCallAlone_of_complete {i : Instr} {s : State}
    (ends : ∀ t, exec i t = complete t (effect i t)) :
    StoppedByCallAlone s.calls.length fun l => exec i (s.withStuck l) :=
  .of_complete s (effect i s) fun l => by rw [ends, effect_withStuck]

theorem exec_stoppedByCallAlone_of_next {i : Instr} {s : State}
    (calls : (effect i s).calls = s.calls) (ends : ∀ t, exec i t = .next (effect i t)) :
    StoppedByCallAlone s.calls.length fun l => exec i (s.withStuck l) :=
  .of_next (effect i s) (congrArg _ calls) fun l => by rw [ends, effect_withStuck]

/-- Every operation: those that call collaborators end by `complete`, the others call none. -/
theorem exec_stoppedByCallAlone (i : Instr) (s : State) :
    StoppedByCallAlone s.calls.length fun l => exec i (s.withStuck l) := by
  cases i with
  | init | shutdown | setIp | setGateway | setDhcp | setZeroconf | apply | send =>
    exact exec_stoppedByCallAlone_of_complete fun _ => rfl
  | queueIp | queueNetmask | queueGateway | queueDhcp | queueZeroconf | setIpConfig =>
    exact exec_stoppedByCallAlone_of_next rfl fun _ => rfl
  | bind => exact exec_stoppedByCallAlone_of_next (by simp [effect, bindNext_fields]) fun _ => rfl
  | unbind => exact exec_stoppedByCallAlone_of_next (by simp [effect, unbindNext_fields]) fun _ => rfl
  | recv => exact exec_stoppedByCallAlone_of_next (by simp [effect, recvNext_fields]) fun _ => rfl
  | recvZc => exact exec_stoppedByCallAlone_of_next (by simp [effect, recvZcNext_fields]) fun _ => rfl
  | dispatch => exact dispatch_stoppedByCallAlone s
  | udpDeliver => exact udpDeliver_stoppedByCallAlone s

/-! ### Every step -/

theorem startCommand_stoppedByCallAlone (s : State) (w : Word) :
    StoppedByCallAlone s.calls.length fun l => startCommand (s.withStuck l) w := by
  cases decoded : decodeCommand w with
  | instr i =>
    simp only [startCommand_of_instr decoded]
    exact exec_stoppedByCallAlone i (s.setCmd w)
  | reserved op =>
    simp only [startCommand_of_reserved decoded]
    exact .of_next ((s.setCmd w).raise .errBadOpcode) rfl fun _ => rfl

theorem writeReg_stoppedByCallAlone (s : State) (o : Nat) (v : Word) :
    StoppedByCallAlone s.calls.length fun l => writeReg (s.withStuck l) o v := by
  unfold writeReg
  split
  · exact startCommand_stoppedByCallAlone s v
  · split
    · exact .of_next (s.setArg _ v) rfl fun _ => rfl
    · exact .of_next s rfl fun _ => rfl

theorem readWindow_withStuck (s : State) (e j : Nat) (l : Option Nat) :
    readWindow (s.withStuck l) e j = (readWindow s e j).withStuck l := by
  have range : (s.withStuck l).qramInRange e j = s.qramInRange e j := rfl
  unfold readWindow
  rw [range]
  split <;> rfl

theorem readWindow_calls (s : State) (e j : Nat) : (readWindow s e j).calls = s.calls := by
  unfold readWindow
  split <;> rfl

/-- An action of the host: only a write of `CMD` makes calls. -/
theorem hostStep_stoppedByCallAlone (s : State) (a : HostAction) :
    StoppedByCallAlone s.calls.length fun l => hostStep (s.withStuck l) a := by
  unfold hostStep
  split
  · cases a with
    | writeReg o _ v => exact writeReg_stoppedByCallAlone s o v
    | readReg o _ => exact .of_next (s.returns (s.readReg o)) rfl fun _ => rfl
    | readQram e j =>
      exact .of_next (readWindow s e j) (congrArg _ (readWindow_calls s e j)) fun l =>
        congrArg _ (readWindow_withStuck s e j l)
    | writeMem addr b => exact .of_next (s.setMem (s.hostMem.write addr b)) rfl fun _ => rfl
  · exact .of_refused .unsupportedRegisterAccess fun _ => rfl

/-- A step of a `DISPATCH` in progress: the pending delivery, or the end with its calls (R283). -/
theorem dispatchStep_stoppedByCallAlone (s : State) (h : Held) :
    StoppedByCallAlone s.calls.length fun l => dispatchStep (s.withStuck l) h := by
  cases called : h.called with
  | true =>
    simp only [dispatchStep_called called]
    exact exec_stoppedByCallAlone .udpDeliver (s.setHeld (some { h with called := false }))
  | false =>
    refine .of_complete s (dispatchEnd s) fun l => ?_
    rw [dispatchStep, called, dispatchEnd_withStuck]
    exact if_neg Bool.false_ne_true

theorem step_stoppedByCallAlone (s : State) :
    StoppedByCallAlone s.calls.length fun l => step (s.withStuck l) := by
  have held : ∀ l, (s.withStuck l).held = s.held := fun _ => rfl
  have host : ∀ l, (s.withStuck l).host = s.host := fun _ => rfl
  simp only [step, engineStep, held, host]
  split
  · exact dispatchStep_stoppedByCallAlone s _
  · split
    · exact .of_next s rfl fun _ => rfl
    · exact hostStep_stoppedByCallAlone (s.setHost _) _

end Sys2Proof.Machine
end

section
/-! Which operations make a call, whatever the collaborators answer: the history after each is longer than
before (spec/40_network_core.md R142 to R162; spec/43_udp_send.md R230, R243, R251). -/

namespace Sys2Proof.Machine

/-! ### The configuration commands -/

theorem calls_lt_of_append {s t : State} {c : Call} {cs : List Call}
    (h : t.calls = s.calls ++ c :: cs) : s.calls.length < t.calls.length := by
  rw [h, List.length_append, List.length_cons]
  omega

theorem calls_lt_reinit (s : State) : s.calls.length < (reinit s).calls.length :=
  calls_lt_of_append (reinit_calls s)

theorem calls_le_negotiate (s : State) : s.calls.length ≤ (negotiate s).calls.length := by
  obtain ⟨-, calls, -⟩ := negotiate_spec s
  rw [calls, List.length_append]
  exact Nat.le_add_right _ _

theorem calls_lt_reinit_negotiate (s : State) :
    s.calls.length < (reinit (negotiate s)).calls.length :=
  (calls_le_negotiate s).trans_lt (calls_lt_reinit _)

theorem calls_le_initNegotiated (s : State) : s.calls.length ≤ (initNegotiated s).calls.length := by
  have first : s.calls.length < (reinit (initInputs s)).calls.length := calls_lt_reinit (initInputs s)
  unfold initNegotiated
  split
  · exact first.le.trans (calls_le_negotiate _)
  · exact first.le

theorem calls_lt_shutdownCalls (s : State) : s.calls.length < (shutdownCalls s).calls.length := by
  unfold shutdownCalls
  split <;> simp

theorem calls_lt_afterNegotiate (s : State) : s.calls.length < (afterNegotiate s).calls.length :=
  calls_lt_of_append (afterNegotiate_calls s)

theorem calls_lt_takeLinkLocal (s : State) (c : IpConfig) :
    s.calls.length < (takeLinkLocal s c).calls.length :=
  calls_lt_of_append (takeLinkLocal_calls s c)

theorem calls_lt_setZeroconfNext (s : State) :
    s.calls.length < (setZeroconfNext s).calls.length := by
  rcases h : (zcAnswer s).1 with _ | c
  · rw [setZeroconfNext_of_none h]
    exact calls_lt_afterNegotiate s
  · rw [setZeroconfNext_of_some h]
    exact calls_lt_takeLinkLocal s c

/-! ### `APPLY` with anything staged (R162) -/

theorem calls_lt_applyZeroconf (b : Bool) (s : State) :
    s.calls.length < (applyZeroconf b s).calls.length := by
  rcases h : (zcAnswer s).1 with _ | c
  · rw [applyZeroconf_of_none h]
    cases b with
    | false => exact calls_lt_afterNegotiate s
    | true => exact (calls_lt_afterNegotiate s).trans (calls_lt_reinit _)
  · rw [applyZeroconf_of_some h]
    exact calls_lt_takeLinkLocal s c

theorem calls_lt_applyNext {s : State} (staged : s.pend.mask ≠ 0) :
    s.calls.length < (applyNext s).calls.length := by
  cases h3 : s.pend.mask.getLsbD 3 with
  | true =>
    rw [applyNext_dhcp h3]
    exact calls_lt_reinit_negotiate (applyStaged s)
  | false =>
    cases h4 : s.pend.mask.getLsbD 4 with
    | true =>
      rw [applyNext_zeroconf h3 h4]
      exact calls_lt_applyZeroconf _ (applyStaged s)
    | false =>
      have values : valueStaged s = true :=
        valueStaged_iff.mpr fun h0 => staged ((extract_values_eq_zero_iff _ h3 h4).mp h0)
      rw [applyNext_values h3 h4, values]
      exact calls_lt_reinit (applyStaged s)

/-! ### `DISPATCH` (R156) -/

theorem calls_le_handOver (s : State) (f : Frame) :
    s.calls.length ≤ (handOver s f).calls.length := by
  by_cases h : etherClass f = .ipv4 ∧ iplDelivers s f = true
  · obtain ⟨calls, -⟩ := handOver_delivered h.1 h.2
    exact (calls_lt_of_append calls).le
  · obtain ⟨calls, -⟩ := handOver_undelivered (s := s) (f := f) fun ipv4 =>
      Bool.eq_false_iff.mpr fun delivers => h ⟨ipv4, delivers⟩
    exact (calls_lt_of_append calls).le

theorem calls_lt_dispatchNext (s : State) : s.calls.length < (dispatchNext s).calls.length := by
  have received : s.calls.length < (afterRecv s).calls.length := by simp
  cases h : recvAnswer s with
  | none =>
    rw [dispatchNext_of_none h]
    exact received.trans (calls_lt_of_append (runTimers_calls ((afterRecv s).mark .noFrame)))
  | some f =>
    obtain ⟨-, -, -, calls⟩ := dispatchEnd_fields (handOver (holdFrame s f) f)
    rw [dispatchNext_of_some h]
    exact (received.trans_le (calls_le_handOver (holdFrame s f) f)).trans (calls_lt_of_append calls)

/-! ### The operations that always make a call -/

/-- The operations that make a call whatever their operands and the answers. -/
def callers : List Instr := [.init, .shutdown, .setIp, .setGateway, .setDhcp, .setZeroconf, .dispatch]

theorem calls_lt_effect {i : Instr} (hi : i ∈ callers) (s : State) :
    s.calls.length < (effect i s).calls.length := by
  cases i with
  | init => exact (calls_le_initNegotiated s).trans_lt (calls_lt_reinit _)
  | shutdown => exact calls_lt_shutdownCalls s
  | setIp => exact calls_lt_reinit (s.setNcConfig { s.nc.cfg with ip := s.x 0 })
  | setGateway => exact calls_lt_reinit (s.setNcConfig { s.nc.cfg with gw := s.x 0 })
  | setDhcp => exact calls_lt_reinit_negotiate s
  | setZeroconf => exact calls_lt_setZeroconfNext s
  | dispatch => exact calls_lt_dispatchNext s
  | _ => exact absurd hi (by decide)

/-- Each ends by `complete`, a `DISPATCH` where the IP layer keeps its promise (R291 (d)). -/
theorem exec_eq_complete {i : Instr} (hi : i ∈ callers) {s : State}
    (promise : deliveryContractBroken s = false) : exec i s = complete s (effect i s) := by
  cases i with
  | init | shutdown | setIp | setGateway | setDhcp | setZeroconf => rfl
  | dispatch => exact exec_dispatch_eq_complete promise
  | _ => exact absurd hi (by decide)

/-! ### `SEND` from a bound slot -/

/-- A unicast destination is looked up, whatever comes of it (R243). -/
theorem calls_lt_sendNext {s : State} (bound : BoundHandle s) (nb : ¬ BroadcastDst s)
    (nm : ¬ MulticastDst s) : s.calls.length < (sendNext s (s.x 0).toNat).calls.length := by
  have check := unboundHandle_eq_false_iff.mpr bound
  obtain ⟨-, looked⟩ := unicast_lookup nb nm
  cases mac : destinationMac (takeId s) (s.x 3) with
  | none =>
    rw [sendNext_of_unresolved check mac, looked]
    simp [takeId]
  | some dmac =>
    rw [sendNext_of_addressed check mac, looked]
    simp [transmit, takeId]

/-- The transmit of a `SEND` follows its lookups (R251). -/
theorem calls_lt_sendNext_of_addressed {s : State} {dmac : Mac} {lookups : List Call}
    (bound : BoundHandle s) (addressed : Addressed s dmac lookups) :
    s.calls.length + lookups.length < (sendNext s (s.x 0).toNat).calls.length := by
  obtain ⟨mac, calls⟩ := addressed_spec addressed
  rw [sendNext_of_addressed (unboundHandle_eq_false_iff.mpr bound) mac]
  simp [transmit, calls]

end Sys2Proof.Machine
end

section
/-! The statements of the family 60_exceptions.md, from the lemmas above. -/

namespace Sys2Proof.Proofs

open Sys2Proof.Machine

/-- Settles O35: the operations named end by `complete`, and their effect holds the call; of the rest no
outcome is past it (`StoppedByCallAlone.not_past`). -/
theorem callThatNeverReturnsIsStuck : Obligations.CallThatNeverReturnsIsStuck := by
  refine ⟨fun i s hs promise hi => ?_, fun s hs staged => ?_, fun s hs bound nb nm => ?_,
    fun s dmac lookups hs bound addressed => ?_, fun i s t k hs hk ends => ?_,
    fun s t k hs hk ends => ?_⟩
  · rw [exec_eq_complete hi promise]
    exact complete_fault hs (calls_lt_effect hi s)
  · exact complete_fault hs (calls_lt_applyNext staged)
  · exact complete_fault hs (calls_lt_sendNext bound nb nm)
  · exact complete_fault hs (calls_lt_sendNext_of_addressed bound addressed)
  · exact (exec_stoppedByCallAlone i s).not_past hs hk ends
  · exact (step_stoppedByCallAlone s).not_past hs hk ends

/-- Settles O60: operations and steps alike are stopped by the call alone. -/
theorem onlyTheStuckCallStopsAnOperation : Obligations.OnlyTheStuckCallStopsAnOperation :=
  ⟨fun i s _ _ hk ends => (exec_stoppedByCallAlone i s).stuck hk ends,
    fun s _ _ hk ends => (step_stoppedByCallAlone s).stuck hk ends⟩

end Sys2Proof.Proofs
end
